-- ==== Sys2Proof/Word.lean ====
section
/-! DEFINITION. The two word sizes of the block: a "word" is 32 bits and a "byte" 8 bits (00_scope.md R7).
All numbers are unsigned (R7), so no signed reading of either is given. -/

namespace Sys2Proof

/-- A 32-bit word (R7). -/
abbrev Word := BitVec 32

/-- A byte (R7). -/
abbrev Byte := BitVec 8

end Sys2Proof
end

