-- ==== Sys2Proof/Syntax.lean ====
section
/-! DEFINITION. The commands of UFVD: one constructor of Instr per row of the opcode map (30_encoding.md R75).
Operands have exactly the width their field has (R71, R74), so every value of Instr is encodable. -/

namespace Sys2Proof

/-- A queue number q = a[0]: 0 is TXQ (outbound), 1 is RXQ (inbound) (R7, R79). -/
inductive QId where
  | txq
  | rxq
deriving DecidableEq, Repr

/-- The 18 commands (R75). `endCmd` is END. -/
inductive Instr where
  | endCmd
  | fcreate (q : QId) (cap : BitVec 16)
  | fwrite (q : QId) (byte : Byte)
  | fread (q : QId)
  | ffull (q : QId)
  | fempty (q : QId)
  | favail (q : QId)
  | imask (n : BitVec 6)
  | iunmask (n : BitVec 6)
  | intset (mask : BitVec 4)
  | intclr (mask : BitVec 4)
  | configure (rx tx rts cts sel : Byte) (parity flow : Bool)
  | putc (byte : Byte)
  | getc
  | puts (addr : Word) (len : BitVec 16)
  | putz (addr : Word)
  | send (addr : Word) (len : BitVec 16)
  | recv (addr : Word) (max : BitVec 16)
deriving DecidableEq, Repr

end Sys2Proof
end

