-- ==== Sys2Proof/Config.lean ====
section
/-! DEFINITION. What an implementation fixes: the parameters of 00_scope.md R5 as ONE plain-data record, and the values
the spec leaves free. A parameter set is carried by every State (State.par) and changed by no step (log entry 1). -/

namespace Sys2Proof

/-- Memory contents: (address, byte) pairs, addresses strictly rising (Memory.wf in Machine/Memory.lean). -/
abbrev Memory := List Host.Cell

/-- The link-time binding of a vector slot, BIND of R5 and R191. A CUSTOM slot carries its ADDR_CUSTOM(n). -/
inductive Binding where
  | defaultHandler
  | uart0
  | custom (addr : Word)
  | reserved
deriving DecidableEq, Repr

/-- The implementation parameters, one field per row of R5's table, in its order. The constraints of that table are
Params.wf (WellFormed.lean). -/
structure Params where
  /-- FIFO_MAX: depth of each queue's storage. -/
  fifoMax : Nat
  /-- T_BLOCK: retry budget of one unbuffered busy-wait. -/
  tBlock : Nat
  /-- T_SEND: retry budget of one buffered-send admission wait. -/
  tSend : Nat
  /-- ECHO: local-echo policy of the handler's receive branch. -/
  echo : Bool
  /-- NPINS: valid pin numbers are 0..NPINS-1. -/
  npins : Nat
  /-- BAUD_TABLE: partial map from selector to register encoding. -/
  baudTable : List (Nat × Word)
  /-- VT_BASE: byte address of vector slot 0. -/
  vtBase : Word
  /-- STACK_TOP: value of vector slot 0. -/
  stackTop : Word
  /-- ADDR_RESET. -/
  addrReset : Word
  /-- ADDR_DEFAULT. -/
  addrDefault : Word
  /-- ADDR_UART0. -/
  addrUart0 : Word
  /-- BIND with ADDR_CUSTOM; a slot that is not listed is bound to DEFAULT (R5: "all other slots DEFAULT"). -/
  bind : List (Nat × Binding)
  /-- ROM = [ROM_BASE, ROM_END). -/
  romBase : Word
  romEnd : Word
  /-- RAM = [RAM_BASE, RAM_END). -/
  ramBase : Word
  ramEnd : Word
  /-- ROM_IMAGE; an address of ROM that is not listed holds Config.romFill (log entry 5). -/
  rom : Memory
  dataSrcStart : Word
  dataSrcEnd : Word
  dataDstStart : Word
  dataDstEnd : Word
  zeroStart : Word
  zeroEnd : Word
  /-- Region descriptors that no rule uses, "carried for completeness of MemoryRegions" (R5). -/
  stackStart : Word
  stackEnd : Word
  codeStart : Word
  codeEnd : Word
  /-- APP_ENTRY: first command word. -/
  appEntry : Word
  /-- EXT_LINES: the exception numbers EXT may request. -/
  extLines : List Nat
deriving DecidableEq, Repr

/-- What an address of ROM that Params.rom does not list holds. Only a way to write an image down: every image of
R5 can be listed (DESIGN CHOICE, safe, log entry 5). -/
def Config.romFill : Byte := 0x00#8

/-- FREE VALUE. The byte that RAM address `addr` holds when nothing has written it (20_memory.md R51,
93_implementation_defined.md U6: "a draw per byte, fixed for the run once drawn"). `seed` is State.seed, which names
the draw of one run. No body: no proof can use a value of it (log entry 4). -/
opaque Config.ramByte (seed addr : Nat) : BitVec 8

/-- The 32-bit code of "no pin" in a pin selection register (10_state.md R27). -/
def Config.noPin : Word := 0xFFFFFFFF#32

end Sys2Proof
end

