-- ==== Sys2Proof/Machine/Memory.lean ====
section
/-! DEFINITION. Memory contents in one canonical form, the two regions of the address space, and the four access
primitives MemRead and MemWrite of 20_memory.md R53 to R56 over a parameter set and the RAM contents. Byte order is
decided here, once (R57: little-endian). An access that raises BusFault(addr) answers none. -/

namespace Sys2Proof

/-- What a memory list says about address `a`; none where the list says nothing. -/
def Memory.find : Memory → Nat → Option Byte
  | [], _ => none
  | (k, v) :: m, a => if k = a then some v else Memory.find m a

/-- Put `v` at `a`, keeping the addresses rising. -/
def Memory.put : Memory → Nat → Byte → Memory
  | [], a, v => [(a, v)]
  | (k, w) :: m, a, v =>
    if a < k then (a, v) :: (k, w) :: m
    else if a = k then (a, v) :: m
    else (k, w) :: Memory.put m a v

/-- Take the entry of `a` out. -/
def Memory.drop : Memory → Nat → Memory
  | [], _ => []
  | (k, w) :: m, a => if k = a then m else (k, w) :: Memory.drop m a

/-- Write `v` at `a` where an unlisted address reads as `unlisted`: writing that value takes the entry out. RAM has no
value at an unlisted address (`none`, log entry 4); ROM has Config.romFill there (log entry 5). -/
def Memory.write (unlisted : Option Byte) (m : Memory) (a : Nat) (v : Byte) : Memory :=
  if unlisted = some v then Memory.drop m a else Memory.put m a v

/-- The canonical form: addresses strictly rising, and no entry equal to what an unlisted address reads as. -/
abbrev Memory.wf (unlisted : Option Byte) (m : Memory) : Prop :=
  m.Pairwise (fun x y => x.1 < y.1) ∧ ∀ c ∈ m, unlisted ≠ some c.2

/-- `a` lies in ROM = [ROM_BASE, ROM_END) (R50). -/
def Params.inRom (p : Params) (a : Word) : Bool :=
  decide (p.romBase.toNat ≤ a.toNat) && decide (a.toNat < p.romEnd.toNat)

/-- `a` lies in RAM = [RAM_BASE, RAM_END) (R50). -/
def Params.inRam (p : Params) (a : Word) : Bool :=
  decide (p.ramBase.toNat ≤ a.toNat) && decide (a.toNat < p.ramEnd.toNat)

/-- A 4-byte access must be 4-aligned (R58). -/
def aligned4 (a : Word) : Bool := decide (a.toNat % 4 = 0)

/-- The word whose bytes, lowest address first, are b0 b1 b2 b3 (R54, R57). -/
def wordOfBytes (b0 b1 b2 b3 : Byte) : Word := b3 ++ b2 ++ b1 ++ b0

/-- Byte k of a word, v[8k+7:8k] (R56). -/
def byteOfWord (v : Word) (k : Nat) : Byte := v.extractLsb' (8 * k) 8

/-- The four bytes of a word in address order (R57). -/
def wordBytes (v : Word) : List Byte := [byteOfWord v 0, byteOfWord v 1, byteOfWord v 2, byteOfWord v 3]

/-- The byte of a ROM address, from ROM_IMAGE (R50). -/
def romByte (p : Params) (a : Word) : Byte := (p.rom.find a.toNat).getD Config.romFill

/-- The byte of a RAM address; the run's draw where nothing has written it (R51). -/
def ramByte (seed : Nat) (ram : Memory) (a : Word) : Byte := (ram.find a.toNat).getD (Config.ramByte seed a.toNat)

/-- MemRead(addr, 1) (R53). -/
def busRead1 (p : Params) (seed : Nat) (ram : Memory) (a : Word) : Option Byte :=
  if p.inRom a then some (romByte p a)
  else if p.inRam a then some (ramByte seed ram a)
  else none

/-- The four bytes addr .. addr+3 are all in ROM or all in RAM (R54). -/
def Params.wordMapped (p : Params) (a : Word) : Bool :=
  (p.inRom a && p.inRom (a + 1) && p.inRom (a + 2) && p.inRom (a + 3)) ||
  (p.inRam a && p.inRam (a + 1) && p.inRam (a + 2) && p.inRam (a + 3))

/-- MemRead(addr, 4) (R54): little-endian, aligned, and inside one region. -/
def busRead4 (p : Params) (seed : Nat) (ram : Memory) (a : Word) : Option Word :=
  if aligned4 a && p.wordMapped a then
    match busRead1 p seed ram a, busRead1 p seed ram (a + 1), busRead1 p seed ram (a + 2), busRead1 p seed ram (a + 3) with
    | some b0, some b1, some b2, some b3 => some (wordOfBytes b0 b1 b2 b3)
    | _, _, _, _ => none
  else none

/-- MemWrite(addr, 1, v) (R55): RAM only. -/
def busWrite1 (p : Params) (ram : Memory) (a : Word) (v : Byte) : Option Memory :=
  if p.inRam a then some (ram.write none a.toNat v) else none

/-- MemWrite(addr, 4, v) (R56): aligned, all four bytes in RAM, or nothing is written. -/
def busWrite4 (p : Params) (ram : Memory) (a : Word) (v : Word) : Option Memory :=
  if aligned4 a && (p.inRam a && p.inRam (a + 1) && p.inRam (a + 2) && p.inRam (a + 3)) then
    some ((((ram.write none a.toNat (byteOfWord v 0)).write none (a + 1).toNat (byteOfWord v 1)).write none
      (a + 2).toNat (byteOfWord v 2)).write none (a + 3).toNat (byteOfWord v 3))
  else none

/-- Write `bytes` from address `a` up into a ROM image (used to place a program, never by a step: ROM cannot
be written, R66). -/
def romStore (rom : Memory) (a : Nat) : List Byte → Memory
  | [] => rom
  | b :: bs => romStore (rom.write (some Config.romFill) a b) (a + 1) bs

end Sys2Proof
end

