-- ==== Sys2Proof/Machine/Vectors.lean ====
section
/-! DEFINITION. The vector table: its 47 slots, which of them are reserved, which have a pend bit and which an enable
bit, and the word each slot holds (60_exceptions.md R190, R191). -/

namespace Sys2Proof

/-- Number of slots (R190). -/
def slotCount : Nat := 47

/-- The exception numbers that have names in the rules (R191, R205). -/
def excBusFault : Nat := 5
def excUsageFault : Nat := 6
def excUart0 : Nat := 18

/-- The reserved slots: 7 to 10, 13, 21, 42 to 46 (R191, R194). -/
def isReservedSlot (n : Nat) : Bool :=
  (decide (7 ≤ n) && decide (n ≤ 10)) || decide (n = 13) || decide (n = 21) || (decide (42 ≤ n) && decide (n ≤ 46))

/-- The slots with a `pend` bit: every non-reserved n in 2..46 except 18 (10_state.md R33). -/
def hasPend (n : Nat) : Bool :=
  decide (2 ≤ n) && decide (n ≤ 46) && !isReservedSlot n && decide (n ≠ excUart0)

/-- The slots with an enable bit: 16 to 20 and 22 to 41 (10_state.md R34, 41_control.md R112). -/
def hasIrqen (n : Nat) : Bool :=
  (decide (16 ≤ n) && decide (n ≤ 20)) || (decide (22 ≤ n) && decide (n ≤ 41))

/-- The system exceptions that have a pend bit (70_reset_and_hazards.md R239). -/
def systemExceptions : List Nat := [2, 3, 4, 5, 6, 11, 12, 14, 15]

/-- BIND(n); a slot the map does not list is bound to DEFAULT (R5). -/
def Params.binding (p : Params) (n : Nat) : Binding := ((p.bind.find? (fun e => e.1 == n)).map Prod.snd).getD .defaultHandler

/-- SENTINEL (R191). -/
def vectorSentinel : Word := 0x00000000#32

/-- The word a bound slot holds (R191). -/
def Params.bindingWord (p : Params) : Binding → Word
  | .defaultHandler => p.addrDefault
  | .uart0 => p.addrUart0
  | .custom a => a
  | .reserved => vectorSentinel

/-- The word R191 gives slot n: STACK_TOP, ADDR_RESET, then the binding's word. -/
def Params.vectorWord (p : Params) (n : Nat) : Word :=
  if n = 0 then p.stackTop else if n = 1 then p.addrReset else p.bindingWord (p.binding n)

/-- The byte address of slot n: VT_BASE + 4*n (R190). -/
def Params.slotAddr (p : Params) (n : Nat) : Word := p.vtBase + BitVec.ofNat 32 (4 * n)

/-- VT[n], read as R192 reads it. ROM does not depend on a run, so no RAM contents are needed in a well-formed set. -/
def vectorFetch (p : Params) (seed : Nat) (ram : Memory) (n : Nat) : Option Word := busRead4 p seed ram (p.slotAddr n)

/-- Every number EXT may request by default: all with a pend bit (60_exceptions.md R197). -/
def allExtLines : List Nat := (List.range slotCount).filter hasPend

/-- The BIND of a set with no CUSTOM slot (R191): reserved slots RESERVED, slot 18 UART0. -/
def plainBind : List (Nat × Binding) :=
  [(7, .reserved), (8, .reserved), (9, .reserved), (10, .reserved), (13, .reserved), (18, .uart0), (21, .reserved),
   (42, .reserved), (43, .reserved), (44, .reserved), (45, .reserved), (46, .reserved)]

/-- The 16-entry BAUD_TABLE instance of 42_uart_config_unbuffered.md R122. -/
def plainBaudTable : List (Nat × Word) :=
  [(0, 0x0004F000#32), (1, 0x0009D000#32), (2, 0x0013B000#32), (3, 0x00275000#32), (4, 0x003B0000#32),
   (5, 0x004EA000#32), (6, 0x0075F000#32), (7, 0x009D5000#32), (8, 0x00EBF000#32), (9, 0x013A9000#32),
   (10, 0x01D7E000#32), (11, 0x03AFB000#32), (12, 0x04000000#32), (13, 0x075F7000#32), (14, 0x0EBED000#32),
   (15, 0x10000000#32)]

/-- The entries of `bytes` at address `a` up that a ROM image lists. -/
def romCells (a : Nat) (bytes : List Byte) : Memory :=
  ((List.range bytes.length).zip bytes).filterMap
    (fun e => if e.2 = Config.romFill then none else some (a + e.1, e.2))

/-- The entries of the vector table of `p` (R191), slot 0 first. -/
def vectorCells (p : Params) : Memory :=
  (List.range slotCount).flatMap (fun n => romCells (p.slotAddr n).toNat (wordBytes (p.vectorWord n)))

/-- The example parameter set X of 95_test_vectors.md section 0, with EXT_LINES at the default of R5 and with no
command list (DESIGN CHOICE, log entry 2): the vector table, and the data word 0x00000A41 at 0x200. -/
def Params.exampleX : Params :=
  let p : Params :=
    { fifoMax := 8, tBlock := 2, tSend := 1, echo := false, npins := 32, baudTable := plainBaudTable
      vtBase := 0x00000000#32, stackTop := 0x20004000#32
      addrReset := 0x000000C0#32, addrDefault := 0x000000D0#32, addrUart0 := 0x000000E0#32
      bind := plainBind
      romBase := 0x00000000#32, romEnd := 0x00040000#32, ramBase := 0x20000000#32, ramEnd := 0x20004000#32
      rom := []
      dataSrcStart := 0x00000200#32, dataSrcEnd := 0x00000204#32
      dataDstStart := 0x20000000#32, dataDstEnd := 0x20000004#32
      zeroStart := 0x20000004#32, zeroEnd := 0x20000008#32
      stackStart := 0#32, stackEnd := 0#32, codeStart := 0#32, codeEnd := 0#32
      appEntry := 0x00000100#32, extLines := allExtLines }
  { p with rom := vectorCells p ++ romCells 0x200 (wordBytes 0x00000A41#32) }

end Sys2Proof
end

