-- ==== Sys2Proof/WellFormed.lean ====
section
/-! DEFINITION. Well-formedness of a parameter set: every constraint of 00_scope.md R5, one check each, and the
vector-table words of 60_exceptions.md R191 (R6). An Instr needs no check: each operand has the width of its field, so
every Instr is encodable, and an operand value that is not acceptable is rejected when the command runs (R78). -/

namespace Sys2Proof

/-- 1 <= FIFO_MAX <= 65535. -/
def Params.fifoMaxOk (p : Params) : Bool := decide (1 ≤ p.fifoMax) && decide (p.fifoMax ≤ 65535)

/-- 0 <= T_BLOCK, T_SEND < 2^32. -/
def Params.budgetsOk (p : Params) : Bool := decide (p.tBlock < 2 ^ 32) && decide (p.tSend < 2 ^ 32)

/-- 1 <= NPINS <= 255. -/
def Params.npinsOk (p : Params) : Bool := decide (1 ≤ p.npins) && decide (p.npins ≤ 255)

/-- BAUD_TABLE is a non-empty partial map on 0..255. -/
def Params.baudOk (p : Params) : Bool :=
  !p.baudTable.isEmpty && p.baudTable.all (fun e => decide (e.1 ≤ 255)) && decide (p.baudTable.map Prod.fst).Nodup

/-- Two regions of addresses [b, e) nest. -/
def regionInside (b e base top : Word) : Bool :=
  decide (base.toNat ≤ b.toNat) && decide (b.toNat ≤ e.toNat) && decide (e.toNat ≤ top.toNat)

/-- VT_BASE is a multiple of 4 and [VT_BASE, VT_BASE+188) lies in ROM. -/
def Params.vtPlaceOk (p : Params) : Bool :=
  aligned4 p.vtBase && decide (p.romBase.toNat ≤ p.vtBase.toNat) && decide (p.vtBase.toNat + 188 ≤ p.romEnd.toNat)

/-- ADDR_RESET, ADDR_DEFAULT, ADDR_UART0 are pairwise distinct and non-zero. -/
def Params.addrsOk (p : Params) : Bool :=
  decide (p.addrReset ≠ p.addrDefault) && decide (p.addrReset ≠ p.addrUart0) && decide (p.addrDefault ≠ p.addrUart0) &&
  decide (p.addrReset ≠ 0) && decide (p.addrDefault ≠ 0) && decide (p.addrUart0 ≠ 0)

/-- What one slot may be bound to (R5, R191, R193): a reserved slot to RESERVED, slot 18 to UART0, any other to DEFAULT
or to a CUSTOM address that is non-zero and none of the three hardwired ones. -/
def Params.slotBindingOk (p : Params) (n : Nat) : Bool :=
  match p.binding n with
  | .reserved => isReservedSlot n
  | .uart0 => decide (n = excUart0)
  | .defaultHandler => hasPend n
  | .custom a =>
    hasPend n && decide (a ≠ 0) && decide (a ≠ p.addrReset) && decide (a ≠ p.addrDefault) && decide (a ≠ p.addrUart0)

/-- BIND is a map on the slots 2..46 and every slot's binding is allowed. -/
def Params.bindOk (p : Params) : Bool :=
  decide (p.bind.map Prod.fst).Nodup && p.bind.all (fun e => decide (2 ≤ e.1) && decide (e.1 ≤ 46)) &&
  (List.range slotCount).all (fun n => decide (n < 2) || p.slotBindingOk n)

/-- ROM and RAM: multiples of 4, non-empty, disjoint. -/
def Params.regionsOk (p : Params) : Bool :=
  aligned4 p.romBase && aligned4 p.romEnd && aligned4 p.ramBase && aligned4 p.ramEnd &&
  decide (p.romBase.toNat < p.romEnd.toNat) && decide (p.ramBase.toNat < p.ramEnd.toNat) &&
  (decide (p.romEnd.toNat ≤ p.ramBase.toNat) || decide (p.ramEnd.toNat ≤ p.romBase.toNat))

/-- ROM_IMAGE lists addresses of ROM only, in the canonical form. -/
def Params.romOk (p : Params) : Bool :=
  decide (Memory.wf (some Config.romFill) p.rom) &&
  p.rom.all (fun c => decide (p.romBase.toNat ≤ c.1) && decide (c.1 < p.romEnd.toNat))

/-- The initialized-data source: multiples of 4, inside ROM, START <= END. -/
def Params.dataSrcOk (p : Params) : Bool :=
  aligned4 p.dataSrcStart && aligned4 p.dataSrcEnd && regionInside p.dataSrcStart p.dataSrcEnd p.romBase p.romEnd

/-- The initialized-data destination: multiples of 4, inside RAM, and of the source's size (R5, R6). -/
def Params.dataDstOk (p : Params) : Bool :=
  aligned4 p.dataDstStart && aligned4 p.dataDstEnd && regionInside p.dataDstStart p.dataDstEnd p.ramBase p.ramEnd &&
  decide (p.dataDstEnd.toNat - p.dataDstStart.toNat = p.dataSrcEnd.toNat - p.dataSrcStart.toNat)

/-- The zero-fill region: multiples of 4, inside RAM, START <= END. -/
def Params.zeroOk (p : Params) : Bool :=
  aligned4 p.zeroStart && aligned4 p.zeroEnd && regionInside p.zeroStart p.zeroEnd p.ramBase p.ramEnd

/-- APP_ENTRY is a multiple of 4 inside ROM. -/
def Params.appEntryOk (p : Params) : Bool := aligned4 p.appEntry && p.inRom p.appEntry

/-- EXT_LINES holds no reserved slot and not 18. -/
def Params.extLinesOk (p : Params) : Bool := p.extLines.all hasPend

/-- The vector-table words in ROM_IMAGE are those of R191 (R6). The table lies in ROM, so the RAM given here is of no
account. -/
def Params.vectorsOk (p : Params) : Bool :=
  (List.range slotCount).all (fun n => decide (vectorFetch p 0 [] n = some (p.vectorWord n)))

/-- A parameter set is well-formed (R6). -/
def Params.wf (p : Params) : Bool :=
  p.fifoMaxOk && p.budgetsOk && p.npinsOk && p.baudOk && p.vtPlaceOk && p.addrsOk && p.bindOk && p.regionsOk && p.romOk &&
  p.dataSrcOk && p.dataDstOk && p.zeroOk && p.appEntryOk && p.extLinesOk && p.vectorsOk

end Sys2Proof
end

