-- ==== Sys2Proof/Machine/State.lean ====
section
/-! DEFINITION. Every piece of state of 10_state.md as plain data, the reasons a step can stop, and the state after
reset (R43, 70_reset_and_hazards.md R231). The parameter set, the schedule of agents' steps, the name of the run's draw
and the transmit-byte counter are the model's own fields, marked so. -/

namespace Sys2Proof.Machine

/-- The status codes of STAT (R13). -/
inductive Status where
  | ok
  | full
  | empty
  | timeout
  | badcfg
  | busy
deriving DecidableEq, Repr

/-- The phase of the foreground sequencer (R15). -/
inductive Mode where
  | copy
  | zero
  | run
  | stopped
deriving DecidableEq, Repr

/-- tstate (R20): Idle is 0, Transmitting is 1. -/
inductive TState where
  | idle
  | transmitting
deriving DecidableEq, Repr

/-- hpc, the micro-step of the handler in progress (R39). -/
inductive Hpc where
  | hs0 | hs1 | hs2 | hs3 | hs4 | hs5
  | dh0 | dh1
  | ch0
deriving DecidableEq, Repr

/-- The start and stop tasks recorded in task_log (R41). -/
inductive Task where
  | startRx
  | startTx
  | stopTx
deriving DecidableEq, Repr

/-- The kinds of `line_error` (44_uart_handler.md R180). -/
inductive LineErrorKind where
  | parity
  | framing
deriving DecidableEq, Repr

/-- A step of the agent LINE (R176 to R180). `rxOverrun` carries LINE's choice: whether the new byte replaces RXD's. -/
inductive LineStep where
  | txReady
  | rxArrive (b : Byte)
  | rxOverrun (b : Byte) (replace : Bool)
  | rxTimeout
  | lineError (k : LineErrorKind)
deriving DecidableEq, Repr

/-- Which agent's step comes next (70_reset_and_hazards.md R239, R247). -/
inductive Move where
  | fg
  | irq
  | line (e : LineStep)
  | ext (n : Nat)
deriving DecidableEq, Repr

/-- The foreground sequencer's working record (R16). -/
structure Fg where
  run : Bool
  i : Nat
  w : Nat
  cr : Bool
  src : Word
  dst : Word
deriving DecidableEq, Repr

/-- A FIFO byte queue (R18); `buf` has FIFO_MAX bytes, of which only the indices below `cap` are accessed. -/
structure Queue where
  cap : Nat
  wr : Nat
  rd : Nat
  cnt : Nat
  buf : List Byte
deriving DecidableEq, Repr

/-- The UART register block, U0 to U12 (R21), with the hidden bit rxd_valid of RXD (R26). -/
structure Uart where
  /-- U0 EVENTS: TXDRDY[0], RXDRDY[1], RXTO[2], ERROR[3] (R22). -/
  events : BitVec 4
  /-- U1 INTEN, the same positions (R23). -/
  inten : BitVec 4
  /-- U2 ERRORSRC: OVERRUN[0], PARITY[1], FRAMING[2] (R24). -/
  errorsrc : BitVec 3
  /-- U3 TXD (R25). -/
  txd : Byte
  /-- U4 RXD and rxd_valid (R26). -/
  rxd : Byte
  rxdValid : Bool
  /-- U5 to U8, the pin selection registers (R27). -/
  pselrxd : Word
  pseltxd : Word
  pselrts : Word
  pselcts : Word
  /-- U9 BAUDRATE (R28). -/
  baudrate : Word
  /-- U10 CONFIG: HWFC[0], PARITY[1] (R29). -/
  config : BitVec 2
  /-- U11 ENABLE: EN[0] (R30). -/
  enable : BitVec 1
  /-- U12 RUN: TXRUN[0], RXRUN[1] (R31). -/
  run : BitVec 2
deriving DecidableEq, Repr

/-- The dispatcher and the handler engines (R32 to R39). ICSR is computed (Flags.lean, R36). -/
structure Irq where
  /-- ACTIVE (R32). -/
  active : BitVec 6
  /-- pend[n] at bit n; bits of slots without a pend bit stay 0 (R33). -/
  pend : BitVec 47
  /-- irqen[n] at bit n; bits of slots without an enable bit stay 0 (R34). -/
  irqen : BitVec 47
  /-- halted (R35). -/
  halted : Bool
  /-- DIAG_ACTIVE, DIAG_PENDING, DIAG_ICSR (R37). -/
  diagActive : BitVec 6
  diagPending : BitVec 6
  diagIcsr : Word
  /-- FAULTINFO (R38). -/
  faultinfo : Word
  /-- hpc and snap (R39). -/
  hpc : Hpc
  snap : BitVec 4
deriving DecidableEq, Repr

/-- The observation history (R41), oldest first, and the ghost counter of R181: bytes written to TXD that no tx_ready
has answered. -/
structure Logs where
  tx : List Byte
  task : List Task
  txOwed : Nat
deriving DecidableEq, Repr

/-- The whole machine (R10). -/
structure State where
  /-- The model's own: the parameter set (R5), which no step changes (log entry 1). -/
  par : Params
  /-- The model's own: which draw of the unwritten RAM bytes this run has (log entry 4). -/
  seed : Nat
  /-- The model's own: the agents' steps that come next; empty, the machine runs by itself (log entry 6). -/
  sched : List Move
  /-- pc (R11). -/
  pc : Word
  /-- RES (R12). -/
  res : Word
  /-- STAT (R13). -/
  stat : BitVec 4
  /-- SP (R14). -/
  sp : Word
  mode : Mode
  fg : Fg
  /-- Q[0] = TXQ and Q[1] = RXQ. -/
  txq : Queue
  rxq : Queue
  tstate : TState
  uart : Uart
  irq : Irq
  /-- RAM contents (R51): the bytes that have been written. -/
  ram : Memory
  logs : Logs
deriving DecidableEq, Repr

/-- Why the machine stops. -/
inductive Fault where
  /-- Raised by a dispatch whose vector word cannot be read, which no well-formed parameter set allows
  (60_exceptions.md R192). Safe (log entry 9). -/
  | vectorUnreadable
deriving DecidableEq, Repr

/-- Why a step has no meaning. -/
inductive Refusal where
  /-- Raised by exec's arm of a command that has no meaning yet. Safe. -/
  | notModelled (mnemonic : String)
  /-- Raised by step where the schedule names a step that R239 does not enable in this state: the schedule is no run of
  the block. Safe (log entry 8). -/
  | stepNotEnabled (m : Move)
  /-- Raised by State.boot for a parameter set that is not well-formed (R6: "A model refuses (gives no run to)"). Safe. -/
  | illFormedParameters
deriving DecidableEq, Repr

/-- The values that state with an unspecified reset value holds at power-on (R43). Statements about reset hold for
every value of this record; State.reset takes PowerOn.zero (DESIGN CHOICE, unsafe, log entry 3). -/
structure PowerOn where
  seed : Nat
  res : Word
  txBuf : List Byte
  rxBuf : List Byte
  txd : Byte
  rxd : Byte
  pselrxd : Word
  pseltxd : Word
  pselrts : Word
  pselcts : Word
  baudrate : Word
  config : BitVec 2
  diagActive : BitVec 6
  diagPending : BitVec 6
  diagIcsr : Word
  faultinfo : Word
  hpc : Hpc
  snap : BitVec 4
deriving DecidableEq, Repr

/-- Zero for every unspecified value; HS0 for hpc (log entry 3). -/
def PowerOn.zero : PowerOn :=
  { seed := 0, res := 0, txBuf := [], rxBuf := [], txd := 0, rxd := 0, pselrxd := 0, pseltxd := 0, pselrts := 0
    pselcts := 0, baudrate := 0, config := 0, diagActive := 0, diagPending := 0, diagIcsr := 0, faultinfo := 0
    hpc := .hs0, snap := 0 }

/-- A queue at reset: not created, with FIFO_MAX bytes of unspecified storage (R18, R43). -/
def Queue.atReset (fifoMax : Nat) (bytes : List Byte) : Queue :=
  { cap := 0, wr := 0, rd := 0, cnt := 0, buf := (List.range fifoMax).map (fun k => bytes.getD k 0) }

/-- The state after reset of a machine with parameters `p` whose unspecified state powers on as `u` (R43, R231):
SP and pc come from vector slots 0 and 1. -/
def State.resetWith (p : Params) (u : PowerOn) : State :=
  { par := p
    seed := u.seed
    sched := []
    pc := (vectorFetch p u.seed [] 1).getD p.addrReset
    res := u.res
    stat := 0
    sp := (vectorFetch p u.seed [] 0).getD p.stackTop
    mode := .copy
    fg := { run := false, i := 0, w := 0, cr := false, src := p.dataSrcStart, dst := p.dataDstStart }
    txq := Queue.atReset p.fifoMax u.txBuf
    rxq := Queue.atReset p.fifoMax u.rxBuf
    tstate := .idle
    uart :=
      { events := 0, inten := 0, errorsrc := 0, txd := u.txd, rxd := u.rxd, rxdValid := false, pselrxd := u.pselrxd
        pseltxd := u.pseltxd, pselrts := u.pselrts, pselcts := u.pselcts, baudrate := u.baudrate, config := u.config
        enable := 0, run := 0 }
    irq :=
      { active := 0, pend := 0, irqen := 0, halted := false, diagActive := u.diagActive, diagPending := u.diagPending
        diagIcsr := u.diagIcsr, faultinfo := u.faultinfo, hpc := u.hpc, snap := u.snap }
    ram := []
    logs := { tx := [], task := [], txOwed := 0 } }

/-- The run of a parameter set begins here: an ill-formed set is refused (R6). -/
def State.boot (p : Params) (u : PowerOn) : Host.Outcome State Fault Refusal :=
  if p.wf then .next (State.resetWith p u) else .refused .illFormedParameters

/-- The state after reset of the machine with the spec's example parameters (log entries 2 and 3). -/
def State.reset : State := State.resetWith Params.exampleX PowerOn.zero

end Sys2Proof.Machine
end

