-- ==== Sys2Proof/Machine/Flags.lean ====
section
/-! DEFINITION. The block's status-like state (10_state.md R42): bit reads and writes, the four events, the queue
predicates, the request and enable of each exception, the dispatcher's choice, and ICSR. The block has no arithmetic
flags. -/

namespace Sys2Proof.Machine

/-- v with bit k set. -/
def setBit {w : Nat} (v : BitVec w) (k : Nat) : BitVec w := v ||| BitVec.twoPow w k

/-- v with bit k cleared. -/
def clearBit {w : Nat} (v : BitVec w) (k : Nat) : BitVec w := v &&& ~~~ BitVec.twoPow w k

/-- v with bit k equal to b. -/
def writeBit {w : Nat} (v : BitVec w) (k : Nat) (b : Bool) : BitVec w := if b then setBit v k else clearBit v k

/-- The bit positions of EVENTS and INTEN (R22, R23). -/
def bitTxdrdy : Nat := 0
def bitRxdrdy : Nat := 1
def bitRxto : Nat := 2
def bitError : Nat := 3

/-- The bit positions of ERRORSRC (R24). -/
def bitOverrun : Nat := 0
def bitParityErr : Nat := 1
def bitFraming : Nat := 2

/-- The bit positions of CONFIG (R29). -/
def bitHwfc : Nat := 0
def bitParity : Nat := 1

/-- The bit position of ENABLE.EN (R30). -/
def bitEn : Nat := 0

/-- The bit positions of RUN (R31). -/
def bitTxrun : Nat := 0
def bitRxrun : Nat := 1

/-- The number of a status (R13). -/
def Status.code : Status → BitVec 4
  | .ok => 0
  | .full => 1
  | .empty => 2
  | .timeout => 3
  | .badcfg => 4
  | .busy => 5

/-- full(q) (40_fifo.md R94). -/
def Queue.isFull (q : Queue) : Bool := decide (q.cnt = q.cap)

/-- empty(q) (R95). -/
def Queue.isEmpty (q : Queue) : Bool := decide (q.cnt = 0)

/-- `requested(n)` (60_exceptions.md R195): for the UART line the level (EVENTS and INTEN) != 0. -/
def requested (s : State) (n : Nat) : Bool :=
  if n = excUart0 then decide (s.uart.events &&& s.uart.inten ≠ 0)
  else hasPend n && s.irq.pend.getLsbD n

/-- `enabled(n)` (R196): 2 to 15 always, a device slot by its enable bit. -/
def enabled (s : State) (n : Nat) : Bool :=
  (decide (2 ≤ n) && decide (n ≤ 15)) || (hasIrqen n && s.irq.irqen.getLsbD n)

/-- The lowest exception number requested and enabled (R199). -/
def lowestPending (s : State) : Option Nat := (List.range slotCount).find? (fun n => requested s n && enabled s n)

/-- `dispatchable(n)` (R199). -/
def dispatchable (s : State) (n : Nat) : Bool :=
  decide (s.irq.active = 0) && !s.irq.halted && decide (lowestPending s = some n)

/-- Some device exception is requested, whatever its enable (R36, ISRPENDING). -/
def isrPending (s : State) : Bool := (List.range slotCount).any (fun n => decide (16 ≤ n) && requested s n)

/-- VECTPENDING (R36). -/
def vectPending (s : State) : BitVec 6 := BitVec.ofNat 6 ((lowestPending s).getD 0)

/-- ICSR (R36): VECTACTIVE [5:0], VECTPENDING [17:12], ISRPENDING [22], all other bits 0. -/
def icsr (s : State) : Word :=
  0#9 ++ BitVec.ofBool (isrPending s) ++ 0#4 ++ vectPending s ++ 0#6 ++ s.irq.active

/-- "No system exception pending" (70_reset_and_hazards.md R239). -/
def noSystemPending (s : State) : Bool := systemExceptions.all (fun n => !s.irq.pend.getLsbD n)

/-- FG has a step (60_exceptions.md R209, R239). -/
def fgEnabled (s : State) : Bool :=
  decide (s.irq.active = 0) && !s.irq.halted && decide (s.mode ≠ .stopped) && noSystemPending s

/-- IRQ has a step: a dispatch or a handler micro-step (R239). -/
def irqEnabled (s : State) : Bool :=
  !s.irq.halted && (decide (s.irq.active ≠ 0) || (lowestPending s).isSome)

/-- No FG or IRQ step is enabled (R249). -/
def quiescent (s : State) : Bool := !fgEnabled s && !irqEnabled s

end Sys2Proof.Machine
end

