-- ==== Sys2Proof/Machine/Operands.lean ====
section
/-! DEFINITION. Every operand form of the commands: a queue number, a buffer address, a pin, a baud selector, an
exception number, and zero extension into RES (30_encoding.md R74). -/

namespace Sys2Proof.Machine

/-- Q[q] (00_scope.md R7). -/
def State.queue (s : State) : QId → Queue
  | .txq => s.txq
  | .rxq => s.rxq

/-- Write Q[q]. -/
def State.setQueue (s : State) (q : QId) (x : Queue) : State :=
  match q with
  | .txq => { s with txq := x }
  | .rxq => { s with rxq := x }

/-- The address of byte i of a buffer at addr, (addr + i) mod 2^32 (20_memory.md R61). -/
def bufAddr (addr : Word) (i : Nat) : Word := addr + BitVec.ofNat 32 i

/-- zext_32 of a byte (R74). -/
def zextByte (b : Byte) : Word := b.setWidth 32

/-- zext_32 of a count. -/
def zextNat (n : Nat) : Word := BitVec.ofNat 32 n

/-- A pin operand is a pin number or 0xFF, "no pin" (42_uart_config_unbuffered.md R123). -/
def pinOk (p : Params) (pin : Byte) : Bool := decide (pin.toNat < p.npins) || decide (pin = 0xFF#8)

/-- psel(p) (R121). -/
def psel (p : Params) (pin : Byte) : Word := if pin.toNat < p.npins then zextByte pin else Config.noPin

/-- BAUD_TABLE(sel); none where the map is undefined (R122). -/
def baudOf (p : Params) (sel : Byte) : Option Word :=
  (p.baudTable.find? (fun e => decide (e.1 = sel.toNat))).map Prod.snd

end Sys2Proof.Machine
end

