-- ==== Sys2Proof/Machine/Ops.lean ====
section
/-! DEFINITION. The named operations the commands and engines share: command completion, memory access, the queue
primitives, the data-register accessors, the bounded wait, the critical sections and the kick, raising an exception,
TAKING an exception and returning from one. -/

namespace Sys2Proof.Machine

/-- The answer of a step. -/
abbrev Answer := Host.Outcome State Fault Refusal

/-- complete(st) of a command of `len` bytes (00_scope.md R7): STAT <- st; fg.run <- 0; pc <- pc + len. -/
def complete (len : Word) (st : Status) (s : State) : State :=
  { s with stat := st.code, fg := { s.fg with run := false }, pc := s.pc + len }

/-- RES <- v. -/
def setRes (v : Word) (s : State) : State := { s with res := v }

/-! ### Memory access (20_memory.md) -/

/-- MemRead(addr, 1); none is BusFault(addr) (R53). -/
def memRead1 (s : State) (a : Word) : Option Byte := busRead1 s.par s.seed s.ram a

/-- MemRead(addr, 4); none is BusFault(addr) (R54). -/
def memRead4 (s : State) (a : Word) : Option Word := busRead4 s.par s.seed s.ram a

/-- MemWrite(addr, 1, v); none is BusFault(addr), nothing written (R55). -/
def memWrite1 (s : State) (a : Word) (v : Byte) : Option State :=
  (busWrite1 s.par s.ram a v).map (fun m => { s with ram := m })

/-- MemWrite(addr, 4, v); none is BusFault(addr), nothing written (R56). -/
def memWrite4 (s : State) (a : Word) (v : Word) : Option State :=
  (busWrite4 s.par s.ram a v).map (fun m => { s with ram := m })

/-! ### Exceptions (60_exceptions.md) -/

/-- raise BusFault(info) (R205): pend[5] <- 1; FAULTINFO <- info; nothing else. -/
def raiseBusFault (info : Word) (s : State) : State :=
  { s with irq := { s.irq with pend := setBit s.irq.pend excBusFault, faultinfo := info } }

/-- raise UsageFault(info) (R205): pend[6] <- 1; FAULTINFO <- info; nothing else. -/
def raiseUsageFault (info : Word) (s : State) : State :=
  { s with irq := { s.irq with pend := setBit s.irq.pend excUsageFault, faultinfo := info } }

/-- The first micro-step of the engine a vector word selects (R192, R200). -/
def engineEntry (p : Params) (v : Word) : Hpc :=
  if v = p.addrUart0 then .hs0 else if v = p.addrDefault then .dh0 else .ch0

/-- TAKING exception n, dispatch(n) (R200, R210): ACTIVE <- n, pend[n] <- 0 unless n is the UART line, hpc <- the first
micro-step of the engine VT[n] selects. Nothing is saved and no mode, mask or pc changes (R201). -/
def takeException (n : Nat) (s : State) : Answer :=
  match vectorFetch s.par s.seed s.ram n with
  | none => .fault .vectorUnreadable
  | some v =>
    .next
      { s with
        irq :=
          { s.irq with
            active := BitVec.ofNat 6 n
            pend := if n = excUart0 then s.irq.pend else clearBit s.irq.pend n
            hpc := engineEntry s.par v } }

/-- RETURN from a handler (R202): ACTIVE <- 0; nothing is restored. -/
def returnFromHandler (s : State) : State := { s with irq := { s.irq with active := 0 } }

/-! ### Queue primitives (40_fifo.md) -/

/-- fifo_write(q, b) (R92). -/
def fifoWrite (q : Queue) (b : Byte) : Status × Queue :=
  if q.isFull then (.full, q)
  else (.ok, { q with buf := q.buf.set q.wr b, wr := (q.wr + 1) % q.cap, cnt := q.cnt + 1 })

/-- fifo_read(q) (R93); none is EMPTY, the queue unchanged. A read cursor outside the storage, which no run reaches
(R19), finds 0 (log entry 12). -/
def fifoRead (q : Queue) : Option (Byte × Queue) :=
  if q.isEmpty then none
  else some (q.buf.getD q.rd 0, { q with rd := (q.rd + 1) % q.cap, cnt := q.cnt - 1 })

/-! ### UART registers -/

/-- EVENTS.k as a Bool. -/
def State.event (s : State) (k : Nat) : Bool := s.uart.events.getLsbD k

/-- EVENTS.k <- 1. -/
def setEvent (k : Nat) (s : State) : State := { s with uart := { s.uart with events := setBit s.uart.events k } }

/-- EVENTS.k <- 0. -/
def clearEvent (k : Nat) (s : State) : State := { s with uart := { s.uart with events := clearBit s.uart.events k } }

/-- irqen[n] <- b. -/
def setIrqen (n : Nat) (b : Bool) (s : State) : State :=
  { s with irq := { s.irq with irqen := writeBit s.irq.irqen n b } }

/-- txd_write(b) (44_uart_handler.md R162): TXD <- b, b appended to tx_log; the ghost counter of R181 counts it. -/
def txdWrite (b : Byte) (s : State) : State :=
  { s with
    uart := { s.uart with txd := b }
    logs := { s.logs with tx := s.logs.tx ++ [b], txOwed := s.logs.txOwed + 1 } }

/-- The state after rxd_read() (R163), which returns s.uart.rxd: rxd_valid <- 0. -/
def rxdRead (s : State) : State := { s with uart := { s.uart with rxdValid := false } }

/-- RUN.k <- b with its task recorded in task_log (10_state.md R31, R41). -/
def issueTask (k : Nat) (b : Bool) (t : Task) (s : State) : State :=
  { s with
    uart := { s.uart with run := writeBit s.uart.run k b }
    logs := { s.logs with task := s.logs.task ++ [t] } }

/-- INTEN.TXDRDY <- b. -/
def setTxInterrupt (b : Bool) (s : State) : State :=
  { s with uart := { s.uart with inten := writeBit s.uart.inten bitTxdrdy b } }

/-! ### The bounded wait (42_uart_config_unbuffered.md R124) -/

/-- What one poll of a ready flag finds. -/
inductive Poll where
  | ready
  | expired
  | wait
deriving DecidableEq, Repr

/-- poll(flag) (R124). -/
def poll (k : Nat) (s : State) : Poll :=
  if s.event k then .ready else if s.fg.w = 0 then .expired else .wait

/-- fg.w <- fg.w - 1, the retry a WAIT consumes. -/
def consumeRetry (s : State) : State := { s with fg := { s.fg with w := s.fg.w - 1 } }

/-! ### The critical sections (43_uart_buffered.md) -/

/-- kick() (R142). -/
def kick (s : State) : State :=
  let s1 := issueTask bitTxrun true .startTx (setTxInterrupt true s)
  match fifoRead s1.txq with
  | none => { s1 with tstate := .transmitting }
  | some (b0, q) => { txdWrite b0 { s1 with txq := q } with tstate := .transmitting }

/-- crit_tx(b) (R141): mask the UART line, enqueue, kick if Idle, restore the line's enable. -/
def critTx (b : Byte) (s : State) : State :=
  let saved := s.irq.irqen.getLsbD excUart0
  let s1 := setIrqen excUart0 false s
  let s2 := { s1 with txq := (fifoWrite s1.txq b).2 }
  let s3 := if s2.tstate = .idle then kick s2 else s2
  setIrqen excUart0 saved s3

/-- crit_rx() (R148): mask the UART line, dequeue, restore. None where RXQ is empty, which the caller excludes. -/
def critRx (s : State) : Option (Byte × State) :=
  let saved := s.irq.irqen.getLsbD excUart0
  let s1 := setIrqen excUart0 false s
  match fifoRead s1.rxq with
  | none => none
  | some (b, q) => some (b, setIrqen excUart0 saved { s1 with rxq := q })

end Sys2Proof.Machine
end

