-- ==== Sys2Proof/Machine/Buffered.lean ====
section
/-! DEFINITION. The buffered path (43_uart_buffered.md): SEND and RECV. -/

namespace Sys2Proof.Machine

/-- The line feed and carriage return bytes (R145). -/
def lineFeed : Byte := 0x0A#8
def carriageReturn : Byte := 0x0D#8

/-- One admission attempt of SEND for byte b (R143, R144). -/
def admission (b : Byte) (s : State) : State :=
  if s.txq.isFull then
    if s.fg.w = 0 then
      let s1 := setRes (zextNat s.fg.i) s
      complete 8 .timeout { s1 with fg := { s1.fg with cr := false } }
    else consumeRetry s
  else
    let s1 := critTx b s
    if s.fg.cr then { s1 with fg := { s1.fg with cr := false, w := s1.par.tSend } }
    else
      { s1 with
        fg := { s1.fg with i := s1.fg.i + 1, cr := if b = lineFeed then true else s1.fg.cr, w := s1.par.tSend } }

/-- SEND addr, len (R144). -/
def execSend (addr : Word) (len : BitVec 16) (s : State) : Answer :=
  if s.fg.run = false then .next { s with fg := { s.fg with run := true, i := 0, cr := false, w := s.par.tSend } }
  else if s.fg.cr = false ∧ s.fg.i = len.toNat then .next (complete 8 .ok (setRes (zextNat len.toNat) s))
  else if s.fg.cr then .next (admission carriageReturn s)
  else
    match memRead1 s (bufAddr addr s.fg.i) with
    | none => .next (raiseBusFault (bufAddr addr s.fg.i) s)
    | some b => .next (admission b s)

/-- RECV addr, max (R147): the destination is checked before the queue is touched. -/
def execRecv (addr : Word) (max : BitVec 16) (s : State) : Answer :=
  if s.fg.run = false then .next { s with fg := { s.fg with run := true, i := 0 } }
  else if s.fg.i = max.toNat ∨ s.rxq.isEmpty then .next (complete 8 .ok (setRes (zextNat s.fg.i) s))
  else if s.par.inRam (bufAddr addr s.fg.i) = false then .next (raiseBusFault (bufAddr addr s.fg.i) s)
  else
    match critRx s with
    | none => .next (complete 8 .ok (setRes (zextNat s.fg.i) s))
    | some (b, s1) =>
      match memWrite1 s1 (bufAddr addr s.fg.i) b with
      | none => .next (raiseBusFault (bufAddr addr s.fg.i) s)
      | some s2 => .next { s2 with fg := { s2.fg with i := s2.fg.i + 1 } }

end Sys2Proof.Machine
end

