-- ==== Sys2Proof/Machine/Control.lean ====
section
/-! DEFINITION. The control commands (41_control.md): END, IMASK, IUNMASK, INTSET, INTCLR. -/

namespace Sys2Proof.Machine

/-- END (R111): STAT <- OK; mode <- STOPPED; pc is not advanced. -/
def execEnd (s : State) : Answer := .next { s with stat := Status.ok.code, mode := .stopped }

/-- IMASK n (R112). -/
def execImask (n : BitVec 6) (s : State) : Answer :=
  if hasIrqen n.toNat then .next (complete 4 .ok (setIrqen n.toNat false s)) else .next (complete 4 .badcfg s)

/-- IUNMASK n (R113). -/
def execIunmask (n : BitVec 6) (s : State) : Answer :=
  if hasIrqen n.toNat then .next (complete 4 .ok (setIrqen n.toNat true s)) else .next (complete 4 .badcfg s)

/-- INTSET mask (R114). -/
def execIntset (mask : BitVec 4) (s : State) : Answer :=
  .next (complete 4 .ok { s with uart := { s.uart with inten := s.uart.inten ||| mask } })

/-- INTCLR mask (R115). -/
def execIntclr (mask : BitVec 4) (s : State) : Answer :=
  .next (complete 4 .ok { s with uart := { s.uart with inten := s.uart.inten &&& ~~~ mask } })

end Sys2Proof.Machine
end

