-- ==== Sys2Proof/Machine/Fifo.lean ====
section
/-! DEFINITION. The FIFO byte queue commands (40_fifo.md): FCREATE, FWRITE, FREAD, FFULL, FEMPTY, FAVAIL. Each is one
word and one step. -/

namespace Sys2Proof.Machine

/-- FCREATE q, cap (R91). -/
def execFcreate (q : QId) (cap : BitVec 16) (s : State) : Answer :=
  if cap.toNat = 0 ∨ s.par.fifoMax < cap.toNat then .next (complete 4 .badcfg s)
  else if (s.queue q).cap ≠ 0 then .next (complete 4 .busy s)
  else .next (complete 4 .ok (s.setQueue q { s.queue q with cap := cap.toNat, wr := 0, rd := 0, cnt := 0 }))

/-- FWRITE q, byte (R97). -/
def execFwrite (q : QId) (byte : Byte) (s : State) : Answer :=
  let r := fifoWrite (s.queue q) byte
  .next (complete 4 r.1 (s.setQueue q r.2))

/-- FREAD q (R98). -/
def execFread (q : QId) (s : State) : Answer :=
  match fifoRead (s.queue q) with
  | none => .next (complete 4 .empty s)
  | some (b, x) => .next (complete 4 .ok (setRes (zextByte b) (s.setQueue q x)))

/-- FFULL q (R99). -/
def execFfull (q : QId) (s : State) : Answer :=
  .next (complete 4 .ok (setRes (if (s.queue q).isFull then 1 else 0) s))

/-- FEMPTY q (R100). -/
def execFempty (q : QId) (s : State) : Answer :=
  .next (complete 4 .ok (setRes (if (s.queue q).isEmpty then 1 else 0) s))

/-- FAVAIL q (R101). -/
def execFavail (q : QId) (s : State) : Answer := .next (complete 4 .ok (setRes (zextNat (s.queue q).cnt) s))

end Sys2Proof.Machine
end

