-- ==== Sys2Proof/Machine/Unbuffered.lean ====
section
/-! DEFINITION. CONFIGURE and the unbuffered path (42_uart_config_unbuffered.md): PUTC, GETC, PUTS, PUTZ. A multi-step
command's first step (fg.run = 0) arms fg; each later step is one poll. -/

namespace Sys2Proof.Machine

/-- The register writes of an accepted CONFIGURE, in the order of R121's six steps. -/
def configureUart (rx tx rts cts : Byte) (baud : Word) (parity flow : Bool) (s : State) : State :=
  let p := s.par
  let u := s.uart
  let u := { u with pselrxd := psel p rx, pseltxd := psel p tx, pselrts := psel p rts, pselcts := psel p cts }
  let u := { u with config := clearBit u.config bitHwfc }
  let u := if flow then { u with pselrts := psel p rts, pselcts := psel p cts, config := setBit u.config bitHwfc } else u
  let u := { u with config := writeBit u.config bitParity parity }
  let u := { u with baudrate := baud }
  let u := { u with events := setBit u.events bitTxdrdy }
  let u := { u with events := clearBit u.events bitRxdrdy, rxdValid := false }
  let s := issueTask bitTxrun true .startTx (issueTask bitRxrun true .startRx { s with uart := u })
  { s with uart := { s.uart with enable := setBit s.uart.enable bitEn } }

/-- CONFIGURE rx, tx, rts, cts, sel, parity, flow (R121). -/
def execConfigure (rx tx rts cts sel : Byte) (parity flow : Bool) (s : State) : Answer :=
  if s.tstate = .transmitting then .next (complete 8 .busy s)
  else
    match baudOf s.par sel with
    | none => .next (complete 8 .badcfg s)
    | some baud =>
      if pinOk s.par rx && pinOk s.par tx && pinOk s.par rts && pinOk s.par cts then
        .next (complete 8 .ok (configureUart rx tx rts cts baud parity flow s))
      else .next (complete 8 .badcfg s)

/-- The arming step of PUTC and GETC: fg.run <- 1; fg.w <- T_BLOCK (R125, R126). -/
def armWait (s : State) : State := { s with fg := { s.fg with run := true, w := s.par.tBlock } }

/-- The arming step of PUTS and PUTZ: fg.run <- 1; fg.i <- 0; fg.w <- T_BLOCK (R127, R128). -/
def armBuffer (s : State) : State := { s with fg := { s.fg with run := true, i := 0, w := s.par.tBlock } }

/-- PUTC byte (R125). -/
def execPutc (byte : Byte) (s : State) : Answer :=
  if s.fg.run = false then .next (armWait s)
  else
    match poll bitTxdrdy s with
    | .ready => .next (complete 4 .ok (txdWrite byte (clearEvent bitTxdrdy s)))
    | .expired => .next (complete 4 .timeout s)
    | .wait => .next (consumeRetry s)

/-- GETC (R126): the ready flag is cleared, then the data register read. -/
def execGetc (s : State) : Answer :=
  if s.fg.run = false then .next (armWait s)
  else
    match poll bitRxdrdy s with
    | .ready =>
      let s1 := clearEvent bitRxdrdy s
      .next (complete 4 .ok (setRes (zextByte s1.uart.rxd) (rxdRead s1)))
    | .expired => .next (complete 4 .timeout s)
    | .wait => .next (consumeRetry s)

/-- One polled byte of PUTS and PUTZ (R127, R128): sent and the index advanced with a fresh budget, or a short count
at expiry, or a retry. -/
def sendUnbufferedByte (b : Byte) (s : State) : State :=
  match poll bitTxdrdy s with
  | .ready =>
    let s1 := txdWrite b (clearEvent bitTxdrdy s)
    { s1 with fg := { s1.fg with i := s1.fg.i + 1, w := s1.par.tBlock } }
  | .expired => complete 8 .timeout (setRes (zextNat s.fg.i) s)
  | .wait => consumeRetry s

/-- PUTS addr, len (R127). -/
def execPuts (addr : Word) (len : BitVec 16) (s : State) : Answer :=
  if s.fg.run = false then .next (armBuffer s)
  else if s.fg.i = len.toNat then .next (complete 8 .ok (setRes (zextNat len.toNat) s))
  else
    match memRead1 s (bufAddr addr s.fg.i) with
    | none => .next (raiseBusFault (bufAddr addr s.fg.i) s)
    | some b => .next (sendUnbufferedByte b s)

/-- PUTZ addr (R128): the zero byte ends the string and is not sent. -/
def execPutz (addr : Word) (s : State) : Answer :=
  if s.fg.run = false then .next (armBuffer s)
  else
    match memRead1 s (bufAddr addr s.fg.i) with
    | none => .next (raiseBusFault (bufAddr addr s.fg.i) s)
    | some b =>
      if b = 0x00#8 then .next (complete 8 .ok (setRes (zextNat s.fg.i) s))
      else .next (sendUnbufferedByte b s)

end Sys2Proof.Machine
end

