-- ==== Sys2Proof/Machine/Dispatch.lean ====
section
/-! DEFINITION. The meaning of each command, one arm per constructor of Instr: what ONE foreground step of the command
does at a state whose pc is the command's address. -/

namespace Sys2Proof.Machine

def exec (i : Instr) (s : State) : Host.Outcome State Fault Refusal :=
  match i with
  | .endCmd => Sys2Proof.Machine.execEnd s
  | .fcreate q cap => Sys2Proof.Machine.execFcreate q cap s
  | .fwrite q byte => Sys2Proof.Machine.execFwrite q byte s
  | .fread q => Sys2Proof.Machine.execFread q s
  | .ffull q => Sys2Proof.Machine.execFfull q s
  | .fempty q => Sys2Proof.Machine.execFempty q s
  | .favail q => Sys2Proof.Machine.execFavail q s
  | .imask n => Sys2Proof.Machine.execImask n s
  | .iunmask n => Sys2Proof.Machine.execIunmask n s
  | .intset mask => Sys2Proof.Machine.execIntset mask s
  | .intclr mask => Sys2Proof.Machine.execIntclr mask s
  | .configure rx tx rts cts sel parity flow => Sys2Proof.Machine.execConfigure rx tx rts cts sel parity flow s
  | .putc byte => Sys2Proof.Machine.execPutc byte s
  | .getc => Sys2Proof.Machine.execGetc s
  | .puts addr len => Sys2Proof.Machine.execPuts addr len s
  | .putz addr => Sys2Proof.Machine.execPutz addr s
  | .send addr len => Sys2Proof.Machine.execSend addr len s
  | .recv addr max => Sys2Proof.Machine.execRecv addr max s

end Sys2Proof.Machine
end

