-- ==== Sys2Proof/Decode.lean ====
section
/-! DEFINITION. The command encoding (30_encoding.md): the opcode map as a table of rows, decoding of a first word and
of a byte list, the encoder written from the same table, and the host's numbering of an encoded command. -/

namespace Sys2Proof

/-- The opcode of a row of R75. -/
inductive Opcode where
  | endCmd | fcreate | fwrite | fread | ffull | fempty | favail | imask | iunmask | intset | intclr
  | configure | putc | getc | puts | putz | send | recv
deriving DecidableEq, Repr

/-- Format S is one word, format L two (R70, R71). -/
inductive Format where
  | s
  | l
deriving DecidableEq, Repr

/-- A row of the opcode map: a word w selects it when (w and mask) == match (R75). -/
structure OpRow where
  op : Opcode
  format : Format
  bits : Word
  mask : Word
deriving DecidableEq, Repr

/-- The complete map (R75). -/
def opTable : List OpRow :=
  [⟨.endCmd, .s, 0x01000000#32, 0xFFFFFFFF#32⟩,
   ⟨.fcreate, .s, 0x10000000#32, 0xFFFE0000#32⟩,
   ⟨.fwrite, .s, 0x11000000#32, 0xFFFEFF00#32⟩,
   ⟨.fread, .s, 0x12000000#32, 0xFFFEFFFF#32⟩,
   ⟨.ffull, .s, 0x13000000#32, 0xFFFEFFFF#32⟩,
   ⟨.fempty, .s, 0x14000000#32, 0xFFFEFFFF#32⟩,
   ⟨.favail, .s, 0x15000000#32, 0xFFFEFFFF#32⟩,
   ⟨.imask, .s, 0x20000000#32, 0xFFC0FFFF#32⟩,
   ⟨.iunmask, .s, 0x21000000#32, 0xFFC0FFFF#32⟩,
   ⟨.intset, .s, 0x22000000#32, 0xFFFFFFF0#32⟩,
   ⟨.intclr, .s, 0x23000000#32, 0xFFFFFFF0#32⟩,
   ⟨.configure, .l, 0x30000000#32, 0xFF00FFFC#32⟩,
   ⟨.putc, .s, 0x31000000#32, 0xFFFFFF00#32⟩,
   ⟨.getc, .s, 0x32000000#32, 0xFFFFFFFF#32⟩,
   ⟨.puts, .l, 0x33000000#32, 0xFFFF0000#32⟩,
   ⟨.putz, .l, 0x34000000#32, 0xFFFFFFFF#32⟩,
   ⟨.send, .l, 0x35000000#32, 0xFFFF0000#32⟩,
   ⟨.recv, .l, 0x36000000#32, 0xFFFF0000#32⟩]

/-- The row's test on a word (R75). -/
def OpRow.selects (r : OpRow) (w : Word) : Bool := decide (w &&& r.mask = r.bits)

/-- The row a first word selects; none where the word is illegal (R76, R77). -/
def findRow (w : Word) : Option OpRow := opTable.find? (fun r => r.selects w)

/-- q = a[0] (R74). -/
def fieldQ (w : Word) : QId := if w.getLsbD 16 then .rxq else .txq
/-- n = a[5:0]. -/
def fieldN (w : Word) : BitVec 6 := w.extractLsb' 16 6
/-- sel = a[7:0]. -/
def fieldSel (w : Word) : Byte := w.extractLsb' 16 8
/-- cap, len, max = imm[15:0]. -/
def fieldImm (w : Word) : BitVec 16 := w.extractLsb' 0 16
/-- byte = imm[7:0]. -/
def fieldByte (w : Word) : Byte := w.extractLsb' 0 8
/-- mask = imm[3:0]. -/
def fieldMask (w : Word) : BitVec 4 := w.extractLsb' 0 4
/-- Pin k of CONFIGURE's second word: receive, transmit, request-to-send, clear-to-send from the low byte up (R71). -/
def fieldPin (w1 : Word) (k : Nat) : Byte := w1.extractLsb' (8 * k) 8

/-- The command a row and its words stand for (R74, R75); a format S row does not look at w1. -/
def assemble (op : Opcode) (w w1 : Word) : Instr :=
  match op with
  | .endCmd => .endCmd
  | .fcreate => .fcreate (fieldQ w) (fieldImm w)
  | .fwrite => .fwrite (fieldQ w) (fieldByte w)
  | .fread => .fread (fieldQ w)
  | .ffull => .ffull (fieldQ w)
  | .fempty => .fempty (fieldQ w)
  | .favail => .favail (fieldQ w)
  | .imask => .imask (fieldN w)
  | .iunmask => .iunmask (fieldN w)
  | .intset => .intset (fieldMask w)
  | .intclr => .intclr (fieldMask w)
  | .configure =>
    .configure (fieldPin w1 0) (fieldPin w1 1) (fieldPin w1 2) (fieldPin w1 3) (fieldSel w) (w.getLsbD 0) (w.getLsbD 1)
  | .putc => .putc (fieldByte w)
  | .getc => .getc
  | .puts => .puts w1 (fieldImm w)
  | .putz => .putz w1
  | .send => .send w1 (fieldImm w)
  | .recv => .recv w1 (fieldImm w)

/-- Why a byte list is no command. -/
inductive DecodeError where
  /-- Fewer than four bytes: no first word. -/
  | truncated
  /-- The first word matches no row (R76, R77). -/
  | illegal (w : Word)
  /-- The row is of format L and its second word is not there. -/
  | truncatedOperand (w : Word)
deriving DecidableEq, Repr

/-- Decode the command at the head of a byte list, lowest address first, and give the bytes after it. -/
def decode : List Byte → Except DecodeError (Instr × List Byte)
  | b0 :: b1 :: b2 :: b3 :: rest =>
    match findRow (wordOfBytes b0 b1 b2 b3) with
    | none => .error (.illegal (wordOfBytes b0 b1 b2 b3))
    | some r =>
      match r.format with
      | .s => .ok (assemble r.op (wordOfBytes b0 b1 b2 b3) 0, rest)
      | .l =>
        match rest with
        | c0 :: c1 :: c2 :: c3 :: rest' =>
          .ok (assemble r.op (wordOfBytes b0 b1 b2 b3) (wordOfBytes c0 c1 c2 c3), rest')
        | _ => .error (.truncatedOperand (wordOfBytes b0 b1 b2 b3))
  | _ => .error .truncated

/-- A first word from its three fields (R71). -/
def formatS (op a : BitVec 8) (imm : BitVec 16) : Word := op ++ a ++ imm

/-- The operand field a of a queue number (R74). -/
def QId.code : QId → BitVec 8
  | .txq => 0
  | .rxq => 1

/-- The words of a command (R71, R75, R79). -/
def encode : Instr → List Word
  | .endCmd => [formatS 0x01 0 0]
  | .fcreate q cap => [formatS 0x10 q.code cap]
  | .fwrite q byte => [formatS 0x11 q.code (byte.setWidth 16)]
  | .fread q => [formatS 0x12 q.code 0]
  | .ffull q => [formatS 0x13 q.code 0]
  | .fempty q => [formatS 0x14 q.code 0]
  | .favail q => [formatS 0x15 q.code 0]
  | .imask n => [formatS 0x20 (n.setWidth 8) 0]
  | .iunmask n => [formatS 0x21 (n.setWidth 8) 0]
  | .intset mask => [formatS 0x22 0 (mask.setWidth 16)]
  | .intclr mask => [formatS 0x23 0 (mask.setWidth 16)]
  | .configure rx tx rts cts sel parity flow =>
    [formatS 0x30 sel ((BitVec.ofBool flow ++ BitVec.ofBool parity).setWidth 16), cts ++ rts ++ tx ++ rx]
  | .putc byte => [formatS 0x31 0 (byte.setWidth 16)]
  | .getc => [formatS 0x32 0 0]
  | .puts addr len => [formatS 0x33 0 len, addr]
  | .putz addr => [formatS 0x34 0 0, addr]
  | .send addr len => [formatS 0x35 0 len, addr]
  | .recv addr max => [formatS 0x36 0 max, addr]

/-- The bytes of a command as ROM stores them: each word little-endian, the first at the lowest address (R70). -/
def encodeBytes (i : Instr) : List Byte := (encode i).flatMap wordBytes

/-- The length of a command in bytes (R72). -/
def Instr.length (i : Instr) : Nat := 4 * (encode i).length

/-- The eight bytes, lowest address first, of a command whose bits are w with bit 0 the lowest bit of its first word;
bits from nbits up are 0. -/
def tableBytes (nbits w : Nat) : List Byte := (List.range 8).map (fun k => BitVec.ofNat 8 ((w % 2 ^ nbits) / 2 ^ (8 * k)))

/-- The command the decoder reads from a row's bits. -/
def decodeTableWord (nbits w : Nat) : Option Instr :=
  match decode (tableBytes nbits w) with
  | .ok (i, _) => some i
  | .error _ => none

end Sys2Proof
end

