-- ==== Sys2Proof/Machine/Fetch.lean ====
section
/-! DEFINITION. Fetch and decode, the first action of every command step (30_encoding.md R73). -/

namespace Sys2Proof.Machine

/-- What a fetch finds. -/
inductive Fetched where
  | command (i : Instr)
  | busFault (addr : Word)
  | usageFault (w : Word)
deriving DecidableEq, Repr

/-- The second word of a format L command, at (pc + 4) mod 2^32, which must lie in ROM (R73). -/
def fetchSecond (s : State) (r : OpRow) (w : Word) : Fetched :=
  if s.par.inRom (s.pc + 4) = false then .busFault (s.pc + 4)
  else
    match memRead4 s (s.pc + 4) with
    | none => .busFault (s.pc + 4)
    | some w1 => .command (assemble r.op w w1)

/-- Fetch and decode at pc (R73), in the order of checks of 60_exceptions.md R208. -/
def fetch (s : State) : Fetched :=
  if aligned4 s.pc = false ∨ s.par.inRom s.pc = false then .busFault s.pc
  else
    match memRead4 s s.pc with
    | none => .busFault s.pc
    | some w =>
      match findRow w with
      | none => .usageFault w
      | some r =>
        match r.format with
        | .s => .command (assemble r.op w 0)
        | .l => fetchSecond s r w

end Sys2Proof.Machine
end

