-- ==== Sys2Proof/Machine/Handler.lean ====
section
/-! DEFINITION. The handler engines of agent IRQ: the UART interrupt handler's micro-steps HS0 to HS5
(44_uart_handler.md R164 to R170), the default handler DH0, DH1 (60_exceptions.md R203) and the custom stub CH0
(R204). -/

namespace Sys2Proof.Machine

/-- hpc <- h. -/
def setHpc (h : Hpc) (s : State) : State := { s with irq := { s.irq with hpc := h } }

/-- HS0 (R165): snap <- EVENTS. -/
def stepHs0 (s : State) : State := setHpc .hs1 { s with irq := { s.irq with snap := s.uart.events } }

/-- HS1, the transmit-ready branch (R166). -/
def stepHs1 (s : State) : State :=
  if s.irq.snap.getLsbD bitTxdrdy then
    let s1 :=
      match fifoRead s.txq with
      | some (b, q) => txdWrite b { s with txq := q }
      | none => setTxInterrupt false { issueTask bitTxrun false .stopTx s with tstate := .idle }
    setHpc .hs2 (clearEvent bitTxdrdy s1)
  else setHpc .hs2 s

/-- HS2, the receive-ready branch (R167): the flag is cleared before RXD is read; a full RXQ leaves both. -/
def stepHs2 (s : State) : State :=
  if s.irq.snap.getLsbD bitRxdrdy && !s.rxq.isFull then
    let s1 := rxdRead (clearEvent bitRxdrdy s)
    let b := s1.uart.rxd
    let s2 := if s.par.echo then txdWrite b s1 else s1
    setHpc .hs3 { s2 with rxq := (fifoWrite s2.rxq b).2 }
  else setHpc .hs3 s

/-- HS3, the receive-timeout branch (R168). -/
def stepHs3 (s : State) : State :=
  setHpc .hs4 (if s.irq.snap.getLsbD bitRxto then clearEvent bitRxto s else s)

/-- HS4, the error branch (R169). -/
def stepHs4 (s : State) : State :=
  setHpc .hs5 (if s.irq.snap.getLsbD bitError then clearEvent bitError s else s)

/-- HS5, return (R170). -/
def stepHs5 (s : State) : State := returnFromHandler s

/-- DH0 (R203): latch the three indicators. -/
def stepDh0 (s : State) : State :=
  setHpc .dh1
    { s with
      irq :=
        { s.irq with
          diagActive := (icsr s).extractLsb' 0 6
          diagPending := (icsr s).extractLsb' 12 6
          diagIcsr := icsr s } }

/-- DH1 (R203): halt for ever. -/
def stepDh1 (s : State) : State := { s with irq := { s.irq with halted := true } }

/-- CH0, the custom stub (R204). -/
def stepCh0 (s : State) : State := returnFromHandler s

/-- The handler micro-step hpc names (R239). -/
def handlerStep (s : State) : State :=
  match s.irq.hpc with
  | .hs0 => stepHs0 s
  | .hs1 => stepHs1 s
  | .hs2 => stepHs2 s
  | .hs3 => stepHs3 s
  | .hs4 => stepHs4 s
  | .hs5 => stepHs5 s
  | .dh0 => stepDh0 s
  | .dh1 => stepDh1 s
  | .ch0 => stepCh0 s

end Sys2Proof.Machine
end

