-- ==== Sys2Proof/Machine/Initializer.lean ====
section
/-! DEFINITION. The Memory Image Initializer (70_reset_and_hazards.md R233 to R235): the foreground's steps in modes
COPY and ZERO. -/

namespace Sys2Proof.Machine

/-- One COPY step (R233): the read is checked before the write. -/
def copyStep (s : State) : State :=
  if s.fg.src.toNat < s.par.dataSrcEnd.toNat then
    match memRead4 s s.fg.src with
    | none => raiseBusFault s.fg.src s
    | some v =>
      match memWrite4 s s.fg.dst v with
      | none => raiseBusFault s.fg.dst s
      | some s1 => { s1 with fg := { s1.fg with src := s1.fg.src + 4, dst := s1.fg.dst + 4 } }
  else { s with mode := .zero, fg := { s.fg with dst := s.par.zeroStart } }

/-- One ZERO step (R234); the last one transfers control to APP_ENTRY (R235). -/
def zeroStep (s : State) : State :=
  if s.fg.dst.toNat < s.par.zeroEnd.toNat then
    match memWrite4 s s.fg.dst 0x00000000#32 with
    | none => raiseBusFault s.fg.dst s
    | some s1 => { s1 with fg := { s1.fg with dst := s1.fg.dst + 4 } }
  else { s with pc := s.par.appEntry, mode := .run }

end Sys2Proof.Machine
end

