-- ==== Sys2Proof/Machine/Line.lean ====
section
/-! DEFINITION. The environment agents: LINE, the serial-line side of the UART registers (44_uart_handler.md R175 to
R180), and EXT, every other interrupt line (60_exceptions.md R197). -/

namespace Sys2Proof.Machine

/-- The guard of a LINE step (R176 to R180). -/
def lineEnabled (e : LineStep) (s : State) : Bool :=
  match e with
  | .txReady => true
  | .rxArrive _ => !s.uart.rxdValid
  | .rxOverrun _ _ => s.uart.rxdValid
  | .rxTimeout => true
  | .lineError _ => true

/-- The ERRORSRC bit of an error kind (10_state.md R24). -/
def LineErrorKind.bit : LineErrorKind → Nat
  | .parity => bitParityErr
  | .framing => bitFraming

/-- ERRORSRC.k <- 1. -/
def setErrorSource (k : Nat) (s : State) : State :=
  { s with uart := { s.uart with errorsrc := setBit s.uart.errorsrc k } }

/-- The effect of a LINE step. The ghost counter goes down at tx_ready and stays at 0 where nothing was owed (R181). -/
def lineEffect (e : LineStep) (s : State) : State :=
  match e with
  | .txReady =>
    let s1 := setEvent bitTxdrdy s
    { s1 with logs := { s1.logs with txOwed := s1.logs.txOwed - 1 } }
  | .rxArrive b => setEvent bitRxdrdy { s with uart := { s.uart with rxd := b, rxdValid := true } }
  | .rxOverrun b replace =>
    let s1 := setErrorSource bitOverrun (setEvent bitError s)
    if replace then { s1 with uart := { s1.uart with rxd := b } } else s1
  | .rxTimeout => setEvent bitRxto s
  | .lineError k => setErrorSource k.bit (setEvent bitError s)

/-- A LINE step; refused where its guard does not hold. -/
def lineStep (e : LineStep) (s : State) : Answer :=
  if lineEnabled e s then .next (lineEffect e s) else .refused (.stepNotEnabled (.line e))

/-- request(n) (R197): pend[n] <- 1, for n in EXT_LINES. -/
def extRequest (n : Nat) (s : State) : Answer :=
  if s.par.extLines.contains n then .next { s with irq := { s.irq with pend := setBit s.irq.pend n } }
  else .refused (.stepNotEnabled (.ext n))

end Sys2Proof.Machine
end

