-- ==== Sys2Proof/Machine/Agents.lean ====
section
/-! DEFINITION. The steps of the four agents and when each is enabled (70_reset_and_hazards.md R239, R247), the choice
the machine makes when no schedule is given (SCHED_EAGER, log entry 6), and the placing of a command where the next
step fetches it. -/

namespace Sys2Proof.Machine

/-- A command step (R73): fetch, then the command's meaning, or the exception the fetch raises. -/
def commandStep (s : State) : Answer :=
  match fetch s with
  | .command i => exec i s
  | .busFault a => .next (raiseBusFault a s)
  | .usageFault w => .next (raiseUsageFault w s)

/-- The step of FG (R239): an initializer step or a command step. -/
def fgStep (s : State) : Answer :=
  if fgEnabled s then
    match s.mode with
    | .copy => .next (copyStep s)
    | .zero => .next (zeroStep s)
    | .run => commandStep s
    | .stopped => .refused (.stepNotEnabled .fg)
  else .refused (.stepNotEnabled .fg)

/-- The step of IRQ (R239): a handler micro-step while a handler is active, else the dispatch of the lowest-numbered
exception requested and enabled (R199: at most one is dispatchable). -/
def irqStep (s : State) : Answer :=
  if s.irq.halted then .refused (.stepNotEnabled .irq)
  else if s.irq.active ≠ 0 then .next (handlerStep s)
  else
    match lowestPending s with
    | none => .refused (.stepNotEnabled .irq)
    | some n => takeException n s

/-- The step of a named agent; refused where R239 does not enable it. -/
def perform (m : Move) (s : State) : Answer :=
  match m with
  | .fg => fgStep s
  | .irq => irqStep s
  | .line e => lineStep e s
  | .ext n => extRequest n s

/-- The step a machine with no schedule takes: SCHED_EAGER (R247), and idling in a quiescent state (R249, log
entry 7). -/
def eagerStep (s : State) : Answer :=
  if irqEnabled s then irqStep s
  else if fgEnabled s then fgStep s
  else .next s

/-- One step of the block: the schedule's next agent, or the machine's own choice where the schedule is empty. -/
def nextStep (s : State) : Answer :=
  match s.sched with
  | [] => eagerStep s
  | m :: rest => perform m { s with sched := rest }

/-! ### Placing a command -/

/-- Eight bytes at `a` lie in ROM and `a` is aligned: a command of either format can stand there. -/
def canHoldCommand (p : Params) (a : Word) : Bool :=
  aligned4 a && decide (p.romBase.toNat ≤ a.toNat) && decide (a.toNat + 8 ≤ p.romEnd.toNat)

/-- Where a command is placed: at pc where the sequencer already runs commands from a usable address, else at
APP_ENTRY, to which the initializer transfers (R235). -/
def placementPc (s : State) : Word :=
  if s.mode = .run && canHoldCommand s.par s.pc then s.pc else s.par.appEntry

/-- pend with every system exception's bit cleared. -/
def clearSystemPending (v : BitVec 47) : BitVec 47 := systemExceptions.foldl clearBit v

/-- `s` with `bytes` in ROM_IMAGE where the next step fetches, in mode RUN with no command in progress, no handler
active and no system exception pending. FG is put at the head of the schedule where the machine's own choice would not
be FG (log entry 10). -/
def placeCommand (s : State) (bytes : List Byte) : State :=
  let a := placementPc s
  let s1 :=
    { s with
      par := { s.par with rom := romStore s.par.rom a.toNat bytes }
      pc := a
      mode := .run
      fg := { s.fg with run := false }
      irq := { s.irq with active := 0, halted := false, pend := clearSystemPending s.irq.pend } }
  if s1.sched.isEmpty && (lowestPending s1).isNone then s1 else { s1 with sched := .fg :: s1.sched }

end Sys2Proof.Machine
end

