-- ==== Sys2Proof/Machine/Step.lean ====
section
/-! DEFINITION. The step of the machine, and a command placed where the step fetches it. -/

namespace Sys2Proof.Machine

/-- One atomic step of the block (70_reset_and_hazards.md R247). -/
def step (s : State) : Host.Outcome State Fault Refusal := nextStep s

/-- `s` with the command whose bits are w (numbered as spec/opcode_table.json numbers them) placed where `step` fetches
its next command (log entry 10). -/
def State.withFetchWord (s : State) (nbits w : Nat) : State := placeCommand s (tableBytes nbits w)

end Sys2Proof.Machine
end

