-- ==== Sys2Proof/Safety.lean ====
section
/-! DEFINITION. What holds of every state a run reaches, in the terms claims use: the queue invariants, the legality
of each piece of state, the one invariant Inv made of them, runs of the block, and the premises a claim may name about
the schedule and the line (44_uart_handler.md R181, 70_reset_and_hazards.md R247, R248). -/

namespace Sys2Proof.Machine

/-! ### Queues -/

/-- The queue invariants (10_state.md R18, R19) for storage of `fifoMax` bytes. -/
abbrev Queue.wf (fifoMax : Nat) (q : Queue) : Prop :=
  q.cnt ≤ q.cap ∧ q.cap ≤ fifoMax ∧ q.buf.length = fifoMax ∧
  (1 ≤ q.cap → q.wr < q.cap ∧ q.rd < q.cap ∧ (q.rd + q.cnt) % q.cap = q.wr) ∧
  (q.cap = 0 → q.wr = 0 ∧ q.rd = 0)

/-- The bytes a queue holds, oldest first (R19). -/
def Queue.contents (q : Queue) : List Byte := (List.range q.cnt).map (fun k => q.buf.getD ((q.rd + k) % q.cap) 0)

/-- Write bytes one after another; full writes change nothing (40_fifo.md R92). -/
def Queue.writeAll (q : Queue) : List Byte → Queue
  | [] => q
  | b :: bs => Queue.writeAll (fifoWrite q b).2 bs

/-- Read k bytes one after another; none where a read finds the queue empty (R93). -/
def Queue.readAll (q : Queue) : Nat → Option (List Byte × Queue)
  | 0 => some ([], q)
  | k + 1 =>
    match fifoRead q with
    | none => none
    | some (b, q1) =>
      match Queue.readAll q1 k with
      | none => none
      | some (bs, q2) => some (b :: bs, q2)

/-! ### Memory -/

/-- RAM is in canonical form and lists addresses of RAM only. -/
abbrev State.ramWf (s : State) : Prop :=
  Memory.wf none s.ram ∧ ∀ c ∈ s.ram, s.par.ramBase.toNat ≤ c.1 ∧ c.1 < s.par.ramEnd.toNat

/-! ### Dispatcher -/

/-- The micro-steps of the UART handler (R164). -/
def Hpc.isUart : Hpc → Bool
  | .hs0 | .hs1 | .hs2 | .hs3 | .hs4 | .hs5 => true
  | .dh0 | .dh1 | .ch0 => false

/-- The micro-steps of the default handler (R203). -/
def Hpc.isDefault : Hpc → Bool
  | .dh0 | .dh1 => true
  | .hs0 | .hs1 | .hs2 | .hs3 | .hs4 | .hs5 | .ch0 => false

/-- hpc belongs to the engine that slot n is bound to (R191, R200). -/
def engineMatches (p : Params) (n : Nat) (h : Hpc) : Bool :=
  match p.binding n with
  | .uart0 => h.isUart
  | .defaultHandler => h.isDefault
  | .custom _ => decide (h = .ch0)
  | .reserved => false

/-! ### UART configuration -/

/-- A pin selection register holds a pin number or NOPIN (10_state.md R27). -/
abbrev pselLegal (p : Params) (v : Word) : Prop := v.toNat < p.npins ∨ v = Config.noPin

/-! ### Commands in progress -/

/-- The commands that take more than one step (10_state.md R16). -/
def multiStep : Instr → Bool
  | .putc _ | .getc | .puts _ _ | .putz _ | .send _ _ | .recv _ _ => true
  | .endCmd | .fcreate _ _ | .fwrite _ _ | .fread _ | .ffull _ | .fempty _ | .favail _ | .imask _ | .iunmask _
  | .intset _ | .intclr _ | .configure _ _ _ _ _ _ _ => false

/-- The command a fetch finds is one that takes more than one step. -/
def fetchesMultiStep (s : State) : Bool :=
  match fetch s with
  | .command i => multiStep i
  | .busFault _ => false
  | .usageFault _ => false

/-- k steps of one agent, stopping at the first that is no next state. -/
def iterate (f : State → Answer) : Nat → State → Answer
  | 0, s => .next s
  | k + 1, s =>
    match f s with
    | .next t => iterate f k t
    | .fault r => .fault r
    | .refused r => .refused r

/-- What is left of a SEND of `len` bytes: admissions still owed, each with its budget, and the budget left of the one
in hand (43_uart_buffered.md R143). -/
def sendMeasure (len : BitVec 16) (s : State) : Nat :=
  (2 * (len.toNat - s.fg.i) + (if s.fg.cr then 1 else 0)) * (s.par.tSend + 1) + s.fg.w

/-! ### The invariant -/

/-- What every step keeps, in every state, with or without a schedule. -/
structure Inv (s : State) : Prop where
  /-- The parameter set is well-formed (00_scope.md R6). -/
  parWf : s.par.wf = true
  /-- R51: RAM is canonical. -/
  ramWf : s.ramWf
  /-- R19. -/
  txqWf : s.txq.wf s.par.fifoMax
  rxqWf : s.rxq.wf s.par.fifoMax
  /-- R182. -/
  rxdValid : s.uart.rxdValid = s.event bitRxdrdy
  /-- R33, R34: a slot without a pend or an enable bit has none set. -/
  pendLegal : ∀ n < slotCount, s.irq.pend.getLsbD n = true → hasPend n = true
  irqenLegal : ∀ n < slotCount, s.irq.irqen.getLsbD n = true → hasIrqen n = true
  /-- R194: a reserved slot is never entered. -/
  activeLegal : s.irq.active = 0 ∨ hasPend s.irq.active.toNat = true ∨ s.irq.active.toNat = excUart0
  /-- R200: the engine that runs is the one the slot is bound to. -/
  engine : s.irq.active ≠ 0 → engineMatches s.par s.irq.active.toNat s.irq.hpc = true
  /-- R203: halted only in the default handler. -/
  haltedLegal : s.irq.halted = true → s.irq.active ≠ 0 ∧ s.irq.hpc = .dh1
  /-- R13: the codes 6 to 15 are never written. -/
  statLegal : s.stat.toNat ≤ 5
  /-- R14: SP holds slot 0's word. -/
  spStack : s.sp = s.par.stackTop
  /-- R11: pc holds VT[1] in the initializer and is a multiple of 4 afterwards. -/
  pcBoot : s.mode = .copy ∨ s.mode = .zero → s.pc = s.par.addrReset
  pcAligned : s.mode = .run ∨ s.mode = .stopped → aligned4 s.pc = true
  /-- R16: a command is in progress only in mode RUN and only where pc holds a command of several steps, and the budget
  left is at most the larger budget. -/
  runMode : s.fg.run = true → s.mode = .run ∧ fetchesMultiStep s = true
  budget : s.fg.w ≤ max s.par.tBlock s.par.tSend
  /-- R233: the COPY cursors move together through their regions. -/
  copyCursors : s.mode = .copy →
    aligned4 s.fg.src = true ∧ s.par.dataSrcStart.toNat ≤ s.fg.src.toNat ∧ s.fg.src.toNat ≤ s.par.dataSrcEnd.toNat ∧
    s.fg.dst.toNat = s.par.dataDstStart.toNat + (s.fg.src.toNat - s.par.dataSrcStart.toNat)
  /-- R234: the ZERO cursor stays in its region. -/
  zeroCursor : s.mode = .zero →
    aligned4 s.fg.dst = true ∧ s.par.zeroStart.toNat ≤ s.fg.dst.toNat ∧ s.fg.dst.toNat ≤ s.par.zeroEnd.toNat
  /-- R142, R166: Transmitting means the transmitter was started and TXQ was created. -/
  transmitting : s.tstate = .transmitting → s.uart.run.getLsbD bitTxrun = true ∧ 1 ≤ s.txq.cap
  /-- R30, R31: EN and RXRUN are set together and never cleared. -/
  enableRun : s.uart.enable.getLsbD bitEn = s.uart.run.getLsbD bitRxrun
  /-- R27, R28: once enabled, the selections and the rate are legal. -/
  configured : s.uart.enable.getLsbD bitEn = true →
    pselLegal s.par s.uart.pselrxd ∧ pselLegal s.par s.uart.pseltxd ∧ pselLegal s.par s.uart.pselrts ∧
    pselLegal s.par s.uart.pselcts ∧ s.uart.baudrate ∈ s.par.baudTable.map Prod.snd
  /-- R162: TXD holds the last byte of tx_log. -/
  txdLast : s.logs.tx = [] ∨ s.logs.tx.getLast? = some s.uart.txd

/-! ### Runs -/

/-- The states of the block's runs (70_reset_and_hazards.md R247): from a reset of a well-formed parameter set, by
enabled steps of any agent in any order (SCHED_FREE). -/
inductive Reachable : State → Prop where
  | boot (p : Params) (u : PowerOn) (h : p.wf = true) : Reachable (State.resetWith p u)
  | step (s t : State) (m : Move) (hs : Reachable s) (h : perform m s = .next t) : Reachable t

/-- The named steps one after another, stopping at the first that is no next state: a run up to a step bound (R249). -/
def performAll : List Move → State → Answer
  | [], s => .next s
  | m :: ms, s =>
    match perform m s with
    | .next t => performAll ms t
    | .fault r => .fault r
    | .refused r => .refused r

/-- The state after the first k of the named steps. -/
def stateAfter : List Move → State → Nat → State
  | [], s, _ => s
  | _ :: _, s, 0 => s
  | m :: ms, s, k + 1 =>
    match perform m s with
    | .next t => stateAfter ms t k
    | .fault _ | .refused _ => s

/-- A finite run and its end state: from reset the named steps lead to a quiescent state, after which LINE and EXT take no
further step (R249). -/
structure IsFiniteRun (moves : List Move) (final : State) : Prop where
  run : ∃ p u, p.wf = true ∧ performAll moves (State.resetWith p u) = .next final
  quiescent : quiescent final = true

/-- A whole run, finite or infinite, and the steps it takes (R247 to R249). `none` says that the run has ended: only in
a quiescent state, since R248 a and b give IRQ or FG a step in every other, and for ever. In a quiescent state LINE and
EXT may go on or stop (R248 c). -/
structure IsRun (states : Nat → State) (moves : Nat → Option Move) : Prop where
  start : ∃ p u, p.wf = true ∧ states 0 = State.resetWith p u
  steps : ∀ k m, moves k = some m → perform m (states k) = .next (states (k + 1))
  ended : ∀ k, moves k = none →
    quiescent (states k) = true ∧ states (k + 1) = states k ∧ moves (k + 1) = none

/-- A premise on single steps (schedEager, lineWbRx, lineWbTx) holds of every step of a run. -/
def everyStep (premise : Move → State → Prop) (states : Nat → State) (moves : Nat → Option Move) : Prop :=
  ∀ k m, moves k = some m → premise m (states k)

/-- SCHED_EAGER (R247): FG steps only when no exception is dispatchable. -/
def schedEager (m : Move) (s : State) : Prop := m = .fg → ∀ n, dispatchable s n = false

/-- IRQ is weakly fair (R248 a). -/
def irqFair (states : Nat → State) (moves : Nat → Option Move) : Prop :=
  ∀ k, ∃ j, k ≤ j ∧ (irqEnabled (states j) = false ∨ moves j = some .irq)

/-- FG is weakly fair among states in which nothing is dispatchable (R248 b). -/
def fgFair (states : Nat → State) (moves : Nat → Option Move) : Prop :=
  ∀ k, ∃ j, k ≤ j ∧
    (fgEnabled (states j) = false ∨ (∃ n, dispatchable (states j) n = true) ∨ moves j = some .fg)

/-- LINE_WB_RX (R181). -/
def lineWbRx (m : Move) (s : State) : Prop :=
  ∀ e, m = .line e → e ≠ .txReady → s.uart.enable.getLsbD bitEn = true ∧ s.uart.run.getLsbD bitRxrun = true

/-- LINE_WB_TX (R181): tx_ready only while transmitting is on, and once for each byte written. -/
def lineWbTx (m : Move) (s : State) : Prop :=
  m = .line .txReady →
    s.uart.enable.getLsbD bitEn = true ∧ s.uart.run.getLsbD bitTxrun = true ∧ 0 < s.logs.txOwed

/-- LINE_FAIR_TX (R181): a written byte is answered in the end. The one premise that asks a step of the environment: a
run that ends with such a byte owed does not meet it. -/
def lineFairTx (states : Nat → State) (moves : Nat → Option Move) : Prop :=
  ∀ k, ∃ j, k ≤ j ∧
    (¬ ((states j).uart.enable.getLsbD bitEn = true ∧ (states j).uart.run.getLsbD bitTxrun = true ∧
        0 < (states j).logs.txOwed) ∨ moves j = some (.line .txReady))

end Sys2Proof.Machine
end

