-- ==== Sys2Proof/Certificates/Slice0/Obligations.lean ====
section
/-! DEFINITION. The statements for the provers. A result statement gives the WHOLE next state as the old one with the
fields the rule writes, so it is the command's completion and its frame at once; the frame statements say it again for a
whole family, with every byte of memory. Log and counter fields (logs) are the observation history of 10_state.md R41. -/

open Sys2Proof Sys2Proof.Machine

/-! ### Encoding and fetch -/

/-- Decoding an encoded command gives the command back, with every operand at every value its field holds
(30_encoding.md R71, R72, R74, R75). -/
def Obligations.DecodeOfEncodeIsTheCommand : Prop :=
  ∀ (i : Instr) (rest : List Byte), decode (encodeBytes i ++ rest) = .ok (i, rest)

/-- Every byte list that decodes is the encoding of what it decodes to: no word outside the map is accepted
(R75 to R77). -/
def Obligations.DecodedBytesAreTheEncoding : Prop :=
  ∀ (bytes rest : List Byte) (i : Instr), decode bytes = .ok (i, rest) → bytes = encodeBytes i ++ rest

/-- Words of 95_test_vectors.md section 2, as ROM stores them (R57): seven commands decode as that section lists, and
three words with a must-be-zero bit set (R76) and the zero word (R77) are rejected. -/
def Obligations.ListedWordsDecodeAsListed : Prop :=
  decode [0x00#8, 0x00#8, 0x00#8, 0x01#8] = .ok (.endCmd, []) ∧
  decode [0x04#8, 0x00#8, 0x01#8, 0x10#8] = .ok (.fcreate .rxq 4#16, []) ∧
  decode [0x41#8, 0x00#8, 0x00#8, 0x11#8] = .ok (.fwrite .txq 0x41#8, []) ∧
  decode [0x00#8, 0x00#8, 0x12#8, 0x20#8] = .ok (.imask 18#6, []) ∧
  decode [0x0E#8, 0x00#8, 0x00#8, 0x22#8] = .ok (.intset 0b1110#4, []) ∧
  decode [0x03#8, 0x00#8, 0x0A#8, 0x30#8, 0x0B#8, 0x09#8, 0x08#8, 0x0A#8] =
    .ok (.configure 11#8 9#8 8#8 10#8 10#8 true true, []) ∧
  decode [0x02#8, 0x00#8, 0x00#8, 0x35#8, 0x00#8, 0x00#8, 0x00#8, 0x20#8] = .ok (.send 0x20000000#32 2#16, []) ∧
  decode [0x41#8, 0x01#8, 0x00#8, 0x11#8] = .error (.illegal 0x11000141#32) ∧
  decode [0x00#8, 0x00#8, 0x40#8, 0x20#8] = .error (.illegal 0x20400000#32) ∧
  decode [0x10#8, 0x00#8, 0x00#8, 0x22#8] = .error (.illegal 0x22000010#32) ∧
  decode [0x00#8, 0x00#8, 0x00#8, 0x00#8] = .error (.illegal 0x00000000#32)

/-- At most one row of the opcode map matches a word (R73). -/
def Obligations.AtMostOneRowMatches : Prop :=
  ∀ (w : Word) (a b : OpRow), a ∈ opTable → b ∈ opTable → w &&& a.mask = a.bits → w &&& b.mask = b.bits → a = b

/-- A command whose bytes stand in ROM at an aligned pc is what the fetch finds (R70, R73, 20_memory.md R57). -/
def Obligations.FetchFindsTheCommandInRom : Prop :=
  ∀ (i : Instr) (s : State),
    s.pc.toNat % 4 = 0 →
    (∀ k < i.length, s.par.inRom (s.pc + BitVec.ofNat 32 k) = true ∧
      (encodeBytes i)[k]? = some (romByte s.par (s.pc + BitVec.ofNat 32 k))) →
    fetch s = .command i

/-- Where FG may step in mode RUN and the fetch finds command i, the step of the machine is exec i: at once where the
schedule names FG (R239, R247), and where there is no schedule and nothing is dispatchable. That the order of the
agents stands in a schedule, and that a machine without one chooses as SCHED_EAGER does, is the model's choice (log
entry 6). -/
def Obligations.StepRunsTheFetchedCommand : Prop :=
  ∀ (i : Instr) (s : State), s.mode = .run → fetch s = .command i →
    (∀ rest, s.sched = .fg :: rest → fgEnabled s = true → step s = exec i { s with sched := rest }) ∧
    (s.sched = [] → fgEnabled s = true → lowestPending s = none → step s = exec i s)

/-- Fetch and decode (30_encoding.md R73): the checks in their order, the fault each raises with nothing else changed
(60_exceptions.md R205), and the command that runs otherwise. -/
def Obligations.FetchAndDecodeAsRule : Prop :=
  ∀ s : State,
    (s.pc.toNat % 4 ≠ 0 ∨ s.par.inRom s.pc = false →
      commandStep s =
        .next { s with irq := { s.irq with pend := s.irq.pend ||| BitVec.twoPow 47 5, faultinfo := s.pc } }) ∧
    (s.pc.toNat % 4 = 0 → s.par.inRom s.pc = true → ∀ w, memRead4 s s.pc = some w →
      ((∀ r ∈ opTable, w &&& r.mask ≠ r.bits) →
        commandStep s =
          .next { s with irq := { s.irq with pend := s.irq.pend ||| BitVec.twoPow 47 6, faultinfo := w } }) ∧
      (∀ r ∈ opTable, w &&& r.mask = r.bits →
        (r.format = .s → commandStep s = exec (assemble r.op w 0) s) ∧
        (r.format = .l → s.par.inRom (s.pc + 4) = false →
          commandStep s =
            .next { s with irq := { s.irq with pend := s.irq.pend ||| BitVec.twoPow 47 5, faultinfo := s.pc + 4 } }) ∧
        (r.format = .l → s.par.inRom (s.pc + 4) = true → ∀ w1, memRead4 s (s.pc + 4) = some w1 →
          commandStep s = exec (assemble r.op w w1) s)))

/-! ### Memory -/

/-- MemWrite(addr, 1, v) (20_memory.md R55): in RAM the byte at addr becomes v, which a byte read finds there, and every
other byte reads as before; elsewhere nothing is written and the access is a BusFault. -/
def Obligations.ByteWriteChangesOneRamByte : Prop :=
  ∀ (s : State) (a : Word) (v : Byte),
    (s.par.inRam a = true →
      ∃ t, memWrite1 s a v = some t ∧ t = { s with ram := t.ram } ∧
        (∀ b : Word, ramByte t.seed t.ram b = if b = a then v else ramByte s.seed s.ram b) ∧
        (s.par.inRom a = false → memRead1 t a = some v) ∧
        ∀ b : Word, b ≠ a → memRead1 t b = memRead1 s b) ∧
    (s.par.inRam a = false → memWrite1 s a v = none)

/-- MemWrite(addr, 4, v) (R56): byte addr+k becomes v[8k+7:8k] for k = 0..3, which byte reads find there lowest first
(R57), and every other byte reads as before; misaligned or not all in RAM, nothing is written and the access is a
BusFault. -/
def Obligations.WordWriteIsLittleEndian : Prop :=
  ∀ (s : State) (a : Word) (v : Word),
    (a.toNat % 4 = 0 → (∀ k < 4, s.par.inRam (a + BitVec.ofNat 32 k) = true) →
      ∃ t, memWrite4 s a v = some t ∧ t = { s with ram := t.ram } ∧
        (∀ k < 4, ramByte t.seed t.ram (a + BitVec.ofNat 32 k) = v.extractLsb' (8 * k) 8) ∧
        (∀ b : Word, (∀ k < 4, b ≠ a + BitVec.ofNat 32 k) → ramByte t.seed t.ram b = ramByte s.seed s.ram b) ∧
        (∀ k < 4, s.par.inRom (a + BitVec.ofNat 32 k) = false →
          memRead1 t (a + BitVec.ofNat 32 k) = some (v.extractLsb' (8 * k) 8)) ∧
        ∀ b : Word, (∀ k < 4, b ≠ a + BitVec.ofNat 32 k) → memRead1 t b = memRead1 s b) ∧
    (a.toNat % 4 ≠ 0 ∨ (∃ k < 4, s.par.inRam (a + BitVec.ofNat 32 k) = false) → memWrite4 s a v = none)

/-- MemRead(addr, 1) (R53): the byte of ROM_IMAGE in ROM, the RAM byte in RAM, a BusFault elsewhere. MemRead(addr, 4)
(R54): aligned and inside one region, the word of the four bytes, lowest address in the low byte; otherwise a
BusFault. -/
def Obligations.WordReadIsLittleEndian : Prop :=
  ∀ (s : State) (a : Word),
    (s.par.inRom a = true → memRead1 s a = some (romByte s.par a)) ∧
    (s.par.inRom a = false → s.par.inRam a = true → memRead1 s a = some (ramByte s.seed s.ram a)) ∧
    (s.par.inRom a = false → s.par.inRam a = false → memRead1 s a = none) ∧
    (a.toNat % 4 = 0 →
      (∀ k < 4, s.par.inRom (a + BitVec.ofNat 32 k) = true) ∨ (∀ k < 4, s.par.inRam (a + BitVec.ofNat 32 k) = true) →
      ∃ w, memRead4 s a = some w ∧
        ∀ k < 4, memRead1 s (a + BitVec.ofNat 32 k) = some (w.extractLsb' (8 * k) 8)) ∧
    (a.toNat % 4 ≠ 0 ∨
      ¬ ((∀ k < 4, s.par.inRom (a + BitVec.ofNat 32 k) = true) ∨ (∀ k < 4, s.par.inRam (a + BitVec.ofNat 32 k) = true)) →
      memRead4 s a = none)

/-! ### FIFO commands -/

/-- FCREATE (40_fifo.md R91): the capacity test first, then the already-created test, then the empty queue. -/
def Obligations.FcreateMakesAnEmptyQueueOnce : Prop :=
  (⟨.fcreate, .s, 0x10000000#32, 0xFFFE0000#32⟩ : OpRow) ∈ opTable ∧
  ∀ (q : QId) (cap : BitVec 16) (s : State),
    (cap.toNat = 0 ∨ s.par.fifoMax < cap.toNat →
      exec (.fcreate q cap) s = .next { s with stat := 4#4, fg := { s.fg with run := false }, pc := s.pc + 4 }) ∧
    (cap.toNat ≠ 0 → cap.toNat ≤ s.par.fifoMax → (s.queue q).cap ≠ 0 →
      exec (.fcreate q cap) s = .next { s with stat := 5#4, fg := { s.fg with run := false }, pc := s.pc + 4 }) ∧
    (cap.toNat ≠ 0 → cap.toNat ≤ s.par.fifoMax → (s.queue q).cap = 0 →
      exec (.fcreate q cap) s =
        .next
          { s.setQueue q { cap := cap.toNat, wr := 0, rd := 0, cnt := 0, buf := (s.queue q).buf } with
            stat := 0#4, fg := { s.fg with run := false }, pc := s.pc + 4 })

/-- FWRITE (R97 by fifo_write of R92): FULL with the queue unchanged, or the byte stored and the cursor and count
moved. -/
def Obligations.FwriteStoresOrReportsFull : Prop :=
  (⟨.fwrite, .s, 0x11000000#32, 0xFFFEFF00#32⟩ : OpRow) ∈ opTable ∧
  ∀ (q : QId) (b : Byte) (s : State),
    ((s.queue q).cnt = (s.queue q).cap →
      exec (.fwrite q b) s = .next { s with stat := 1#4, fg := { s.fg with run := false }, pc := s.pc + 4 }) ∧
    ((s.queue q).cnt ≠ (s.queue q).cap →
      exec (.fwrite q b) s =
        .next
          { s.setQueue q
              { cap := (s.queue q).cap, wr := ((s.queue q).wr + 1) % (s.queue q).cap, rd := (s.queue q).rd
                cnt := (s.queue q).cnt + 1, buf := (s.queue q).buf.set (s.queue q).wr b } with
            stat := 0#4, fg := { s.fg with run := false }, pc := s.pc + 4 })

/-- FREAD (R98 by fifo_read of R93): EMPTY with the queue and RES unchanged, or RES the byte at the read cursor,
zero-extended, and the cursor and count moved. `rd` inside the storage is part of R19. -/
def Obligations.FreadLoadsOrReportsEmpty : Prop :=
  (⟨.fread, .s, 0x12000000#32, 0xFFFEFFFF#32⟩ : OpRow) ∈ opTable ∧
  ∀ (q : QId) (s : State),
    ((s.queue q).cnt = 0 →
      exec (.fread q) s = .next { s with stat := 2#4, fg := { s.fg with run := false }, pc := s.pc + 4 }) ∧
    (∀ b, (s.queue q).cnt ≠ 0 → (s.queue q).buf[(s.queue q).rd]? = some b →
      exec (.fread q) s =
        .next
          { s.setQueue q
              { cap := (s.queue q).cap, wr := (s.queue q).wr, rd := ((s.queue q).rd + 1) % (s.queue q).cap
                cnt := (s.queue q).cnt - 1, buf := (s.queue q).buf } with
            res := b.setWidth 32, stat := 0#4, fg := { s.fg with run := false }, pc := s.pc + 4 })

/-- FFULL, FEMPTY, FAVAIL (R99, R100, R101 by R94, R95): RES the answer, the queue unchanged. -/
def Obligations.QueueQueriesAnswerInRes : Prop :=
  (⟨.ffull, .s, 0x13000000#32, 0xFFFEFFFF#32⟩ : OpRow) ∈ opTable ∧
  (⟨.fempty, .s, 0x14000000#32, 0xFFFEFFFF#32⟩ : OpRow) ∈ opTable ∧
  (⟨.favail, .s, 0x15000000#32, 0xFFFEFFFF#32⟩ : OpRow) ∈ opTable ∧
  ∀ (q : QId) (s : State),
    exec (.ffull q) s =
      .next
        { s with
          res := if (s.queue q).cnt = (s.queue q).cap then 1#32 else 0#32
          stat := 0#4, fg := { s.fg with run := false }, pc := s.pc + 4 } ∧
    exec (.fempty q) s =
      .next
        { s with
          res := if (s.queue q).cnt = 0 then 1#32 else 0#32
          stat := 0#4, fg := { s.fg with run := false }, pc := s.pc + 4 } ∧
    exec (.favail q) s =
      .next
        { s with
          res := BitVec.ofNat 32 (s.queue q).cnt
          stat := 0#4, fg := { s.fg with run := false }, pc := s.pc + 4 }

/-- A write appends to the bytes a queue holds and a read takes the oldest, on every queue that meets the invariants of
10_state.md R19, which both keep (R104 b, d). -/
def Obligations.QueueIsFirstInFirstOut : Prop :=
  ∀ (n : Nat) (q : Queue), q.wf n →
    (∀ b, q.cnt < q.cap →
      (fifoWrite q b).1 = .ok ∧ (fifoWrite q b).2.contents = q.contents ++ [b] ∧ (fifoWrite q b).2.wf n) ∧
    (∀ b, q.cnt = q.cap → fifoWrite q b = (.full, q)) ∧
    (0 < q.cnt → ∃ b q1, fifoRead q = some (b, q1) ∧ q.contents = b :: q1.contents ∧ q1.wf n) ∧
    (q.cnt = 0 → fifoRead q = none)

/-- Round trip (R104 c): writing k bytes, k at most the free room, to an empty queue and reading k times yields them in
the same order and an empty queue. -/
def Obligations.QueueRoundTrip : Prop :=
  ∀ (n : Nat) (q : Queue) (bs : List Byte), q.wf n → q.cnt = 0 → bs.length ≤ q.cap →
    ∃ q1, (q.writeAll bs).readAll bs.length = some (bs, q1) ∧ q1.cnt = 0 ∧ q1.cap = q.cap ∧ q1.wf n

/-- The frame of the FIFO commands: besides pc, STAT, RES and fg.run only the named queue changes, a query changes no
queue, FCREATE and FWRITE keep RES, and every byte of memory reads as before (R91, R97 to R101). -/
def Obligations.FifoCommandsFrame : Prop :=
  ∀ (q : QId) (cap : BitVec 16) (b : Byte) (s t : State),
    (∀ i ∈ [Instr.fcreate q cap, .fwrite q b, .fread q, .ffull q, .fempty q, .favail q], exec i s = .next t →
      t = { s with
        pc := t.pc, stat := t.stat, res := t.res, fg := { s.fg with run := false }, txq := t.txq, rxq := t.rxq } ∧
      (∀ r, r ≠ q → t.queue r = s.queue r) ∧ (∀ a, memRead1 t a = memRead1 s a)) ∧
    (∀ i ∈ [Instr.ffull q, .fempty q, .favail q], exec i s = .next t → t.queue q = s.queue q) ∧
    (∀ i ∈ [Instr.fcreate q cap, .fwrite q b], exec i s = .next t → t.res = s.res)

/-! ### Control commands -/

/-- END (41_control.md R111): STAT <- OK, mode <- STOPPED, pc not advanced; IRQ can step afterwards where it could
before. FG is terminally idle: a stopped machine's FG has no step, and every step of every agent, scheduled or not,
leaves mode STOPPED. -/
def Obligations.EndStopsTheForeground : Prop :=
  (⟨.endCmd, .s, 0x01000000#32, 0xFFFFFFFF#32⟩ : OpRow) ∈ opTable ∧
  (∀ s : State, ∃ t, exec .endCmd s = .next t ∧ t = { s with stat := 0#4, mode := .stopped } ∧
    fgEnabled t = false ∧ irqEnabled t = irqEnabled s) ∧
  ∀ s : State, s.mode = .stopped →
    (∀ t, fgStep s ≠ .next t) ∧ (∀ m t, perform m s = .next t → t.mode = .stopped) ∧
    ∀ t, step s = .next t → t.mode = .stopped

/-- IMASK and IUNMASK (R112, R113): the line's enable bit and no other, or BADCFG where the number has none. -/
def Obligations.MaskCommandsWriteOneEnable : Prop :=
  (⟨.imask, .s, 0x20000000#32, 0xFFC0FFFF#32⟩ : OpRow) ∈ opTable ∧
  (⟨.iunmask, .s, 0x21000000#32, 0xFFC0FFFF#32⟩ : OpRow) ∈ opTable ∧
  ∀ (n : BitVec 6) (s : State),
    (n.toNat ∈ [16, 17, 18, 19, 20] ∨ (22 ≤ n.toNat ∧ n.toNat ≤ 41) →
      (∃ t, exec (.imask n) s = .next t ∧
        t = { s with
          irq := { s.irq with irqen := t.irq.irqen }
          stat := 0#4, fg := { s.fg with run := false }, pc := s.pc + 4 } ∧
        ∀ k, t.irq.irqen.getLsbD k = if k = n.toNat then false else s.irq.irqen.getLsbD k) ∧
      (∃ t, exec (.iunmask n) s = .next t ∧
        t = { s with
          irq := { s.irq with irqen := t.irq.irqen }
          stat := 0#4, fg := { s.fg with run := false }, pc := s.pc + 4 } ∧
        ∀ k, t.irq.irqen.getLsbD k = if k = n.toNat then true else s.irq.irqen.getLsbD k)) ∧
    (¬ (n.toNat ∈ [16, 17, 18, 19, 20] ∨ (22 ≤ n.toNat ∧ n.toNat ≤ 41)) →
      exec (.imask n) s = .next { s with stat := 4#4, fg := { s.fg with run := false }, pc := s.pc + 4 } ∧
      exec (.iunmask n) s = .next { s with stat := 4#4, fg := { s.fg with run := false }, pc := s.pc + 4 })

/-- INTSET and INTCLR (R114, R115): INTEN or mask, INTEN and not mask, bit by bit; nothing else but STAT and pc. -/
def Obligations.EventEnableCommands : Prop :=
  (⟨.intset, .s, 0x22000000#32, 0xFFFFFFF0#32⟩ : OpRow) ∈ opTable ∧
  (⟨.intclr, .s, 0x23000000#32, 0xFFFFFFF0#32⟩ : OpRow) ∈ opTable ∧
  ∀ (mask : BitVec 4) (s : State),
    (∃ t, exec (.intset mask) s = .next t ∧
      t = { s with
        uart := { s.uart with inten := t.uart.inten }
        stat := 0#4, fg := { s.fg with run := false }, pc := s.pc + 4 } ∧
      ∀ k, t.uart.inten.getLsbD k = (s.uart.inten.getLsbD k || mask.getLsbD k)) ∧
    (∃ t, exec (.intclr mask) s = .next t ∧
      t = { s with
        uart := { s.uart with inten := t.uart.inten }
        stat := 0#4, fg := { s.fg with run := false }, pc := s.pc + 4 } ∧
      ∀ k, t.uart.inten.getLsbD k = (s.uart.inten.getLsbD k && !mask.getLsbD k))

/-- The frame of the control commands: RES, both queues, every event, every request, every log and every byte of memory
stay; of the dispatcher only irqen, of the UART block only INTEN, and only END writes mode. -/
def Obligations.ControlCommandsFrame : Prop :=
  ∀ (n : BitVec 6) (mask : BitVec 4) (s t : State),
    ∀ i ∈ [Instr.endCmd, .imask n, .iunmask n, .intset mask, .intclr mask], exec i s = .next t →
      t = { s with
        pc := t.pc, stat := t.stat, mode := t.mode, fg := { s.fg with run := t.fg.run }
        uart := { s.uart with inten := t.uart.inten }, irq := { s.irq with irqen := t.irq.irqen } } ∧
      (i ≠ .endCmd → t.mode = s.mode) ∧
      (i ∈ [Instr.endCmd, .intset mask, .intclr mask] → t.irq = s.irq) ∧
      (i ∈ [Instr.endCmd, .imask n, .iunmask n] → t.uart = s.uart) ∧
      ∀ a, memRead1 t a = memRead1 s a

/-! ### Configuration and the unbuffered path -/

/-- CONFIGURE (42_uart_config_unbuffered.md R121, with psel of R123): BUSY while Transmitting, tested first; BADCFG for
an undefined selector or an invalid pin; otherwise the registers of the rule's six steps and both start tasks. -/
def Obligations.ConfigureProgramsTheUart : Prop :=
  (⟨.configure, .l, 0x30000000#32, 0xFF00FFFC#32⟩ : OpRow) ∈ opTable ∧
  ∀ (rx tx rts cts sel : Byte) (parity flow : Bool) (s : State),
    (s.tstate = .transmitting →
      exec (.configure rx tx rts cts sel parity flow) s =
        .next { s with stat := 5#4, fg := { s.fg with run := false }, pc := s.pc + 8 }) ∧
    (s.tstate = .idle →
      (∀ e ∈ s.par.baudTable, e.1 ≠ sel.toNat) ∨ (∃ p ∈ [rx, tx, rts, cts], s.par.npins ≤ p.toNat ∧ p ≠ 0xFF#8) →
      exec (.configure rx tx rts cts sel parity flow) s =
        .next { s with stat := 4#4, fg := { s.fg with run := false }, pc := s.pc + 8 }) ∧
    (∀ baud, s.tstate = .idle → (s.par.baudTable.find? (fun e => e.1 == sel.toNat)) = some (sel.toNat, baud) →
      (∀ p ∈ [rx, tx, rts, cts], p.toNat < s.par.npins ∨ p = 0xFF#8) →
      exec (.configure rx tx rts cts sel parity flow) s =
        .next
          { s with
            uart :=
              { s.uart with
                pselrxd := if rx.toNat < s.par.npins then rx.setWidth 32 else 0xFFFFFFFF#32
                pseltxd := if tx.toNat < s.par.npins then tx.setWidth 32 else 0xFFFFFFFF#32
                pselrts := if rts.toNat < s.par.npins then rts.setWidth 32 else 0xFFFFFFFF#32
                pselcts := if cts.toNat < s.par.npins then cts.setWidth 32 else 0xFFFFFFFF#32
                config := BitVec.ofBool parity ++ BitVec.ofBool flow
                baudrate := baud
                events := (s.uart.events ||| 0b0001#4) &&& 0b1101#4
                rxdValid := false
                run := 0b11#2
                enable := 1#1 }
            logs := { s.logs with task := s.logs.task ++ [.startRx, .startTx] }
            stat := 0#4, fg := { s.fg with run := false }, pc := s.pc + 8 })

/-- Idempotence of configuration (R129): a second CONFIGURE with the same operands leaves the whole state as the first
left it but for pc and the task log. -/
def Obligations.ConfigureIsIdempotent : Prop :=
  ∀ (rx tx rts cts sel : Byte) (parity flow : Bool) (s t u : State),
    exec (.configure rx tx rts cts sel parity flow) s = .next t →
    exec (.configure rx tx rts cts sel parity flow) t = .next u →
    u = { t with pc := u.pc, logs := { t.logs with task := u.logs.task } }

/-- PUTC (R125 by poll of R124): arm; READY clears the flag and writes TXD; EXPIRED reports TIMEOUT; WAIT takes one
retry. -/
def Obligations.PutcWaitsAndWrites : Prop :=
  (⟨.putc, .s, 0x31000000#32, 0xFFFFFF00#32⟩ : OpRow) ∈ opTable ∧
  ∀ (b : Byte) (s : State),
    (s.fg.run = false → exec (.putc b) s = .next { s with fg := { s.fg with run := true, w := s.par.tBlock } }) ∧
    (s.fg.run = true → s.uart.events.getLsbD 0 = true →
      exec (.putc b) s =
        .next
          { s with
            uart := { s.uart with events := s.uart.events &&& 0b1110#4, txd := b }
            logs := { s.logs with tx := s.logs.tx ++ [b], txOwed := s.logs.txOwed + 1 }
            stat := 0#4, fg := { s.fg with run := false }, pc := s.pc + 4 }) ∧
    (s.fg.run = true → s.uart.events.getLsbD 0 = false → s.fg.w = 0 →
      exec (.putc b) s = .next { s with stat := 3#4, fg := { s.fg with run := false }, pc := s.pc + 4 }) ∧
    (∀ w, s.fg.run = true → s.uart.events.getLsbD 0 = false → s.fg.w = w + 1 →
      exec (.putc b) s = .next { s with fg := { s.fg with w := w } })

/-- GETC (R126 by R124): READY clears the flag and rxd_valid and gives RES the byte of RXD; on expiry RES is unchanged. -/
def Obligations.GetcWaitsAndReads : Prop :=
  (⟨.getc, .s, 0x32000000#32, 0xFFFFFFFF#32⟩ : OpRow) ∈ opTable ∧
  ∀ s : State,
    (s.fg.run = false → exec .getc s = .next { s with fg := { s.fg with run := true, w := s.par.tBlock } }) ∧
    (s.fg.run = true → s.uart.events.getLsbD 1 = true →
      exec .getc s =
        .next
          { s with
            uart := { s.uart with events := s.uart.events &&& 0b1101#4, rxdValid := false }
            res := s.uart.rxd.setWidth 32
            stat := 0#4, fg := { s.fg with run := false }, pc := s.pc + 4 }) ∧
    (s.fg.run = true → s.uart.events.getLsbD 1 = false → s.fg.w = 0 →
      exec .getc s = .next { s with stat := 3#4, fg := { s.fg with run := false }, pc := s.pc + 4 }) ∧
    (∀ w, s.fg.run = true → s.uart.events.getLsbD 1 = false → s.fg.w = w + 1 →
      exec .getc s = .next { s with fg := { s.fg with w := w } })

/-- PUTS (R127): arm; at index len complete with RES = len; otherwise the byte at (addr + i) mod 2^32 is read (BusFault
where it cannot be) and polled: sent with a fresh budget, a short count with TIMEOUT, or a retry. -/
def Obligations.PutsSendsTheBuffer : Prop :=
  (⟨.puts, .l, 0x33000000#32, 0xFFFF0000#32⟩ : OpRow) ∈ opTable ∧
  ∀ (addr : Word) (len : BitVec 16) (s : State),
    (s.fg.run = false →
      exec (.puts addr len) s = .next { s with fg := { s.fg with run := true, i := 0, w := s.par.tBlock } }) ∧
    (s.fg.run = true → s.fg.i = len.toNat →
      exec (.puts addr len) s =
        .next
          { s with
            res := BitVec.ofNat 32 len.toNat, stat := 0#4, fg := { s.fg with run := false }, pc := s.pc + 8 }) ∧
    (s.fg.run = true → s.fg.i ≠ len.toNat → memRead1 s (addr + BitVec.ofNat 32 s.fg.i) = none →
      exec (.puts addr len) s =
        .next
          { s with
            irq :=
              { s.irq with
                pend := s.irq.pend ||| BitVec.twoPow 47 5, faultinfo := addr + BitVec.ofNat 32 s.fg.i } }) ∧
    (∀ b, s.fg.run = true → s.fg.i ≠ len.toNat → memRead1 s (addr + BitVec.ofNat 32 s.fg.i) = some b →
      (s.uart.events.getLsbD 0 = true →
        exec (.puts addr len) s =
          .next
            { s with
              uart := { s.uart with events := s.uart.events &&& 0b1110#4, txd := b }
              logs := { s.logs with tx := s.logs.tx ++ [b], txOwed := s.logs.txOwed + 1 }
              fg := { s.fg with i := s.fg.i + 1, w := s.par.tBlock } }) ∧
      (s.uart.events.getLsbD 0 = false → s.fg.w = 0 →
        exec (.puts addr len) s =
          .next
            { s with
              res := BitVec.ofNat 32 s.fg.i, stat := 3#4, fg := { s.fg with run := false }, pc := s.pc + 8 }) ∧
      (∀ w, s.uart.events.getLsbD 0 = false → s.fg.w = w + 1 →
        exec (.puts addr len) s = .next { s with fg := { s.fg with w := w } }))

/-- PUTZ (R128): as PUTS, ending before the first zero byte, which is not sent and not counted. -/
def Obligations.PutzSendsTheString : Prop :=
  (⟨.putz, .l, 0x34000000#32, 0xFFFFFFFF#32⟩ : OpRow) ∈ opTable ∧
  ∀ (addr : Word) (s : State),
    (s.fg.run = false →
      exec (.putz addr) s = .next { s with fg := { s.fg with run := true, i := 0, w := s.par.tBlock } }) ∧
    (s.fg.run = true → memRead1 s (addr + BitVec.ofNat 32 s.fg.i) = none →
      exec (.putz addr) s =
        .next
          { s with
            irq :=
              { s.irq with
                pend := s.irq.pend ||| BitVec.twoPow 47 5, faultinfo := addr + BitVec.ofNat 32 s.fg.i } }) ∧
    (s.fg.run = true → memRead1 s (addr + BitVec.ofNat 32 s.fg.i) = some 0x00#8 →
      exec (.putz addr) s =
        .next
          { s with
            res := BitVec.ofNat 32 s.fg.i, stat := 0#4, fg := { s.fg with run := false }, pc := s.pc + 8 }) ∧
    (∀ b, s.fg.run = true → memRead1 s (addr + BitVec.ofNat 32 s.fg.i) = some b → b ≠ 0x00#8 →
      (s.uart.events.getLsbD 0 = true →
        exec (.putz addr) s =
          .next
            { s with
              uart := { s.uart with events := s.uart.events &&& 0b1110#4, txd := b }
              logs := { s.logs with tx := s.logs.tx ++ [b], txOwed := s.logs.txOwed + 1 }
              fg := { s.fg with i := s.fg.i + 1, w := s.par.tBlock } }) ∧
      (s.uart.events.getLsbD 0 = false → s.fg.w = 0 →
        exec (.putz addr) s =
          .next
            { s with
              res := BitVec.ofNat 32 s.fg.i, stat := 3#4, fg := { s.fg with run := false }, pc := s.pc + 8 }) ∧
      (∀ w, s.uart.events.getLsbD 0 = false → s.fg.w = w + 1 →
        exec (.putz addr) s = .next { s with fg := { s.fg with w := w } }))

/-- No unbuffered command waits without bound (R124, R130, 70_reset_and_hazards.md R248 d): a step of one in progress
completes it, faults, takes a retry of the same byte's budget, or goes on to the next byte with the full budget. -/
def Obligations.UnbufferedWaitsAreBounded : Prop :=
  ∀ (b : Byte) (addr : Word) (len : BitVec 16) (s t : State),
    ∀ i ∈ [Instr.putc b, .getc, .puts addr len, .putz addr], s.fg.run = true → exec i s = .next t →
      t.fg.run = false ∨
      t = raiseBusFault (addr + BitVec.ofNat 32 s.fg.i) s ∨
      (t.fg.run = true ∧ t.fg.i = s.fg.i ∧ t.fg.w < s.fg.w) ∨
      (t.fg.run = true ∧ t.fg.i = s.fg.i + 1 ∧ t.fg.w = s.par.tBlock ∧ i ∈ [Instr.puts addr len, .putz addr])

/-- The frame of CONFIGURE, PUTC, GETC, PUTS, PUTZ: SP, mode, tstate, both queues, INTEN, ERRORSRC, RXD, irqen, ACTIVE
and every byte of memory stay; only a BusFault writes pend and FAULTINFO; only GETC writes RES of the first three. -/
def Obligations.UnbufferedCommandsFrame : Prop :=
  ∀ (b rx tx rts cts sel : Byte) (parity flow : Bool) (addr : Word) (len : BitVec 16) (s t : State),
    (∀ i ∈ [Instr.configure rx tx rts cts sel parity flow, .putc b, .getc, .puts addr len, .putz addr],
      exec i s = .next t →
      t = { s with
        pc := t.pc, stat := t.stat, res := t.res, fg := { s.fg with run := t.fg.run, i := t.fg.i, w := t.fg.w }
        uart := t.uart, logs := t.logs
        irq := { s.irq with pend := t.irq.pend, faultinfo := t.irq.faultinfo } } ∧
      t.uart.inten = s.uart.inten ∧ t.uart.errorsrc = s.uart.errorsrc ∧ t.uart.rxd = s.uart.rxd ∧
      ∀ a, memRead1 t a = memRead1 s a) ∧
    (∀ i ∈ [Instr.configure rx tx rts cts sel parity flow, .putc b, .getc], exec i s = .next t → t.irq = s.irq) ∧
    (∀ i ∈ [Instr.configure rx tx rts cts sel parity flow, .putc b], exec i s = .next t → t.res = s.res)

/-! ### The buffered path -/

/-- crit_tx(b) with its precondition, a queue that is not full (43_uart_buffered.md R141, R142): b is enqueued and
irqen is as before; while Transmitting nothing else changes; while Idle the kick enables the transmit-ready interrupt,
starts the transmitter, takes the oldest byte of the queue into TXD and sets Transmitting. -/
def Obligations.CriticalSectionEnqueuesAndKicks : Prop :=
  ∀ (b : Byte) (s : State), s.txq.cnt ≠ s.txq.cap →
    (s.tstate = .transmitting → critTx b s = { s with txq := (fifoWrite s.txq b).2 }) ∧
    (s.tstate = .idle → ∃ b0 q, fifoRead (fifoWrite s.txq b).2 = some (b0, q) ∧
      critTx b s =
        { s with
          txq := q
          tstate := .transmitting
          uart :=
            { s.uart with inten := s.uart.inten ||| 0b0001#4, run := s.uart.run ||| 0b01#2, txd := b0 }
          logs :=
            { tx := s.logs.tx ++ [b0], task := s.logs.task ++ [.startTx], txOwed := s.logs.txOwed + 1 } })

/-- SEND (R144): arm; complete with RES = len; BusFault on the next byte; a full queue takes a retry or, with none left,
ends the command with the short count and TIMEOUT; otherwise one admission, of the owed carriage return or of the next
byte, a line feed owing a carriage return. -/
def Obligations.SendAdmitsTheBuffer : Prop :=
  (⟨.send, .l, 0x35000000#32, 0xFFFF0000#32⟩ : OpRow) ∈ opTable ∧
  ∀ (addr : Word) (len : BitVec 16) (s : State),
    (s.fg.run = false →
      exec (.send addr len) s =
        .next { s with fg := { s.fg with run := true, i := 0, cr := false, w := s.par.tSend } }) ∧
    (s.fg.run = true → s.fg.cr = false → s.fg.i = len.toNat →
      exec (.send addr len) s =
        .next
          { s with
            res := BitVec.ofNat 32 len.toNat, stat := 0#4, fg := { s.fg with run := false }, pc := s.pc + 8 }) ∧
    (s.fg.run = true → s.fg.cr = false → s.fg.i ≠ len.toNat → memRead1 s (addr + BitVec.ofNat 32 s.fg.i) = none →
      exec (.send addr len) s =
        .next
          { s with
            irq :=
              { s.irq with
                pend := s.irq.pend ||| BitVec.twoPow 47 5, faultinfo := addr + BitVec.ofNat 32 s.fg.i } }) ∧
    (∀ b, s.fg.run = true → s.fg.cr = false → s.fg.i ≠ len.toNat →
      memRead1 s (addr + BitVec.ofNat 32 s.fg.i) = some b → s.txq.cnt ≠ s.txq.cap →
      exec (.send addr len) s =
        .next
          { critTx b s with
            fg := { s.fg with i := s.fg.i + 1, cr := decide (b = 0x0A#8), w := s.par.tSend } }) ∧
    (s.fg.run = true → s.fg.cr = true → s.txq.cnt ≠ s.txq.cap →
      exec (.send addr len) s = .next { critTx 0x0D#8 s with fg := { s.fg with cr := false, w := s.par.tSend } }) ∧
    (s.fg.run = true → s.txq.cnt = s.txq.cap →
      (s.fg.cr = true ∨ (s.fg.i ≠ len.toNat ∧ ∃ b, memRead1 s (addr + BitVec.ofNat 32 s.fg.i) = some b)) →
      (s.fg.w = 0 →
        exec (.send addr len) s =
          .next
            { s with
              res := BitVec.ofNat 32 s.fg.i, stat := 3#4
              fg := { s.fg with run := false, cr := false }, pc := s.pc + 8 }) ∧
      (∀ w, s.fg.w = w + 1 → exec (.send addr len) s = .next { s with fg := { s.fg with w := w } }))

/-- SEND on an Idle transport with room (R146): the step that admits the first byte sets Transmitting and puts the oldest
byte of the outbound queue into TXD and at the end of tx_log. -/
def Obligations.SendStartsAnIdleTransmitter : Prop :=
  ∀ (addr : Word) (len : BitVec 16) (s : State) (b : Byte) (n : Nat), s.txq.wf n →
    s.fg.run = true → s.fg.cr = false → s.fg.i < len.toNat → s.tstate = .idle → s.txq.cnt < s.txq.cap →
    memRead1 s (addr + BitVec.ofNat 32 s.fg.i) = some b →
    ∃ t b0, exec (.send addr len) s = .next t ∧ t.tstate = .transmitting ∧
      s.txq.contents ++ [b] = b0 :: t.txq.contents ∧ t.uart.txd = b0 ∧ t.logs.tx = s.logs.tx ++ [b0] ∧
      t.uart.inten.getLsbD 0 = true ∧ t.uart.run.getLsbD 0 = true

/-- SEND never waits without bound (R143, R150): each step in progress completes the command, raises a BusFault, or
leaves strictly less to do, whatever the other agents do in between. -/
def Obligations.SendIsBounded : Prop :=
  ∀ (addr : Word) (len : BitVec 16) (s t : State),
    s.fg.run = true → s.fg.i ≤ len.toNat → s.fg.w ≤ s.par.tSend → exec (.send addr len) s = .next t →
      t.fg.run = false ∨ t = raiseBusFault (addr + BitVec.ofNat 32 s.fg.i) s ∨
      (t.fg.run = true ∧ t.fg.i ≤ len.toNat ∧ t.fg.w ≤ t.par.tSend ∧ sendMeasure len t < sendMeasure len s)

/-- RECV (R147 by crit_rx of R148): arm; complete at max or on an empty queue with RES = i; BusFault before the queue is
touched; otherwise the oldest byte is taken out and written to (addr + i) mod 2^32, irqen as before. -/
def Obligations.RecvDrainsTheInboundQueue : Prop :=
  (⟨.recv, .l, 0x36000000#32, 0xFFFF0000#32⟩ : OpRow) ∈ opTable ∧
  ∀ (addr : Word) (max : BitVec 16) (s : State),
    (s.fg.run = false → exec (.recv addr max) s = .next { s with fg := { s.fg with run := true, i := 0 } }) ∧
    (s.fg.run = true → s.fg.i = max.toNat ∨ s.rxq.cnt = 0 →
      exec (.recv addr max) s =
        .next
          { s with
            res := BitVec.ofNat 32 s.fg.i, stat := 0#4, fg := { s.fg with run := false }, pc := s.pc + 8 }) ∧
    (s.fg.run = true → s.fg.i ≠ max.toNat → s.rxq.cnt ≠ 0 →
      s.par.inRam (addr + BitVec.ofNat 32 s.fg.i) = false →
      exec (.recv addr max) s =
        .next
          { s with
            irq :=
              { s.irq with
                pend := s.irq.pend ||| BitVec.twoPow 47 5, faultinfo := addr + BitVec.ofNat 32 s.fg.i } }) ∧
    (∀ b, s.fg.run = true → s.fg.i ≠ max.toNat → s.rxq.cnt ≠ 0 →
      s.par.inRam (addr + BitVec.ofNat 32 s.fg.i) = true → s.rxq.buf[s.rxq.rd]? = some b →
      ∃ t, exec (.recv addr max) s = .next t ∧
        t = { s with
          rxq := { s.rxq with rd := (s.rxq.rd + 1) % s.rxq.cap, cnt := s.rxq.cnt - 1 }
          fg := { s.fg with i := s.fg.i + 1 }
          ram := t.ram } ∧
        ∀ a, ramByte t.seed t.ram a =
          if a = addr + BitVec.ofNat 32 s.fg.i then b else ramByte s.seed s.ram a)

/-- The frame of SEND and RECV. SEND: SP, mode, RXQ, EVENTS, the configuration registers, irqen and every byte of memory
stay. RECV: besides its own writes everything but RXQ stays, and every byte of memory but the one at the destination
address of the step reads as before. -/
def Obligations.BufferedCommandsFrame : Prop :=
  ∀ (addr : Word) (len : BitVec 16) (s t : State),
    (exec (.send addr len) s = .next t →
      t = { s with
        pc := t.pc, stat := t.stat, res := t.res
        fg := { s.fg with run := t.fg.run, i := t.fg.i, w := t.fg.w, cr := t.fg.cr }
        txq := t.txq, tstate := t.tstate, logs := t.logs
        uart := { s.uart with inten := t.uart.inten, run := t.uart.run, txd := t.uart.txd }
        irq := { s.irq with pend := t.irq.pend, faultinfo := t.irq.faultinfo } } ∧
      ∀ a, memRead1 t a = memRead1 s a) ∧
    (exec (.recv addr len) s = .next t →
      t = { s with
        pc := t.pc, stat := t.stat, res := t.res, fg := { s.fg with run := t.fg.run, i := t.fg.i }, rxq := t.rxq
        ram := t.ram, irq := { s.irq with pend := t.irq.pend, faultinfo := t.irq.faultinfo } } ∧
      ∀ a, a ≠ bufAddr addr s.fg.i → memRead1 t a = memRead1 s a)

/-- Every command's step is a next state, in every state and for every operand: no command stops the machine
(70_reset_and_hazards.md R238: "each runs by its own rule on whatever state it finds"). -/
def Obligations.EveryCommandStepAnswersNext : Prop :=
  ∀ (i : Instr) (s : State), ∃ t, exec i s = .next t ∧ t.par = s.par ∧ t.sp = s.sp ∧ t.irq.active = s.irq.active

/-! ### The UART handler and the environment -/

/-- HS0 to HS5 (44_uart_handler.md R165 to R170) and the custom stub's CH0 (60_exceptions.md R204), each as IRQ's step
while a handler is active; HS5 and CH0 are the two returns (R202). -/
def Obligations.HandlerMicroSteps : Prop :=
  ∀ s : State, s.irq.active ≠ 0 → s.irq.halted = false →
    (s.irq.hpc = .hs0 → irqStep s = .next { s with irq := { s.irq with snap := s.uart.events, hpc := .hs1 } }) ∧
    (s.irq.hpc = .hs1 →
      (s.irq.snap.getLsbD 0 = false → irqStep s = .next { s with irq := { s.irq with hpc := .hs2 } }) ∧
      (∀ b, s.irq.snap.getLsbD 0 = true → 0 < s.txq.cnt → s.txq.buf[s.txq.rd]? = some b →
        irqStep s =
          .next
            { s with
              txq := { s.txq with rd := (s.txq.rd + 1) % s.txq.cap, cnt := s.txq.cnt - 1 }
              uart := { s.uart with txd := b, events := s.uart.events &&& 0b1110#4 }
              logs := { s.logs with tx := s.logs.tx ++ [b], txOwed := s.logs.txOwed + 1 }
              irq := { s.irq with hpc := .hs2 } }) ∧
      (s.irq.snap.getLsbD 0 = true → s.txq.cnt = 0 →
        irqStep s =
          .next
            { s with
              tstate := .idle
              uart :=
                { s.uart with
                  run := s.uart.run &&& 0b10#2, inten := s.uart.inten &&& 0b1110#4
                  events := s.uart.events &&& 0b1110#4 }
              logs := { s.logs with task := s.logs.task ++ [.stopTx] }
              irq := { s.irq with hpc := .hs2 } })) ∧
    (s.irq.hpc = .hs2 →
      (s.irq.snap.getLsbD 1 = false ∨ s.rxq.cnt = s.rxq.cap →
        irqStep s = .next { s with irq := { s.irq with hpc := .hs3 } }) ∧
      (s.irq.snap.getLsbD 1 = true → s.rxq.cnt ≠ s.rxq.cap →
        irqStep s =
          .next
            { s with
              rxq :=
                { s.rxq with
                  buf := s.rxq.buf.set s.rxq.wr s.uart.rxd, wr := (s.rxq.wr + 1) % s.rxq.cap, cnt := s.rxq.cnt + 1 }
              uart :=
                { s.uart with
                  events := s.uart.events &&& 0b1101#4, rxdValid := false
                  txd := if s.par.echo then s.uart.rxd else s.uart.txd }
              logs :=
                if s.par.echo then { s.logs with tx := s.logs.tx ++ [s.uart.rxd], txOwed := s.logs.txOwed + 1 }
                else s.logs
              irq := { s.irq with hpc := .hs3 } })) ∧
    (s.irq.hpc = .hs3 →
      irqStep s =
        .next
          { s with
            uart :=
              { s.uart with
                events := if s.irq.snap.getLsbD 2 then s.uart.events &&& 0b1011#4 else s.uart.events }
            irq := { s.irq with hpc := .hs4 } }) ∧
    (s.irq.hpc = .hs4 →
      irqStep s =
        .next
          { s with
            uart :=
              { s.uart with
                events := if s.irq.snap.getLsbD 3 then s.uart.events &&& 0b0111#4 else s.uart.events }
            irq := { s.irq with hpc := .hs5 } }) ∧
    (s.irq.hpc = .hs5 ∨ s.irq.hpc = .ch0 → irqStep s = .next { s with irq := { s.irq with active := 0 } })

/-- One invocation of the UART handler (R164, R171, 60_exceptions.md R201): from HS0 six IRQ steps return to the
foreground with every foreground register, RAM, pend, irqen and INTEN's bits 1 to 3 as they were. -/
def Obligations.HandlerReturnsInSixSteps : Prop :=
  ∀ s : State, s.irq.active ≠ 0 → s.irq.halted = false → s.irq.hpc = .hs0 →
    ∃ t, iterate irqStep 6 s = .next t ∧ t.irq.active = 0 ∧ t.irq.halted = false ∧
      t.pc = s.pc ∧ t.res = s.res ∧ t.stat = s.stat ∧ t.sp = s.sp ∧ t.fg = s.fg ∧ t.mode = s.mode ∧ t.ram = s.ram ∧
      t.irq.pend = s.irq.pend ∧ t.irq.irqen = s.irq.irqen ∧ t.uart.inten &&& 0b1110#4 = s.uart.inten &&& 0b1110#4 ∧
      t.uart.errorsrc = s.uart.errorsrc ∧ t.irq.snap = s.uart.events

/-- Receive backpressure (R173, R167): an invocation that finds the inbound queue full leaves that queue, RXD, rxd_valid
and the receive-ready flag as they were, and with the event enabled the line's request stands again at its end. -/
def Obligations.FullInboundQueueKeepsTheByte : Prop :=
  ∀ s : State, s.irq.active ≠ 0 → s.irq.halted = false → s.irq.hpc = .hs0 → s.rxq.cnt = s.rxq.cap →
    ∃ t, iterate irqStep 6 s = .next t ∧ t.rxq = s.rxq ∧ t.uart.rxd = s.uart.rxd ∧
      t.uart.rxdValid = s.uart.rxdValid ∧ t.uart.events.getLsbD 1 = s.uart.events.getLsbD 1 ∧
      (s.uart.events.getLsbD 1 = true → s.uart.inten.getLsbD 1 = true → requested t 18 = true)

/-- The steps of LINE (R176 to R180), each with its guard: where the guard does not hold there is no next state. -/
def Obligations.LineStepsRaiseEvents : Prop :=
  ∀ (b : Byte) (s : State),
    (∃ t, perform (.line .txReady) s = .next t ∧
      t = { s with
        uart := { s.uart with events := s.uart.events ||| 0b0001#4 }
        logs := { s.logs with txOwed := t.logs.txOwed } } ∧
      (0 < s.logs.txOwed → t.logs.txOwed + 1 = s.logs.txOwed)) ∧
    (s.uart.rxdValid = false →
      perform (.line (.rxArrive b)) s =
        .next
          { s with uart := { s.uart with rxd := b, rxdValid := true, events := s.uart.events ||| 0b0010#4 } }) ∧
    (s.uart.rxdValid = true → ∀ t, perform (.line (.rxArrive b)) s ≠ .next t) ∧
    (∀ replace, s.uart.rxdValid = true →
      perform (.line (.rxOverrun b replace)) s =
        .next
          { s with
            uart :=
              { s.uart with
                events := s.uart.events ||| 0b1000#4, errorsrc := s.uart.errorsrc ||| 0b001#3
                rxd := if replace then b else s.uart.rxd } }) ∧
    (∀ replace t, s.uart.rxdValid = false → perform (.line (.rxOverrun b replace)) s ≠ .next t) ∧
    perform (.line .rxTimeout) s =
      .next { s with uart := { s.uart with events := s.uart.events ||| 0b0100#4 } } ∧
    perform (.line (.lineError .parity)) s =
      .next
        { s with
          uart :=
            { s.uart with events := s.uart.events ||| 0b1000#4, errorsrc := s.uart.errorsrc ||| 0b010#3 } } ∧
    perform (.line (.lineError .framing)) s =
      .next
        { s with
          uart :=
            { s.uart with events := s.uart.events ||| 0b1000#4, errorsrc := s.uart.errorsrc ||| 0b100#3 } }

/-- EXT's request (60_exceptions.md R197): for a number of EXT_LINES, pend[n] <- 1 and nothing else; for no other number
is there a step. By default EXT_LINES is every number with a pend bit. -/
def Obligations.ExtRequestPendsOneLine : Prop :=
  (∀ n, n ∈ allExtLines ↔ hasPend n = true) ∧
  ∀ (n : Nat) (s : State),
    (n ∈ s.par.extLines → n < 47 →
      ∃ t, perform (.ext n) s = .next t ∧ t = { s with irq := { s.irq with pend := t.irq.pend } } ∧
        ∀ k, t.irq.pend.getLsbD k = (s.irq.pend.getLsbD k || decide (k = n))) ∧
    (n ∉ s.par.extLines → ∀ t, perform (.ext n) s ≠ .next t)

/-! ### Dispatcher, faults and the default handler -/

/-- dispatch(n) (R200): ACTIVE <- n, pend[n] <- 0 unless n is 18, hpc by the word of slot n; nothing else. -/
def Obligations.DispatchTakesTheException : Prop :=
  ∀ (n : Nat) (v : Word) (s : State), dispatchable s n = true →
    memRead4 s (s.par.vtBase + BitVec.ofNat 32 (4 * n)) = some v →
    irqStep s =
      .next
        { s with
          irq :=
            { s.irq with
              active := BitVec.ofNat 6 n
              pend := if n = 18 then s.irq.pend else s.irq.pend &&& ~~~ BitVec.twoPow 47 n
              hpc := if v = s.par.addrUart0 then .hs0 else if v = s.par.addrDefault then .dh0 else .ch0 } }

/-- dispatchable(n) (R199) is what the rule says it is, and at most one number is dispatchable. -/
def Obligations.LowestNumberIsDispatchable : Prop :=
  ∀ (s : State) (n m : Nat),
    (dispatchable s n = true ↔
      s.irq.active = 0 ∧ s.irq.halted = false ∧ requested s n = true ∧ enabled s n = true ∧
      ∀ k < n, ¬ (requested s k = true ∧ enabled s k = true)) ∧
    (dispatchable s n = true → dispatchable s m = true → n = m)

/-- In a well-formed machine the engine entered is the one the slot is bound to (R191, R192, R200), and entering never
fails. -/
def Obligations.DispatchEntersTheBoundEngine : Prop :=
  ∀ (n : Nat) (s : State), s.par.wf = true → dispatchable s n = true →
    ∃ t, irqStep s = .next t ∧ t.irq.active.toNat = n ∧
      (match s.par.binding n with
        | .uart0 => n = 18 ∧ t.irq.hpc = .hs0
        | .defaultHandler => t.irq.hpc = .dh0
        | .custom _ => t.irq.hpc = .ch0
        | .reserved => False)

/-- ICSR (10_state.md R36): VECTACTIVE, VECTPENDING and ISRPENDING in their places and every other bit 0; after reset it
computes to 0. -/
def Obligations.IcsrHoldsItsThreeFields : Prop :=
  (∀ (p : Params) (u : PowerOn), icsr (State.resetWith p u) = 0) ∧
  ∀ s : State,
    (icsr s).extractLsb' 0 6 = s.irq.active ∧
    (∀ n, requested s n = true → enabled s n = true → (∀ k < n, ¬ (requested s k = true ∧ enabled s k = true)) →
      ((icsr s).extractLsb' 12 6).toNat = n) ∧
    ((∀ n, ¬ (requested s n = true ∧ enabled s n = true)) → (icsr s).extractLsb' 12 6 = 0) ∧
    ((icsr s).getLsbD 22 = true ↔ ∃ n, 16 ≤ n ∧ requested s n = true) ∧
    ∀ k, 6 ≤ k → ¬ (12 ≤ k ∧ k ≤ 17) → k ≠ 22 → (icsr s).getLsbD k = false

/-- The default handler (60_exceptions.md R203): DH0 latches the three indicators, DH1 halts, and then neither FG nor
IRQ has a step. -/
def Obligations.DefaultHandlerLatchesAndHalts : Prop :=
  ∀ s : State, s.irq.active ≠ 0 → s.irq.halted = false →
    (s.irq.hpc = .dh0 →
      irqStep s =
        .next
          { s with
            irq :=
              { s.irq with
                diagActive := s.irq.active
                diagPending := (icsr s).extractLsb' 12 6
                diagIcsr := icsr s
                hpc := .dh1 } }) ∧
    (s.irq.hpc = .dh1 →
      ∃ t, irqStep s = .next t ∧ t = { s with irq := { s.irq with halted := true } } ∧
        fgEnabled t = false ∧ irqEnabled t = false)

/-- Halted is for ever (R203): no step of any agent, scheduled or not, leaves it, and none changes the foreground
registers, the memory, the queues, ACTIVE, hpc or the latches; only EVENTS, ERRORSRC, RXD, pend and the counter move.
That a halted machine without a schedule idles is the model's choice (log entry 7). -/
def Obligations.HaltIsForEver : Prop :=
  ∀ s t : State, s.irq.halted = true → step s = .next t →
    t = { s with
      sched := t.sched
      uart :=
        { s.uart with
          events := t.uart.events, errorsrc := t.uart.errorsrc, rxd := t.uart.rxd, rxdValid := t.uart.rxdValid }
      irq := { s.irq with pend := t.irq.pend }
      logs := { s.logs with txOwed := t.logs.txOwed } }

/-- No nesting (R198): while a handler is active FG has no step and no exception is dispatched: a step of IRQ keeps
ACTIVE or ends the handler, and keeps every pend bit. -/
def Obligations.NoNestingOfHandlers : Prop :=
  ∀ s : State, s.irq.active ≠ 0 →
    (∀ t, fgStep s ≠ .next t) ∧ (∀ n, dispatchable s n = false) ∧
    ∀ t, irqStep s = .next t → (t.irq.active = s.irq.active ∨ t.irq.active = 0) ∧ t.irq.pend = s.irq.pend

/-- raise (R205) and precision (R209): a raised fault sets its pend bit and FAULTINFO and nothing else; from then on FG
has no step and a system exception numbered no higher than the fault is dispatchable. -/
def Obligations.RaisedFaultStopsTheForeground : Prop :=
  ∀ (a : Word) (s : State), s.irq.active = 0 → s.irq.halted = false →
    (raiseBusFault a s = { s with irq := { s.irq with pend := s.irq.pend ||| BitVec.twoPow 47 5, faultinfo := a } } ∧
      (∀ t, fgStep (raiseBusFault a s) ≠ .next t) ∧
      ∃ n, n ≤ 5 ∧ dispatchable (raiseBusFault a s) n = true) ∧
    (raiseUsageFault a s = { s with irq := { s.irq with pend := s.irq.pend ||| BitVec.twoPow 47 6, faultinfo := a } } ∧
      (∀ t, fgStep (raiseUsageFault a s) ≠ .next t) ∧
      ∃ n, n ≤ 6 ∧ dispatchable (raiseUsageFault a s) n = true)

/-- The steps of IRQ, LINE and EXT use no foreground state (R201, 20_memory.md R63): they leave pc, RES, STAT, SP, mode,
fg, RAM, irqen and the parameters alone. -/
def Obligations.OtherAgentsLeaveTheForeground : Prop :=
  ∀ (m : Move) (s t : State), m ≠ .fg → perform m s = .next t →
    t.pc = s.pc ∧ t.res = s.res ∧ t.stat = s.stat ∧ t.sp = s.sp ∧ t.mode = s.mode ∧ t.fg = s.fg ∧ t.ram = s.ram ∧
    t.irq.irqen = s.irq.irqen ∧ t.par = s.par ∧ t.irq.faultinfo = s.irq.faultinfo

/-- The vector table of a well-formed parameter set (R221): slot 0 is the stack top, slot 1 the reset entry, every
reserved slot the sentinel and no callable address, and a CUSTOM slot overrides only itself. -/
def Obligations.VectorTableOfAWellFormedSet : Prop :=
  ∀ (p : Params) (seed : Nat) (ram : Memory), p.wf = true →
    vectorFetch p seed ram 0 = some p.stackTop ∧
    vectorFetch p seed ram 1 = some p.addrReset ∧
    (∀ n ∈ [7, 8, 9, 10, 13, 21, 42, 43, 44, 45, 46], vectorFetch p seed ram n = some 0x00000000#32) ∧
    vectorFetch p seed ram 18 = some p.addrUart0 ∧
    0x00000000#32 ∉ [p.addrReset, p.addrDefault, p.addrUart0] ∧
    (∀ n, hasPend n = true → (∀ a, (n, .custom a) ∉ p.bind) → vectorFetch p seed ram n = some p.addrDefault) ∧
    (∀ n a, (n, .custom a) ∈ p.bind → a ≠ 0 ∧ vectorFetch p seed ram n = some a)

/-! ### Reset and the initializer -/

/-- The reset state (10_state.md R43, 70_reset_and_hazards.md R231) of every well-formed machine, whatever its
unspecified state powers on as; an ill-formed parameter set is given no run (00_scope.md R6). -/
def Obligations.ResetLeavesWhatTheRuleGives : Prop :=
  (∀ (p : Params) (u : PowerOn), p.wf = false → State.boot p u = .refused .illFormedParameters) ∧
  ∀ (p : Params) (u : PowerOn), p.wf = true →
    State.boot p u = .next (State.resetWith p u) ∧
    (State.resetWith p u).sp = p.stackTop ∧ (State.resetWith p u).pc = p.addrReset ∧
    (State.resetWith p u).stat = 0 ∧ (State.resetWith p u).mode = .copy ∧
    (State.resetWith p u).fg = { run := false, i := 0, w := 0, cr := false, src := p.dataSrcStart, dst := p.dataDstStart } ∧
    (∀ q, ((State.resetWith p u).queue q).cap = 0 ∧ ((State.resetWith p u).queue q).wr = 0 ∧
      ((State.resetWith p u).queue q).rd = 0 ∧ ((State.resetWith p u).queue q).cnt = 0) ∧
    (State.resetWith p u).tstate = .idle ∧
    (State.resetWith p u).uart.events = 0 ∧ (State.resetWith p u).uart.inten = 0 ∧
    (State.resetWith p u).uart.errorsrc = 0 ∧ (State.resetWith p u).uart.rxdValid = false ∧
    (State.resetWith p u).uart.enable = 0 ∧ (State.resetWith p u).uart.run = 0 ∧
    (State.resetWith p u).irq.active = 0 ∧ (State.resetWith p u).irq.pend = 0 ∧ (State.resetWith p u).irq.irqen = 0 ∧
    (State.resetWith p u).irq.halted = false ∧ icsr (State.resetWith p u) = 0 ∧
    (State.resetWith p u).logs.tx = [] ∧ (State.resetWith p u).logs.task = []

/-- The initializer's steps (70_reset_and_hazards.md R233, R234, R235). COPY: one word from fg.src to fg.dst and both
cursors advanced, the read checked before the write, a fault changing neither fg nor memory; at the end mode ZERO with
fg.dst at ZERO_START. ZERO: one zero word at fg.dst and the cursor advanced; at the end pc <- APP_ENTRY, mode <- RUN. -/
def Obligations.InitializerStepsAsRule : Prop :=
  ∀ s : State, fgEnabled s = true →
    (s.mode = .copy →
      (s.fg.src.toNat < s.par.dataSrcEnd.toNat →
        (memRead4 s s.fg.src = none →
          fgStep s =
            .next { s with irq := { s.irq with pend := s.irq.pend ||| BitVec.twoPow 47 5, faultinfo := s.fg.src } }) ∧
        (∀ v, memRead4 s s.fg.src = some v →
          (memWrite4 s s.fg.dst v = none →
            fgStep s =
              .next
                { s with irq := { s.irq with pend := s.irq.pend ||| BitVec.twoPow 47 5, faultinfo := s.fg.dst } }) ∧
          (∀ s1, memWrite4 s s.fg.dst v = some s1 →
            fgStep s = .next { s1 with fg := { s.fg with src := s.fg.src + 4, dst := s.fg.dst + 4 } }))) ∧
      (s.par.dataSrcEnd.toNat ≤ s.fg.src.toNat →
        fgStep s = .next { s with mode := .zero, fg := { s.fg with dst := s.par.zeroStart } })) ∧
    (s.mode = .zero →
      (s.fg.dst.toNat < s.par.zeroEnd.toNat →
        (memWrite4 s s.fg.dst 0x00000000#32 = none →
          fgStep s =
            .next { s with irq := { s.irq with pend := s.irq.pend ||| BitVec.twoPow 47 5, faultinfo := s.fg.dst } }) ∧
        (∀ s1, memWrite4 s s.fg.dst 0x00000000#32 = some s1 →
          fgStep s = .next { s1 with fg := { s.fg with dst := s.fg.dst + 4 } })) ∧
      (s.par.zeroEnd.toNat ≤ s.fg.dst.toNat →
        fgStep s = .next { s with pc := s.par.appEntry, mode := .run }))

/-- What holds when mode becomes RUN (R236): from reset of any well-formed machine, whatever its unspecified state, FG
alone reaches mode RUN at APP_ENTRY in exactly the number of steps the rule gives; then every copied byte equals its ROM
source unless it lies in the zero-fill region, every byte of that region is 0, every other RAM byte is as it was, and no
queue, UART or dispatcher state has changed. -/
def Obligations.InitializerEstablishesTheImage : Prop :=
  ∀ (p : Params) (u : PowerOn), p.wf = true →
    ∃ t,
      iterate fgStep
        ((p.dataSrcEnd.toNat - p.dataSrcStart.toNat) / 4 + 1 + (p.zeroEnd.toNat - p.zeroStart.toNat) / 4 + 1)
        (State.resetWith p u) = .next t ∧
      t = { State.resetWith p u with mode := .run, pc := p.appEntry, fg := t.fg, ram := t.ram } ∧
      t.fg.run = false ∧ t.fg.i = 0 ∧ t.fg.w = 0 ∧ t.fg.cr = false ∧
      (∀ k, p.dataSrcStart.toNat + k < p.dataSrcEnd.toNat →
        ¬ (p.zeroStart.toNat ≤ p.dataDstStart.toNat + k ∧ p.dataDstStart.toNat + k < p.zeroEnd.toNat) →
        memRead1 t (p.dataDstStart + BitVec.ofNat 32 k) = some (romByte p (p.dataSrcStart + BitVec.ofNat 32 k))) ∧
      (∀ a : Word, p.zeroStart.toNat ≤ a.toNat → a.toNat < p.zeroEnd.toNat → memRead1 t a = some 0x00#8) ∧
      (∀ a : Word, p.inRam a = true →
        ¬ (p.zeroStart.toNat ≤ a.toNat ∧ a.toNat < p.zeroEnd.toNat) →
        ¬ (p.dataDstStart.toNat ≤ a.toNat ∧ a.toNat < p.dataDstEnd.toNat) →
        memRead1 t a = memRead1 (State.resetWith p u) a)

/-! ### What every step keeps -/

/-- Every step, scheduled or not, of every state that meets Inv leads to a state that meets Inv. -/
def Obligations.EveryStepKeepsTheInvariant : Prop :=
  ∀ s t : State, Inv s → step s = .next t → Inv t

/-- Reset meets Inv, for every well-formed machine and whatever its unspecified state powers on as. -/
def Obligations.ResetMeetsTheInvariant : Prop :=
  ∀ (p : Params) (u : PowerOn), p.wf = true → Inv (State.resetWith p u)

/-- rxd_valid equals EVENTS.RXDRDY (44_uart_handler.md R182): both 0 at reset, and every step that starts with them equal
ends with them equal. -/
def Obligations.RxdValidIsTheReceiveFlag : Prop :=
  (∀ (p : Params) (u : PowerOn), (State.resetWith p u).uart.rxdValid = false ∧
    (State.resetWith p u).uart.events.getLsbD 1 = false) ∧
  ∀ s t : State, s.uart.rxdValid = s.uart.events.getLsbD 1 → step s = .next t →
    t.uart.rxdValid = t.uart.events.getLsbD 1

/-- The queue invariants (10_state.md R19) are kept by every step, from every state that meets them. -/
def Obligations.QueueInvariantsAreKept : Prop :=
  ∀ s t : State, s.txq.wf s.par.fifoMax → s.rxq.wf s.par.fifoMax → step s = .next t →
    t.txq.wf t.par.fifoMax ∧ t.rxq.wf t.par.fifoMax

/-- No step changes SP (10_state.md R14), the parameters, ROM among them (20_memory.md R66), or the name of the run's
draw. That unwritten RAM is one draw fixed for the run, named by State.seed, where 20_memory.md R51 and U6 also allow a
fault of the model, is the model's choice (log entry 4); so is that State carries the parameters (log entry 1). -/
def Obligations.SpRomAndParametersAreFixed : Prop :=
  ∀ s t : State, step s = .next t → t.sp = s.sp ∧ t.par = s.par ∧ t.seed = s.seed

/-- A machine that meets Inv and has no schedule is never stuck: its step is a next state (R238). That such a machine
chooses as SCHED_EAGER does, and idles where it is quiescent, is the model's choice (log entries 6 and 7). -/
def Obligations.UnscheduledMachineAlwaysSteps : Prop :=
  ∀ s : State, Inv s → s.sched = [] → ∃ t, step s = .next t ∧ t.sched = []
end

