-- ==== Sys2Proof/Laws/Bits.lean ====
section
/-! SUPPORT. What the bit writes make of each bit. -/

namespace Sys2Proof.Machine

theorem getLsbD_setBit {w : Nat} (v : BitVec w) (k j : Nat) :
    (setBit v k).getLsbD j = (v.getLsbD j || (decide (j < w) && decide (k = j))) := by
  by_cases hk : k = j
  · subst hk
    simp [setBit, BitVec.getLsbD_twoPow]
  · simp [setBit, BitVec.getLsbD_twoPow, hk]

theorem getLsbD_clearBit {w : Nat} (v : BitVec w) (k j : Nat) :
    (clearBit v k).getLsbD j = (v.getLsbD j && !decide (k = j)) := by
  by_cases h : j < w
  · by_cases hk : k = j
    · subst hk
      simp [clearBit, h]
    · have hj : ¬ j = k := fun e => hk e.symm
      simp [clearBit, h, hk, hj]
  · have : v.getLsbD j = false := BitVec.getLsbD_of_ge v j (by omega)
    simp [clearBit, this]

theorem getLsbD_writeBit {w : Nat} (v : BitVec w) (k j : Nat) (b : Bool) :
    (writeBit v k b).getLsbD j = if k = j ∧ j < w then b else v.getLsbD j := by
  cases b
  · show (clearBit v k).getLsbD j = _
    rw [getLsbD_clearBit]
    by_cases hj : j < w
    · by_cases hk : k = j <;> simp [hj, hk]
    · rw [BitVec.getLsbD_of_ge v j (by omega)]
      simp
  · show (setBit v k).getLsbD j = _
    rw [getLsbD_setBit]
    by_cases hk : k = j <;> by_cases hj : j < w <;> simp [hj, hk]

/-- Clearing a bit and writing its old value back changes nothing: the mask of a critical section is restored. -/
theorem writeBit_clearBit_restore {w : Nat} (v : BitVec w) (k : Nat) : writeBit (clearBit v k) k (v.getLsbD k) = v := by
  apply BitVec.eq_of_getLsbD_eq
  intro j hj
  rw [getLsbD_writeBit, getLsbD_clearBit]
  by_cases hk : k = j
  · subst hk
    simp [hj]
  · simp [hk]

/-! ### The masks of the UART registers' bits -/

theorem setBit_txdrdy (v : BitVec 4) : setBit v bitTxdrdy = v ||| 0b0001#4 := by simp [setBit, bitTxdrdy, BitVec.twoPow]
theorem setBit_rxdrdy (v : BitVec 4) : setBit v bitRxdrdy = v ||| 0b0010#4 := by simp [setBit, bitRxdrdy, BitVec.twoPow]
theorem setBit_rxto (v : BitVec 4) : setBit v bitRxto = v ||| 0b0100#4 := by simp [setBit, bitRxto, BitVec.twoPow]
theorem setBit_error (v : BitVec 4) : setBit v bitError = v ||| 0b1000#4 := by simp [setBit, bitError, BitVec.twoPow]
theorem clearBit_txdrdy (v : BitVec 4) : clearBit v bitTxdrdy = v &&& 0b1110#4 := by
  simp [clearBit, bitTxdrdy, BitVec.twoPow]
theorem clearBit_rxdrdy (v : BitVec 4) : clearBit v bitRxdrdy = v &&& 0b1101#4 := by
  simp [clearBit, bitRxdrdy, BitVec.twoPow]
theorem clearBit_rxto (v : BitVec 4) : clearBit v bitRxto = v &&& 0b1011#4 := by
  simp [clearBit, bitRxto, BitVec.twoPow]
theorem clearBit_error (v : BitVec 4) : clearBit v bitError = v &&& 0b0111#4 := by
  simp [clearBit, bitError, BitVec.twoPow]
theorem setBit_overrun (v : BitVec 3) : setBit v bitOverrun = v ||| 0b001#3 := by simp [setBit, bitOverrun, BitVec.twoPow]
theorem setBit_parityErr (v : BitVec 3) : setBit v bitParityErr = v ||| 0b010#3 := by
  simp [setBit, bitParityErr, BitVec.twoPow]
theorem setBit_framing (v : BitVec 3) : setBit v bitFraming = v ||| 0b100#3 := by simp [setBit, bitFraming, BitVec.twoPow]
theorem setBit_txrun (v : BitVec 2) : setBit v bitTxrun = v ||| 0b01#2 := by simp [setBit, bitTxrun, BitVec.twoPow]
theorem clearBit_txrun (v : BitVec 2) : clearBit v bitTxrun = v &&& 0b10#2 := by simp [clearBit, bitTxrun, BitVec.twoPow]

end Sys2Proof.Machine
end

