-- ==== Sys2Proof/Laws/Encoding.lean ====
section
/-! SUPPORT. Words and their bytes: taking a word apart and putting it together are inverse to each other. -/

namespace Sys2Proof

theorem wordOfBytes_byteOfWord (w : Word) :
    wordOfBytes (byteOfWord w 0) (byteOfWord w 1) (byteOfWord w 2) (byteOfWord w 3) = w := by
  apply BitVec.eq_of_getLsbD_eq
  intro j hj
  simp only [wordOfBytes, byteOfWord, BitVec.getLsbD_append, BitVec.getLsbD_extractLsb']
  interval_cases j <;> simp

theorem wordBytes_wordOfBytes (a b c d : Byte) : wordBytes (wordOfBytes a b c d) = [a, b, c, d] := by
  simp only [wordBytes, byteOfWord, wordOfBytes, List.cons.injEq, and_true]
  refine ⟨?_, ?_, ?_, ?_⟩ <;>
  · apply BitVec.eq_of_getLsbD_eq
    intro j hj
    simp only [BitVec.getLsbD_append, BitVec.getLsbD_extractLsb']
    interval_cases j <;> simp

/-- A row that is found is a row of the map whose test holds. -/
theorem findRow_some {w : Word} {r : OpRow} (h : findRow w = some r) : r ∈ opTable ∧ w &&& r.mask = r.bits := by
  unfold findRow at h
  exact ⟨List.mem_of_find?_eq_some h, by simpa [OpRow.selects] using List.find?_some h⟩

theorem findRow_none {w : Word} (h : ∀ r ∈ opTable, w &&& r.mask ≠ r.bits) : findRow w = none := by
  unfold findRow
  rw [List.find?_eq_none]
  intro r hr
  simpa [OpRow.selects] using h r hr

end Sys2Proof
end

