-- ==== Sys2Proof/Laws/Memory.lean ====
section
/-! SUPPORT. The laws of memory lists: a write is read back and leaves every other address alone, and every operation
keeps the canonical form. -/

namespace Sys2Proof

theorem find_put (m : Memory) (a b : Nat) (v : Byte) :
    (m.put a v).find b = if a = b then some v else m.find b := by
  induction m with
  | nil => simp [Memory.put, Memory.find]
  | cons c m ih =>
    obtain ⟨k, w⟩ := c
    by_cases h1 : a < k
    · simp [Memory.put, h1, Memory.find]
    · by_cases h2 : a = k
      · subst h2
        by_cases h3 : a = b <;> simp [Memory.put, Memory.find, h3]
      · by_cases h3 : k = b
        · subst h3
          simp [Memory.put, h1, h2, Memory.find]
        · simp [Memory.put, h1, h2, Memory.find, h3, ih]

/-- Reading RAM after a write of RAM. -/
theorem find_write_none (m : Memory) (a b : Nat) (v : Byte) :
    (m.write none a v).find b = if a = b then some v else m.find b := by
  simp [Memory.write, find_put]

/-- A RAM byte after one byte has been written. -/
theorem ramByte_write (seed : Nat) (m : Memory) (a b : Word) (v : Byte) :
    ramByte seed (m.write none a.toNat v) b = if b = a then v else ramByte seed m b := by
  simp only [ramByte, find_write_none]
  by_cases h : b = a
  · simp [h]
  · have : a.toNat ≠ b.toNat := fun e => h (BitVec.toNat_inj.1 e).symm
    simp [h, this]

theorem find_drop_other (m : Memory) (a b : Nat) (h : a ≠ b) : (m.drop a).find b = m.find b := by
  induction m with
  | nil => simp [Memory.drop]
  | cons c m ih =>
    obtain ⟨k, w⟩ := c
    by_cases h1 : k = a
    · subst h1
      simp [Memory.drop, Memory.find, h]
    · by_cases h2 : k = b
      · subst h2
        simp [Memory.drop, h1, Memory.find]
      · simp [Memory.drop, h1, Memory.find, h2, ih]

theorem mem_put (m : Memory) (a : Nat) (v : Byte) (c : Host.Cell) (h : c ∈ m.put a v) : c = (a, v) ∨ c ∈ m := by
  induction m with
  | nil => simpa [Memory.put] using h
  | cons d m ih =>
    obtain ⟨k, w⟩ := d
    simp only [Memory.put] at h
    split at h
    · simpa using h
    · split at h
      · rcases List.mem_cons.1 h with h | h
        · exact .inl h
        · exact .inr (List.mem_cons_of_mem _ h)
      · rcases List.mem_cons.1 h with h | h
        · exact .inr (h ▸ List.mem_cons_self)
        · rcases ih h with h | h
          · exact .inl h
          · exact .inr (List.mem_cons_of_mem _ h)

theorem drop_sublist (m : Memory) (a : Nat) : (m.drop a).Sublist m := by
  induction m with
  | nil => exact List.Sublist.slnil
  | cons d m ih =>
    obtain ⟨k, w⟩ := d
    simp only [Memory.drop]
    split
    · exact List.sublist_cons_self _ _
    · exact ih.cons_cons _

theorem put_rising (m : Memory) (a : Nat) (v : Byte) (h : m.Pairwise (fun x y => x.1 < y.1)) :
    (m.put a v).Pairwise (fun x y => x.1 < y.1) := by
  induction m with
  | nil => simp [Memory.put]
  | cons d m ih =>
    obtain ⟨k, w⟩ := d
    obtain ⟨hk, hm⟩ := List.pairwise_cons.1 h
    simp only [Memory.put]
    split
    · rename_i hlt
      refine List.pairwise_cons.2 ⟨fun c hc => ?_, h⟩
      rcases List.mem_cons.1 hc with rfl | hc
      · exact hlt
      · exact Nat.lt_trans hlt (hk c hc)
    · split
      · rename_i heq
        subst heq
        exact List.pairwise_cons.2 ⟨hk, hm⟩
      · rename_i h1 h2
        refine List.pairwise_cons.2 ⟨fun c hc => ?_, ih hm⟩
        rcases mem_put m a v c hc with rfl | hc
        · show k < a
          omega
        · exact hk c hc

/-- Every write keeps the canonical form, whatever an unlisted address reads as. -/
theorem write_keeps_wf (unlisted : Option Byte) (m : Memory) (a : Nat) (v : Byte) (h : Memory.wf unlisted m) :
    Memory.wf unlisted (m.write unlisted a v) := by
  obtain ⟨hr, hv⟩ := h
  by_cases hu : unlisted = some v
  · simp only [Memory.write, hu, if_true]
    exact ⟨hr.sublist (drop_sublist m a), fun c hc => hu ▸ hv c ((drop_sublist m a).subset hc)⟩
  · simp only [Memory.write, hu, if_false]
    refine ⟨put_rising m a v hr, fun c hc => ?_⟩
    rcases mem_put m a v c hc with rfl | hc
    · exact hu
    · exact hv c hc

/-- RAM with nothing listed, as at reset, is in canonical form. -/
theorem empty_wf (unlisted : Option Byte) : Memory.wf unlisted [] := ⟨List.Pairwise.nil, by simp⟩

theorem busWrite1_keeps_wf {p : Params} {ram m : Memory} {a : Word} {v : Byte} (h : Memory.wf none ram)
    (hw : busWrite1 p ram a v = some m) : Memory.wf none m := by
  simp only [busWrite1] at hw
  split at hw
  · obtain rfl := Option.some.inj hw
    exact write_keeps_wf none ram _ v h
  · simp at hw

theorem busWrite4_keeps_wf {p : Params} {ram m : Memory} {a v : Word} (h : Memory.wf none ram)
    (hw : busWrite4 p ram a v = some m) : Memory.wf none m := by
  simp only [busWrite4] at hw
  split at hw
  · obtain rfl := Option.some.inj hw
    exact write_keeps_wf none _ _ _ (write_keeps_wf none _ _ _ (write_keeps_wf none _ _ _ (write_keeps_wf none _ _ _ h)))
  · simp at hw

/-- Placing bytes in a ROM image keeps its canonical form. -/
theorem romStore_keeps_wf (bs : List Byte) (rom : Memory) (a : Nat) (h : Memory.wf (some Config.romFill) rom) :
    Memory.wf (some Config.romFill) (romStore rom a bs) := by
  induction bs generalizing rom a with
  | nil => exact h
  | cons b bs ih => exact ih _ _ (write_keeps_wf _ rom a b h)

/-- Two RAM contents in canonical form that say the same at every address are the same list. -/
theorem wf_ext (m n : Memory) (hm : m.Pairwise (fun x y => x.1 < y.1)) (hn : n.Pairwise (fun x y => x.1 < y.1))
    (h : ∀ a, m.find a = n.find a) : m = n := by
  have low : ∀ (l : Memory) (a : Nat), (∀ c ∈ l, a < c.1) → l.find a = none := by
    intro l a hl
    induction l with
    | nil => rfl
    | cons c l ih =>
      have hc : c.1 ≠ a := Nat.ne_of_gt (hl c List.mem_cons_self)
      simp only [Memory.find, hc, if_false]
      exact ih fun d hd => hl d (List.mem_cons_of_mem _ hd)
  induction m generalizing n with
  | nil =>
    cases n with
    | nil => rfl
    | cons d n => simpa [Memory.find] using h d.1
  | cons c m ih =>
    cases n with
    | nil => simpa [Memory.find] using h c.1
    | cons d n =>
      obtain ⟨hc, hm'⟩ := List.pairwise_cons.1 hm
      obtain ⟨hd, hn'⟩ := List.pairwise_cons.1 hn
      have hcd : c.1 = d.1 := by
        rcases Nat.lt_trichotomy c.1 d.1 with hlt | heq | hgt
        · have h1 := h c.1
          have h2 : Memory.find (d :: n) c.1 = none :=
            low _ _ fun e he => by
              rcases List.mem_cons.1 he with rfl | he
              · exact hlt
              · exact Nat.lt_trans hlt (hd e he)
          rw [h2] at h1
          simp [Memory.find] at h1
        · exact heq
        · have h1 := h d.1
          have h2 : Memory.find (c :: m) d.1 = none :=
            low _ _ fun e he => by
              rcases List.mem_cons.1 he with rfl | he
              · exact hgt
              · exact Nat.lt_trans hgt (hc e he)
          rw [h2] at h1
          simp [Memory.find] at h1
      have hv : c.2 = d.2 := by simpa [Memory.find, hcd] using h c.1
      have hrest : m = n := by
        refine ih n hm' hn' fun a => ?_
        by_cases ha : c.1 = a
        · rw [low m a fun e he => ha ▸ hc e he, low n a fun e he => (ha ▸ hcd ▸ hd e he)]
        · have h1 := h a
          have ha' : d.1 ≠ a := fun hda => ha (hcd.trans hda)
          simpa [Memory.find, ha, ha'] using h1
      rw [hrest, Prod.ext hcd hv]

end Sys2Proof
end

