-- ==== Sys2Proof/Laws/PerInstr.lean ====
section
/-! SUPPORT. One lemma per command for the family EncodedLength: the length of a command is told by its opcode
(30_encoding.md R72), and the encoder writes exactly that many bytes. -/

/-- The opcode field of the first word of a command (R71). -/
def Sys2Proof.Laws.EncodedLength.opcode (i : Sys2Proof.Instr) : BitVec 8 :=
  ((Sys2Proof.encode i).headD 0).extractLsb' 24 8

/-- Opcodes 0x30, 0x33, 0x34, 0x35, 0x36 are 8 bytes long and every other legal opcode 4 (R72). -/
def Sys2Proof.Laws.EncodedLength.Statement (i : Sys2Proof.Instr) : Prop :=
  (Sys2Proof.encodeBytes i).length = i.length ∧
  i.length = if Sys2Proof.Laws.EncodedLength.opcode i ∈ [0x30#8, 0x33#8, 0x34#8, 0x35#8, 0x36#8] then 8 else 4

namespace Sys2Proof.Laws.EncodedLength

/-- The opcode of a first word is its top byte, whatever the other fields. -/
theorem opcode_formatS (op a : BitVec 8) (imm : BitVec 16) : (formatS op a imm).extractLsb' 24 8 = op := by
  apply BitVec.eq_of_getLsbD_eq
  intro j hj
  have h1 : ¬ 24 + j < 16 := by omega
  have h2 : ¬ 24 + j - 16 < 8 := by omega
  have h3 : 24 + j - 16 - 8 = j := by omega
  simp only [formatS, BitVec.getLsbD_extractLsb', BitVec.getLsbD_append, h1, h2, h3, hj, decide_true, Bool.true_and,
    if_false]

theorem of_one (i : Instr) (op a : BitVec 8) (imm : BitVec 16) (h : encode i = [formatS op a imm])
    (ho : op ∉ [0x30#8, 0x33#8, 0x34#8, 0x35#8, 0x36#8]) : Statement i := by
  have e : opcode i = op := by simp [opcode, h, opcode_formatS]
  refine ⟨?_, ?_⟩
  · simp [encodeBytes, Instr.length, h, wordBytes]
  · rw [e, if_neg ho]
    simp [Instr.length, h]

theorem of_two (i : Instr) (op a : BitVec 8) (imm : BitVec 16) (w : Word) (h : encode i = [formatS op a imm, w])
    (ho : op ∈ [0x30#8, 0x33#8, 0x34#8, 0x35#8, 0x36#8]) : Statement i := by
  have e : opcode i = op := by simp [opcode, h, opcode_formatS]
  refine ⟨?_, ?_⟩
  · simp [encodeBytes, Instr.length, h, wordBytes]
  · rw [e, if_pos ho]
    simp [Instr.length, h]

theorem endCmd : Statement .endCmd := of_one _ _ _ _ rfl (by decide)
theorem fcreate (q : QId) (cap : BitVec 16) : Statement (.fcreate q cap) := of_one _ _ _ _ rfl (by decide)
theorem fwrite (q : QId) (byte : Byte) : Statement (.fwrite q byte) := of_one _ _ _ _ rfl (by decide)
theorem fread (q : QId) : Statement (.fread q) := of_one _ _ _ _ rfl (by decide)
theorem ffull (q : QId) : Statement (.ffull q) := of_one _ _ _ _ rfl (by decide)
theorem fempty (q : QId) : Statement (.fempty q) := of_one _ _ _ _ rfl (by decide)
theorem favail (q : QId) : Statement (.favail q) := of_one _ _ _ _ rfl (by decide)
theorem imask (n : BitVec 6) : Statement (.imask n) := of_one _ _ _ _ rfl (by decide)
theorem iunmask (n : BitVec 6) : Statement (.iunmask n) := of_one _ _ _ _ rfl (by decide)
theorem intset (mask : BitVec 4) : Statement (.intset mask) := of_one _ _ _ _ rfl (by decide)
theorem intclr (mask : BitVec 4) : Statement (.intclr mask) := of_one _ _ _ _ rfl (by decide)
theorem configure (rx tx rts cts sel : Byte) (parity flow : Bool) : Statement (.configure rx tx rts cts sel parity flow) :=
  of_two _ _ _ _ _ rfl (by decide)
theorem putc (byte : Byte) : Statement (.putc byte) := of_one _ _ _ _ rfl (by decide)
theorem getc : Statement .getc := of_one _ _ _ _ rfl (by decide)
theorem puts (addr : Word) (len : BitVec 16) : Statement (.puts addr len) := of_two _ _ _ _ _ rfl (by decide)
theorem putz (addr : Word) : Statement (.putz addr) := of_two _ _ _ _ _ rfl (by decide)
theorem send (addr : Word) (len : BitVec 16) : Statement (.send addr len) := of_two _ _ _ _ _ rfl (by decide)
theorem recv (addr : Word) (max : BitVec 16) : Statement (.recv addr max) := of_two _ _ _ _ _ rfl (by decide)

end Sys2Proof.Laws.EncodedLength
end

