-- ==== Sys2Proof/Laws/Runs.lean ====
section
/-! SUPPORT. What runs are made of: a finite run is a whole run that has ended, a run that has ended is fair to IRQ and
FG, and a run visits reachable states only. -/

namespace Sys2Proof.Machine

/-- The named steps lead somewhere only if each answers a next state. -/
theorem performAll_cons {m : Move} {ms : List Move} {s final : State} (h : performAll (m :: ms) s = .next final) :
    ∃ t, perform m s = .next t ∧ performAll ms t = .next final := by
  simp only [performAll] at h
  split at h
  · exact ⟨_, ‹_›, h⟩
  · simp at h
  · simp at h

theorem stateAfter_zero (ms : List Move) (s : State) : stateAfter ms s 0 = s := by cases ms <;> rfl

theorem stateAfter_succ {m : Move} {s t : State} (h : perform m s = .next t) (ms : List Move) (k : Nat) :
    stateAfter (m :: ms) s (k + 1) = stateAfter ms t k := by simp only [stateAfter, h]

/-- Each named step leads from the state after those before it to the state after it. -/
theorem stateAfter_step {ms : List Move} {s final : State} (h : performAll ms s = .next final) (k : Nat) (m : Move)
    (hk : ms[k]? = some m) : perform m (stateAfter ms s k) = .next (stateAfter ms s (k + 1)) := by
  induction ms generalizing s k with
  | nil => simp at hk
  | cons m0 ms ih =>
    obtain ⟨t, ht, hr⟩ := performAll_cons h
    cases k with
    | zero =>
      obtain rfl : m0 = m := by simpa using hk
      rw [stateAfter_succ ht, stateAfter_zero, stateAfter_zero, ht]
    | succ k =>
      rw [stateAfter_succ ht, stateAfter_succ ht]
      exact ih hr k (by simpa using hk)

/-- After the last named step nothing moves. -/
theorem stateAfter_end {ms : List Move} {s final : State} (h : performAll ms s = .next final) (k : Nat)
    (hk : ms.length ≤ k) : stateAfter ms s k = final := by
  induction ms generalizing s k with
  | nil => simpa [performAll, stateAfter] using h
  | cons m ms ih =>
    obtain ⟨t, ht, hr⟩ := performAll_cons h
    obtain ⟨k, rfl⟩ : ∃ j, k = j + 1 := ⟨k - 1, by simp at hk; omega⟩
    rw [stateAfter_succ ht]
    exact ih hr k (by simpa using hk)

/-- A finite run is a whole run: its steps, then nothing (R249). -/
theorem finite_run_is_run {ms : List Move} {final : State} (h : IsFiniteRun ms final) :
    ∃ states, IsRun states (fun k => ms[k]?) ∧ ∀ k, ms.length ≤ k → states k = final := by
  obtain ⟨p, u, hp, hr⟩ := h.run
  refine ⟨stateAfter ms (State.resetWith p u), ⟨⟨p, u, hp, stateAfter_zero ..⟩, stateAfter_step hr, fun k hk => ?_⟩,
    stateAfter_end hr⟩
  have hl : ms.length ≤ k := List.getElem?_eq_none_iff.1 hk
  rw [stateAfter_end hr k hl, stateAfter_end hr (k + 1) (Nat.le_succ_of_le hl)]
  exact ⟨h.quiescent, rfl, List.getElem?_eq_none_iff.2 (Nat.le_succ_of_le hl)⟩

/-- A run that has ended stays where it ended. -/
theorem ended_run_stays {states : Nat → State} {moves : Nat → Option Move} (h : IsRun states moves) {k : Nat}
    (hk : moves k = none) (j : Nat) : moves (k + j) = none ∧ states (k + j) = states k := by
  induction j with
  | zero => exact ⟨hk, rfl⟩
  | succ j ih =>
    obtain ⟨-, hs, hm⟩ := h.ended (k + j) ih.1
    exact ⟨hm, hs.trans ih.2⟩

/-- A run that has ended is fair to IRQ and to FG (R248 a, b), whatever LINE and EXT did before: R248 c asks no step of
them. -/
theorem ended_run_is_fair {states : Nat → State} {moves : Nat → Option Move} (h : IsRun states moves) {k : Nat}
    (hk : moves k = none) : irqFair states moves ∧ fgFair states moves := by
  have hq : ∀ j, fgEnabled (states (k + j)) = false ∧ irqEnabled (states (k + j)) = false := fun j => by
    have := (h.ended (k + j) (ended_run_stays h hk j).1).1
    simpa [quiescent] using this
  exact ⟨fun j => ⟨k + j, Nat.le_add_left j k, .inl (hq j).2⟩, fun j => ⟨k + j, Nat.le_add_left j k, .inl (hq j).1⟩⟩

/-- Every state of a run is reachable. -/
theorem run_reachable {states : Nat → State} {moves : Nat → Option Move} (h : IsRun states moves) (k : Nat) :
    Reachable (states k) := by
  induction k with
  | zero =>
    obtain ⟨p, u, hp, hs⟩ := h.start
    exact hs ▸ .boot p u hp
  | succ k ih =>
    cases hm : moves k with
    | none => exact (h.ended k hm).2.1 ▸ ih
    | some m => exact .step _ _ m ih (h.steps k m hm)

end Sys2Proof.Machine
end

