-- ==== Sys2Proof/Laws/State.lean ====
section
/-! SUPPORT. One lemma per field per named update of State: what the update makes of the field. Each is true by
definition, so that no later proof unfolds a record update. -/

namespace Sys2Proof.Machine

/-! ### complete -/

@[simp] theorem complete_par (len : Word) (st : Status) (s : State) : (complete len st s).par = s.par := rfl
@[simp] theorem complete_seed (len : Word) (st : Status) (s : State) : (complete len st s).seed = s.seed := rfl
@[simp] theorem complete_sched (len : Word) (st : Status) (s : State) : (complete len st s).sched = s.sched := rfl
@[simp] theorem complete_pc (len : Word) (st : Status) (s : State) : (complete len st s).pc = s.pc + len := rfl
@[simp] theorem complete_res (len : Word) (st : Status) (s : State) : (complete len st s).res = s.res := rfl
@[simp] theorem complete_stat (len : Word) (st : Status) (s : State) : (complete len st s).stat = st.code := rfl
@[simp] theorem complete_sp (len : Word) (st : Status) (s : State) : (complete len st s).sp = s.sp := rfl
@[simp] theorem complete_mode (len : Word) (st : Status) (s : State) : (complete len st s).mode = s.mode := rfl
@[simp] theorem complete_fg (len : Word) (st : Status) (s : State) :
    (complete len st s).fg = { s.fg with run := false } := rfl
@[simp] theorem complete_txq (len : Word) (st : Status) (s : State) : (complete len st s).txq = s.txq := rfl
@[simp] theorem complete_rxq (len : Word) (st : Status) (s : State) : (complete len st s).rxq = s.rxq := rfl
@[simp] theorem complete_tstate (len : Word) (st : Status) (s : State) :
    (complete len st s).tstate = s.tstate := rfl
@[simp] theorem complete_uart (len : Word) (st : Status) (s : State) : (complete len st s).uart = s.uart := rfl
@[simp] theorem complete_irq (len : Word) (st : Status) (s : State) : (complete len st s).irq = s.irq := rfl
@[simp] theorem complete_ram (len : Word) (st : Status) (s : State) : (complete len st s).ram = s.ram := rfl
@[simp] theorem complete_logs (len : Word) (st : Status) (s : State) : (complete len st s).logs = s.logs := rfl

/-! ### setRes -/

@[simp] theorem setRes_par (v : Word) (s : State) : (setRes v s).par = s.par := rfl
@[simp] theorem setRes_seed (v : Word) (s : State) : (setRes v s).seed = s.seed := rfl
@[simp] theorem setRes_sched (v : Word) (s : State) : (setRes v s).sched = s.sched := rfl
@[simp] theorem setRes_pc (v : Word) (s : State) : (setRes v s).pc = s.pc := rfl
@[simp] theorem setRes_res (v : Word) (s : State) : (setRes v s).res = v := rfl
@[simp] theorem setRes_stat (v : Word) (s : State) : (setRes v s).stat = s.stat := rfl
@[simp] theorem setRes_sp (v : Word) (s : State) : (setRes v s).sp = s.sp := rfl
@[simp] theorem setRes_mode (v : Word) (s : State) : (setRes v s).mode = s.mode := rfl
@[simp] theorem setRes_fg (v : Word) (s : State) : (setRes v s).fg = s.fg := rfl
@[simp] theorem setRes_txq (v : Word) (s : State) : (setRes v s).txq = s.txq := rfl
@[simp] theorem setRes_rxq (v : Word) (s : State) : (setRes v s).rxq = s.rxq := rfl
@[simp] theorem setRes_tstate (v : Word) (s : State) : (setRes v s).tstate = s.tstate := rfl
@[simp] theorem setRes_uart (v : Word) (s : State) : (setRes v s).uart = s.uart := rfl
@[simp] theorem setRes_irq (v : Word) (s : State) : (setRes v s).irq = s.irq := rfl
@[simp] theorem setRes_ram (v : Word) (s : State) : (setRes v s).ram = s.ram := rfl
@[simp] theorem setRes_logs (v : Word) (s : State) : (setRes v s).logs = s.logs := rfl

/-! ### raiseBusFault -/

@[simp] theorem raiseBusFault_par (a : Word) (s : State) : (raiseBusFault a s).par = s.par := rfl
@[simp] theorem raiseBusFault_seed (a : Word) (s : State) : (raiseBusFault a s).seed = s.seed := rfl
@[simp] theorem raiseBusFault_sched (a : Word) (s : State) : (raiseBusFault a s).sched = s.sched := rfl
@[simp] theorem raiseBusFault_pc (a : Word) (s : State) : (raiseBusFault a s).pc = s.pc := rfl
@[simp] theorem raiseBusFault_res (a : Word) (s : State) : (raiseBusFault a s).res = s.res := rfl
@[simp] theorem raiseBusFault_stat (a : Word) (s : State) : (raiseBusFault a s).stat = s.stat := rfl
@[simp] theorem raiseBusFault_sp (a : Word) (s : State) : (raiseBusFault a s).sp = s.sp := rfl
@[simp] theorem raiseBusFault_mode (a : Word) (s : State) : (raiseBusFault a s).mode = s.mode := rfl
@[simp] theorem raiseBusFault_fg (a : Word) (s : State) : (raiseBusFault a s).fg = s.fg := rfl
@[simp] theorem raiseBusFault_txq (a : Word) (s : State) : (raiseBusFault a s).txq = s.txq := rfl
@[simp] theorem raiseBusFault_rxq (a : Word) (s : State) : (raiseBusFault a s).rxq = s.rxq := rfl
@[simp] theorem raiseBusFault_tstate (a : Word) (s : State) : (raiseBusFault a s).tstate = s.tstate := rfl
@[simp] theorem raiseBusFault_uart (a : Word) (s : State) : (raiseBusFault a s).uart = s.uart := rfl
@[simp] theorem raiseBusFault_irq (a : Word) (s : State) :
    (raiseBusFault a s).irq = { s.irq with pend := setBit s.irq.pend excBusFault, faultinfo := a } := rfl
@[simp] theorem raiseBusFault_ram (a : Word) (s : State) : (raiseBusFault a s).ram = s.ram := rfl
@[simp] theorem raiseBusFault_logs (a : Word) (s : State) : (raiseBusFault a s).logs = s.logs := rfl

/-! ### raiseUsageFault -/

@[simp] theorem raiseUsageFault_par (a : Word) (s : State) : (raiseUsageFault a s).par = s.par := rfl
@[simp] theorem raiseUsageFault_seed (a : Word) (s : State) : (raiseUsageFault a s).seed = s.seed := rfl
@[simp] theorem raiseUsageFault_sched (a : Word) (s : State) : (raiseUsageFault a s).sched = s.sched := rfl
@[simp] theorem raiseUsageFault_pc (a : Word) (s : State) : (raiseUsageFault a s).pc = s.pc := rfl
@[simp] theorem raiseUsageFault_res (a : Word) (s : State) : (raiseUsageFault a s).res = s.res := rfl
@[simp] theorem raiseUsageFault_stat (a : Word) (s : State) : (raiseUsageFault a s).stat = s.stat := rfl
@[simp] theorem raiseUsageFault_sp (a : Word) (s : State) : (raiseUsageFault a s).sp = s.sp := rfl
@[simp] theorem raiseUsageFault_mode (a : Word) (s : State) : (raiseUsageFault a s).mode = s.mode := rfl
@[simp] theorem raiseUsageFault_fg (a : Word) (s : State) : (raiseUsageFault a s).fg = s.fg := rfl
@[simp] theorem raiseUsageFault_txq (a : Word) (s : State) : (raiseUsageFault a s).txq = s.txq := rfl
@[simp] theorem raiseUsageFault_rxq (a : Word) (s : State) : (raiseUsageFault a s).rxq = s.rxq := rfl
@[simp] theorem raiseUsageFault_tstate (a : Word) (s : State) : (raiseUsageFault a s).tstate = s.tstate := rfl
@[simp] theorem raiseUsageFault_uart (a : Word) (s : State) : (raiseUsageFault a s).uart = s.uart := rfl
@[simp] theorem raiseUsageFault_irq (a : Word) (s : State) :
    (raiseUsageFault a s).irq = { s.irq with pend := setBit s.irq.pend excUsageFault, faultinfo := a } := rfl
@[simp] theorem raiseUsageFault_ram (a : Word) (s : State) : (raiseUsageFault a s).ram = s.ram := rfl
@[simp] theorem raiseUsageFault_logs (a : Word) (s : State) : (raiseUsageFault a s).logs = s.logs := rfl

/-! ### returnFromHandler -/

@[simp] theorem returnFromHandler_par (s : State) : (returnFromHandler s).par = s.par := rfl
@[simp] theorem returnFromHandler_seed (s : State) : (returnFromHandler s).seed = s.seed := rfl
@[simp] theorem returnFromHandler_sched (s : State) : (returnFromHandler s).sched = s.sched := rfl
@[simp] theorem returnFromHandler_pc (s : State) : (returnFromHandler s).pc = s.pc := rfl
@[simp] theorem returnFromHandler_res (s : State) : (returnFromHandler s).res = s.res := rfl
@[simp] theorem returnFromHandler_stat (s : State) : (returnFromHandler s).stat = s.stat := rfl
@[simp] theorem returnFromHandler_sp (s : State) : (returnFromHandler s).sp = s.sp := rfl
@[simp] theorem returnFromHandler_mode (s : State) : (returnFromHandler s).mode = s.mode := rfl
@[simp] theorem returnFromHandler_fg (s : State) : (returnFromHandler s).fg = s.fg := rfl
@[simp] theorem returnFromHandler_txq (s : State) : (returnFromHandler s).txq = s.txq := rfl
@[simp] theorem returnFromHandler_rxq (s : State) : (returnFromHandler s).rxq = s.rxq := rfl
@[simp] theorem returnFromHandler_tstate (s : State) : (returnFromHandler s).tstate = s.tstate := rfl
@[simp] theorem returnFromHandler_uart (s : State) : (returnFromHandler s).uart = s.uart := rfl
@[simp] theorem returnFromHandler_irq (s : State) : (returnFromHandler s).irq = { s.irq with active := 0 } := rfl
@[simp] theorem returnFromHandler_ram (s : State) : (returnFromHandler s).ram = s.ram := rfl
@[simp] theorem returnFromHandler_logs (s : State) : (returnFromHandler s).logs = s.logs := rfl

/-! ### setEvent -/

@[simp] theorem setEvent_par (k : Nat) (s : State) : (setEvent k s).par = s.par := rfl
@[simp] theorem setEvent_seed (k : Nat) (s : State) : (setEvent k s).seed = s.seed := rfl
@[simp] theorem setEvent_sched (k : Nat) (s : State) : (setEvent k s).sched = s.sched := rfl
@[simp] theorem setEvent_pc (k : Nat) (s : State) : (setEvent k s).pc = s.pc := rfl
@[simp] theorem setEvent_res (k : Nat) (s : State) : (setEvent k s).res = s.res := rfl
@[simp] theorem setEvent_stat (k : Nat) (s : State) : (setEvent k s).stat = s.stat := rfl
@[simp] theorem setEvent_sp (k : Nat) (s : State) : (setEvent k s).sp = s.sp := rfl
@[simp] theorem setEvent_mode (k : Nat) (s : State) : (setEvent k s).mode = s.mode := rfl
@[simp] theorem setEvent_fg (k : Nat) (s : State) : (setEvent k s).fg = s.fg := rfl
@[simp] theorem setEvent_txq (k : Nat) (s : State) : (setEvent k s).txq = s.txq := rfl
@[simp] theorem setEvent_rxq (k : Nat) (s : State) : (setEvent k s).rxq = s.rxq := rfl
@[simp] theorem setEvent_tstate (k : Nat) (s : State) : (setEvent k s).tstate = s.tstate := rfl
@[simp] theorem setEvent_uart (k : Nat) (s : State) :
    (setEvent k s).uart = { s.uart with events := setBit s.uart.events k } := rfl
@[simp] theorem setEvent_irq (k : Nat) (s : State) : (setEvent k s).irq = s.irq := rfl
@[simp] theorem setEvent_ram (k : Nat) (s : State) : (setEvent k s).ram = s.ram := rfl
@[simp] theorem setEvent_logs (k : Nat) (s : State) : (setEvent k s).logs = s.logs := rfl

/-! ### clearEvent -/

@[simp] theorem clearEvent_par (k : Nat) (s : State) : (clearEvent k s).par = s.par := rfl
@[simp] theorem clearEvent_seed (k : Nat) (s : State) : (clearEvent k s).seed = s.seed := rfl
@[simp] theorem clearEvent_sched (k : Nat) (s : State) : (clearEvent k s).sched = s.sched := rfl
@[simp] theorem clearEvent_pc (k : Nat) (s : State) : (clearEvent k s).pc = s.pc := rfl
@[simp] theorem clearEvent_res (k : Nat) (s : State) : (clearEvent k s).res = s.res := rfl
@[simp] theorem clearEvent_stat (k : Nat) (s : State) : (clearEvent k s).stat = s.stat := rfl
@[simp] theorem clearEvent_sp (k : Nat) (s : State) : (clearEvent k s).sp = s.sp := rfl
@[simp] theorem clearEvent_mode (k : Nat) (s : State) : (clearEvent k s).mode = s.mode := rfl
@[simp] theorem clearEvent_fg (k : Nat) (s : State) : (clearEvent k s).fg = s.fg := rfl
@[simp] theorem clearEvent_txq (k : Nat) (s : State) : (clearEvent k s).txq = s.txq := rfl
@[simp] theorem clearEvent_rxq (k : Nat) (s : State) : (clearEvent k s).rxq = s.rxq := rfl
@[simp] theorem clearEvent_tstate (k : Nat) (s : State) : (clearEvent k s).tstate = s.tstate := rfl
@[simp] theorem clearEvent_uart (k : Nat) (s : State) :
    (clearEvent k s).uart = { s.uart with events := clearBit s.uart.events k } := rfl
@[simp] theorem clearEvent_irq (k : Nat) (s : State) : (clearEvent k s).irq = s.irq := rfl
@[simp] theorem clearEvent_ram (k : Nat) (s : State) : (clearEvent k s).ram = s.ram := rfl
@[simp] theorem clearEvent_logs (k : Nat) (s : State) : (clearEvent k s).logs = s.logs := rfl

/-! ### setIrqen -/

@[simp] theorem setIrqen_par (n : Nat) (b : Bool) (s : State) : (setIrqen n b s).par = s.par := rfl
@[simp] theorem setIrqen_seed (n : Nat) (b : Bool) (s : State) : (setIrqen n b s).seed = s.seed := rfl
@[simp] theorem setIrqen_sched (n : Nat) (b : Bool) (s : State) : (setIrqen n b s).sched = s.sched := rfl
@[simp] theorem setIrqen_pc (n : Nat) (b : Bool) (s : State) : (setIrqen n b s).pc = s.pc := rfl
@[simp] theorem setIrqen_res (n : Nat) (b : Bool) (s : State) : (setIrqen n b s).res = s.res := rfl
@[simp] theorem setIrqen_stat (n : Nat) (b : Bool) (s : State) : (setIrqen n b s).stat = s.stat := rfl
@[simp] theorem setIrqen_sp (n : Nat) (b : Bool) (s : State) : (setIrqen n b s).sp = s.sp := rfl
@[simp] theorem setIrqen_mode (n : Nat) (b : Bool) (s : State) : (setIrqen n b s).mode = s.mode := rfl
@[simp] theorem setIrqen_fg (n : Nat) (b : Bool) (s : State) : (setIrqen n b s).fg = s.fg := rfl
@[simp] theorem setIrqen_txq (n : Nat) (b : Bool) (s : State) : (setIrqen n b s).txq = s.txq := rfl
@[simp] theorem setIrqen_rxq (n : Nat) (b : Bool) (s : State) : (setIrqen n b s).rxq = s.rxq := rfl
@[simp] theorem setIrqen_tstate (n : Nat) (b : Bool) (s : State) : (setIrqen n b s).tstate = s.tstate := rfl
@[simp] theorem setIrqen_uart (n : Nat) (b : Bool) (s : State) : (setIrqen n b s).uart = s.uart := rfl
@[simp] theorem setIrqen_irq (n : Nat) (b : Bool) (s : State) :
    (setIrqen n b s).irq = { s.irq with irqen := writeBit s.irq.irqen n b } := rfl
@[simp] theorem setIrqen_ram (n : Nat) (b : Bool) (s : State) : (setIrqen n b s).ram = s.ram := rfl
@[simp] theorem setIrqen_logs (n : Nat) (b : Bool) (s : State) : (setIrqen n b s).logs = s.logs := rfl

/-! ### txdWrite -/

@[simp] theorem txdWrite_par (b : Byte) (s : State) : (txdWrite b s).par = s.par := rfl
@[simp] theorem txdWrite_seed (b : Byte) (s : State) : (txdWrite b s).seed = s.seed := rfl
@[simp] theorem txdWrite_sched (b : Byte) (s : State) : (txdWrite b s).sched = s.sched := rfl
@[simp] theorem txdWrite_pc (b : Byte) (s : State) : (txdWrite b s).pc = s.pc := rfl
@[simp] theorem txdWrite_res (b : Byte) (s : State) : (txdWrite b s).res = s.res := rfl
@[simp] theorem txdWrite_stat (b : Byte) (s : State) : (txdWrite b s).stat = s.stat := rfl
@[simp] theorem txdWrite_sp (b : Byte) (s : State) : (txdWrite b s).sp = s.sp := rfl
@[simp] theorem txdWrite_mode (b : Byte) (s : State) : (txdWrite b s).mode = s.mode := rfl
@[simp] theorem txdWrite_fg (b : Byte) (s : State) : (txdWrite b s).fg = s.fg := rfl
@[simp] theorem txdWrite_txq (b : Byte) (s : State) : (txdWrite b s).txq = s.txq := rfl
@[simp] theorem txdWrite_rxq (b : Byte) (s : State) : (txdWrite b s).rxq = s.rxq := rfl
@[simp] theorem txdWrite_tstate (b : Byte) (s : State) : (txdWrite b s).tstate = s.tstate := rfl
@[simp] theorem txdWrite_uart (b : Byte) (s : State) : (txdWrite b s).uart = { s.uart with txd := b } := rfl
@[simp] theorem txdWrite_irq (b : Byte) (s : State) : (txdWrite b s).irq = s.irq := rfl
@[simp] theorem txdWrite_ram (b : Byte) (s : State) : (txdWrite b s).ram = s.ram := rfl
@[simp] theorem txdWrite_logs (b : Byte) (s : State) :
    (txdWrite b s).logs = { s.logs with tx := s.logs.tx ++ [b], txOwed := s.logs.txOwed + 1 } := rfl

/-! ### rxdRead -/

@[simp] theorem rxdRead_par (s : State) : (rxdRead s).par = s.par := rfl
@[simp] theorem rxdRead_seed (s : State) : (rxdRead s).seed = s.seed := rfl
@[simp] theorem rxdRead_sched (s : State) : (rxdRead s).sched = s.sched := rfl
@[simp] theorem rxdRead_pc (s : State) : (rxdRead s).pc = s.pc := rfl
@[simp] theorem rxdRead_res (s : State) : (rxdRead s).res = s.res := rfl
@[simp] theorem rxdRead_stat (s : State) : (rxdRead s).stat = s.stat := rfl
@[simp] theorem rxdRead_sp (s : State) : (rxdRead s).sp = s.sp := rfl
@[simp] theorem rxdRead_mode (s : State) : (rxdRead s).mode = s.mode := rfl
@[simp] theorem rxdRead_fg (s : State) : (rxdRead s).fg = s.fg := rfl
@[simp] theorem rxdRead_txq (s : State) : (rxdRead s).txq = s.txq := rfl
@[simp] theorem rxdRead_rxq (s : State) : (rxdRead s).rxq = s.rxq := rfl
@[simp] theorem rxdRead_tstate (s : State) : (rxdRead s).tstate = s.tstate := rfl
@[simp] theorem rxdRead_uart (s : State) : (rxdRead s).uart = { s.uart with rxdValid := false } := rfl
@[simp] theorem rxdRead_irq (s : State) : (rxdRead s).irq = s.irq := rfl
@[simp] theorem rxdRead_ram (s : State) : (rxdRead s).ram = s.ram := rfl
@[simp] theorem rxdRead_logs (s : State) : (rxdRead s).logs = s.logs := rfl

/-! ### issueTask -/

@[simp] theorem issueTask_par (k : Nat) (b : Bool) (u : Task) (s : State) : (issueTask k b u s).par = s.par := rfl
@[simp] theorem issueTask_seed (k : Nat) (b : Bool) (u : Task) (s : State) :
    (issueTask k b u s).seed = s.seed := rfl
@[simp] theorem issueTask_sched (k : Nat) (b : Bool) (u : Task) (s : State) :
    (issueTask k b u s).sched = s.sched := rfl
@[simp] theorem issueTask_pc (k : Nat) (b : Bool) (u : Task) (s : State) : (issueTask k b u s).pc = s.pc := rfl
@[simp] theorem issueTask_res (k : Nat) (b : Bool) (u : Task) (s : State) : (issueTask k b u s).res = s.res := rfl
@[simp] theorem issueTask_stat (k : Nat) (b : Bool) (u : Task) (s : State) :
    (issueTask k b u s).stat = s.stat := rfl
@[simp] theorem issueTask_sp (k : Nat) (b : Bool) (u : Task) (s : State) : (issueTask k b u s).sp = s.sp := rfl
@[simp] theorem issueTask_mode (k : Nat) (b : Bool) (u : Task) (s : State) :
    (issueTask k b u s).mode = s.mode := rfl
@[simp] theorem issueTask_fg (k : Nat) (b : Bool) (u : Task) (s : State) : (issueTask k b u s).fg = s.fg := rfl
@[simp] theorem issueTask_txq (k : Nat) (b : Bool) (u : Task) (s : State) : (issueTask k b u s).txq = s.txq := rfl
@[simp] theorem issueTask_rxq (k : Nat) (b : Bool) (u : Task) (s : State) : (issueTask k b u s).rxq = s.rxq := rfl
@[simp] theorem issueTask_tstate (k : Nat) (b : Bool) (u : Task) (s : State) :
    (issueTask k b u s).tstate = s.tstate := rfl
@[simp] theorem issueTask_uart (k : Nat) (b : Bool) (u : Task) (s : State) :
    (issueTask k b u s).uart = { s.uart with run := writeBit s.uart.run k b } := rfl
@[simp] theorem issueTask_irq (k : Nat) (b : Bool) (u : Task) (s : State) : (issueTask k b u s).irq = s.irq := rfl
@[simp] theorem issueTask_ram (k : Nat) (b : Bool) (u : Task) (s : State) : (issueTask k b u s).ram = s.ram := rfl
@[simp] theorem issueTask_logs (k : Nat) (b : Bool) (u : Task) (s : State) :
    (issueTask k b u s).logs = { s.logs with task := s.logs.task ++ [u] } := rfl

/-! ### setTxInterrupt -/

@[simp] theorem setTxInterrupt_par (b : Bool) (s : State) : (setTxInterrupt b s).par = s.par := rfl
@[simp] theorem setTxInterrupt_seed (b : Bool) (s : State) : (setTxInterrupt b s).seed = s.seed := rfl
@[simp] theorem setTxInterrupt_sched (b : Bool) (s : State) : (setTxInterrupt b s).sched = s.sched := rfl
@[simp] theorem setTxInterrupt_pc (b : Bool) (s : State) : (setTxInterrupt b s).pc = s.pc := rfl
@[simp] theorem setTxInterrupt_res (b : Bool) (s : State) : (setTxInterrupt b s).res = s.res := rfl
@[simp] theorem setTxInterrupt_stat (b : Bool) (s : State) : (setTxInterrupt b s).stat = s.stat := rfl
@[simp] theorem setTxInterrupt_sp (b : Bool) (s : State) : (setTxInterrupt b s).sp = s.sp := rfl
@[simp] theorem setTxInterrupt_mode (b : Bool) (s : State) : (setTxInterrupt b s).mode = s.mode := rfl
@[simp] theorem setTxInterrupt_fg (b : Bool) (s : State) : (setTxInterrupt b s).fg = s.fg := rfl
@[simp] theorem setTxInterrupt_txq (b : Bool) (s : State) : (setTxInterrupt b s).txq = s.txq := rfl
@[simp] theorem setTxInterrupt_rxq (b : Bool) (s : State) : (setTxInterrupt b s).rxq = s.rxq := rfl
@[simp] theorem setTxInterrupt_tstate (b : Bool) (s : State) : (setTxInterrupt b s).tstate = s.tstate := rfl
@[simp] theorem setTxInterrupt_uart (b : Bool) (s : State) :
    (setTxInterrupt b s).uart = { s.uart with inten := writeBit s.uart.inten bitTxdrdy b } := rfl
@[simp] theorem setTxInterrupt_irq (b : Bool) (s : State) : (setTxInterrupt b s).irq = s.irq := rfl
@[simp] theorem setTxInterrupt_ram (b : Bool) (s : State) : (setTxInterrupt b s).ram = s.ram := rfl
@[simp] theorem setTxInterrupt_logs (b : Bool) (s : State) : (setTxInterrupt b s).logs = s.logs := rfl

/-! ### consumeRetry -/

@[simp] theorem consumeRetry_par (s : State) : (consumeRetry s).par = s.par := rfl
@[simp] theorem consumeRetry_seed (s : State) : (consumeRetry s).seed = s.seed := rfl
@[simp] theorem consumeRetry_sched (s : State) : (consumeRetry s).sched = s.sched := rfl
@[simp] theorem consumeRetry_pc (s : State) : (consumeRetry s).pc = s.pc := rfl
@[simp] theorem consumeRetry_res (s : State) : (consumeRetry s).res = s.res := rfl
@[simp] theorem consumeRetry_stat (s : State) : (consumeRetry s).stat = s.stat := rfl
@[simp] theorem consumeRetry_sp (s : State) : (consumeRetry s).sp = s.sp := rfl
@[simp] theorem consumeRetry_mode (s : State) : (consumeRetry s).mode = s.mode := rfl
@[simp] theorem consumeRetry_fg (s : State) : (consumeRetry s).fg = { s.fg with w := s.fg.w - 1 } := rfl
@[simp] theorem consumeRetry_txq (s : State) : (consumeRetry s).txq = s.txq := rfl
@[simp] theorem consumeRetry_rxq (s : State) : (consumeRetry s).rxq = s.rxq := rfl
@[simp] theorem consumeRetry_tstate (s : State) : (consumeRetry s).tstate = s.tstate := rfl
@[simp] theorem consumeRetry_uart (s : State) : (consumeRetry s).uart = s.uart := rfl
@[simp] theorem consumeRetry_irq (s : State) : (consumeRetry s).irq = s.irq := rfl
@[simp] theorem consumeRetry_ram (s : State) : (consumeRetry s).ram = s.ram := rfl
@[simp] theorem consumeRetry_logs (s : State) : (consumeRetry s).logs = s.logs := rfl

/-! ### setHpc -/

@[simp] theorem setHpc_par (h : Hpc) (s : State) : (setHpc h s).par = s.par := rfl
@[simp] theorem setHpc_seed (h : Hpc) (s : State) : (setHpc h s).seed = s.seed := rfl
@[simp] theorem setHpc_sched (h : Hpc) (s : State) : (setHpc h s).sched = s.sched := rfl
@[simp] theorem setHpc_pc (h : Hpc) (s : State) : (setHpc h s).pc = s.pc := rfl
@[simp] theorem setHpc_res (h : Hpc) (s : State) : (setHpc h s).res = s.res := rfl
@[simp] theorem setHpc_stat (h : Hpc) (s : State) : (setHpc h s).stat = s.stat := rfl
@[simp] theorem setHpc_sp (h : Hpc) (s : State) : (setHpc h s).sp = s.sp := rfl
@[simp] theorem setHpc_mode (h : Hpc) (s : State) : (setHpc h s).mode = s.mode := rfl
@[simp] theorem setHpc_fg (h : Hpc) (s : State) : (setHpc h s).fg = s.fg := rfl
@[simp] theorem setHpc_txq (h : Hpc) (s : State) : (setHpc h s).txq = s.txq := rfl
@[simp] theorem setHpc_rxq (h : Hpc) (s : State) : (setHpc h s).rxq = s.rxq := rfl
@[simp] theorem setHpc_tstate (h : Hpc) (s : State) : (setHpc h s).tstate = s.tstate := rfl
@[simp] theorem setHpc_uart (h : Hpc) (s : State) : (setHpc h s).uart = s.uart := rfl
@[simp] theorem setHpc_irq (h : Hpc) (s : State) : (setHpc h s).irq = { s.irq with hpc := h } := rfl
@[simp] theorem setHpc_ram (h : Hpc) (s : State) : (setHpc h s).ram = s.ram := rfl
@[simp] theorem setHpc_logs (h : Hpc) (s : State) : (setHpc h s).logs = s.logs := rfl

/-! ### armWait -/

@[simp] theorem armWait_par (s : State) : (armWait s).par = s.par := rfl
@[simp] theorem armWait_seed (s : State) : (armWait s).seed = s.seed := rfl
@[simp] theorem armWait_sched (s : State) : (armWait s).sched = s.sched := rfl
@[simp] theorem armWait_pc (s : State) : (armWait s).pc = s.pc := rfl
@[simp] theorem armWait_res (s : State) : (armWait s).res = s.res := rfl
@[simp] theorem armWait_stat (s : State) : (armWait s).stat = s.stat := rfl
@[simp] theorem armWait_sp (s : State) : (armWait s).sp = s.sp := rfl
@[simp] theorem armWait_mode (s : State) : (armWait s).mode = s.mode := rfl
@[simp] theorem armWait_fg (s : State) : (armWait s).fg = { s.fg with run := true, w := s.par.tBlock } := rfl
@[simp] theorem armWait_txq (s : State) : (armWait s).txq = s.txq := rfl
@[simp] theorem armWait_rxq (s : State) : (armWait s).rxq = s.rxq := rfl
@[simp] theorem armWait_tstate (s : State) : (armWait s).tstate = s.tstate := rfl
@[simp] theorem armWait_uart (s : State) : (armWait s).uart = s.uart := rfl
@[simp] theorem armWait_irq (s : State) : (armWait s).irq = s.irq := rfl
@[simp] theorem armWait_ram (s : State) : (armWait s).ram = s.ram := rfl
@[simp] theorem armWait_logs (s : State) : (armWait s).logs = s.logs := rfl

/-! ### armBuffer -/

@[simp] theorem armBuffer_par (s : State) : (armBuffer s).par = s.par := rfl
@[simp] theorem armBuffer_seed (s : State) : (armBuffer s).seed = s.seed := rfl
@[simp] theorem armBuffer_sched (s : State) : (armBuffer s).sched = s.sched := rfl
@[simp] theorem armBuffer_pc (s : State) : (armBuffer s).pc = s.pc := rfl
@[simp] theorem armBuffer_res (s : State) : (armBuffer s).res = s.res := rfl
@[simp] theorem armBuffer_stat (s : State) : (armBuffer s).stat = s.stat := rfl
@[simp] theorem armBuffer_sp (s : State) : (armBuffer s).sp = s.sp := rfl
@[simp] theorem armBuffer_mode (s : State) : (armBuffer s).mode = s.mode := rfl
@[simp] theorem armBuffer_fg (s : State) :
    (armBuffer s).fg = { s.fg with run := true, i := 0, w := s.par.tBlock } := rfl
@[simp] theorem armBuffer_txq (s : State) : (armBuffer s).txq = s.txq := rfl
@[simp] theorem armBuffer_rxq (s : State) : (armBuffer s).rxq = s.rxq := rfl
@[simp] theorem armBuffer_tstate (s : State) : (armBuffer s).tstate = s.tstate := rfl
@[simp] theorem armBuffer_uart (s : State) : (armBuffer s).uart = s.uart := rfl
@[simp] theorem armBuffer_irq (s : State) : (armBuffer s).irq = s.irq := rfl
@[simp] theorem armBuffer_ram (s : State) : (armBuffer s).ram = s.ram := rfl
@[simp] theorem armBuffer_logs (s : State) : (armBuffer s).logs = s.logs := rfl

/-! ### setQueue -/

@[simp] theorem setQueue_par (s : State) (q : QId) (x : Queue) : (s.setQueue q x).par = s.par := by cases q <;> rfl
@[simp] theorem setQueue_seed (s : State) (q : QId) (x : Queue) : (s.setQueue q x).seed = s.seed := by cases q <;> rfl
@[simp] theorem setQueue_sched (s : State) (q : QId) (x : Queue) : (s.setQueue q x).sched = s.sched := by cases q <;> rfl
@[simp] theorem setQueue_pc (s : State) (q : QId) (x : Queue) : (s.setQueue q x).pc = s.pc := by cases q <;> rfl
@[simp] theorem setQueue_res (s : State) (q : QId) (x : Queue) : (s.setQueue q x).res = s.res := by cases q <;> rfl
@[simp] theorem setQueue_stat (s : State) (q : QId) (x : Queue) : (s.setQueue q x).stat = s.stat := by cases q <;> rfl
@[simp] theorem setQueue_sp (s : State) (q : QId) (x : Queue) : (s.setQueue q x).sp = s.sp := by cases q <;> rfl
@[simp] theorem setQueue_mode (s : State) (q : QId) (x : Queue) : (s.setQueue q x).mode = s.mode := by cases q <;> rfl
@[simp] theorem setQueue_fg (s : State) (q : QId) (x : Queue) : (s.setQueue q x).fg = s.fg := by cases q <;> rfl
@[simp] theorem setQueue_tstate (s : State) (q : QId) (x : Queue) : (s.setQueue q x).tstate = s.tstate := by cases q <;> rfl
@[simp] theorem setQueue_uart (s : State) (q : QId) (x : Queue) : (s.setQueue q x).uart = s.uart := by cases q <;> rfl
@[simp] theorem setQueue_irq (s : State) (q : QId) (x : Queue) : (s.setQueue q x).irq = s.irq := by cases q <;> rfl
@[simp] theorem setQueue_ram (s : State) (q : QId) (x : Queue) : (s.setQueue q x).ram = s.ram := by cases q <;> rfl
@[simp] theorem setQueue_logs (s : State) (q : QId) (x : Queue) : (s.setQueue q x).logs = s.logs := by cases q <;> rfl

@[simp] theorem queue_setQueue_self (s : State) (q : QId) (x : Queue) : (s.setQueue q x).queue q = x := by cases q <;> rfl

theorem queue_setQueue_other (s : State) (q r : QId) (x : Queue) (h : r ≠ q) :
    (s.setQueue q x).queue r = s.queue r := by
  cases q <;> cases r <;> first | rfl | exact absurd rfl h

@[simp] theorem queue_txq (s : State) : s.queue .txq = s.txq := rfl
@[simp] theorem queue_rxq (s : State) : s.queue .rxq = s.rxq := rfl

/-! ### The request, enable and dispatch predicates read few fields -/

theorem requested_congr {s t : State} (he : t.uart.events = s.uart.events) (hi : t.uart.inten = s.uart.inten)
    (hp : t.irq.pend = s.irq.pend) : requested t = requested s := by
  funext n
  simp only [requested, he, hi, hp]

theorem enabled_congr {s t : State} (h : t.irq.irqen = s.irq.irqen) : enabled t = enabled s := by
  funext n
  simp only [enabled, h]

theorem lowestPending_congr {s t : State} (hr : requested t = requested s) (he : enabled t = enabled s) :
    lowestPending t = lowestPending s := by
  simp only [lowestPending, hr, he]

/-! ### Memory reads depend on the parameters, the draw and RAM only -/

theorem memRead1_congr {s t : State} (hp : t.par = s.par) (hs : t.seed = s.seed) (hr : t.ram = s.ram) :
    memRead1 t = memRead1 s := by
  funext a
  simp only [memRead1, hp, hs, hr]

theorem memRead4_congr {s t : State} (hp : t.par = s.par) (hs : t.seed = s.seed) (hr : t.ram = s.ram) :
    memRead4 t = memRead4 s := by
  funext a
  simp only [memRead4, hp, hs, hr]

/-- What a byte write can do: it fails, or only RAM changes, and it lies in RAM. -/
theorem memWrite1_cases {s t : State} {a : Word} {v : Byte} (h : memWrite1 s a v = some t) :
    s.par.inRam a = true ∧ t = { s with ram := s.ram.write none a.toNat v } := by
  simp only [memWrite1, busWrite1] at h
  split at h
  · exact ⟨‹_›, by simpa using h.symm⟩
  · simp at h

/-- What a word write can do: it fails, or only RAM changes. -/
theorem memWrite4_frame {s t : State} {a v : Word} (h : memWrite4 s a v = some t) : t = { s with ram := t.ram } := by
  simp only [memWrite4, Option.map_eq_some_iff] at h
  obtain ⟨m, -, rfl⟩ := h
  rfl

end Sys2Proof.Machine
end

