-- ==== Sys2Proof/Laws/Steps.lean ====
section
/-! SUPPORT. What each shared operation and each agent's step can do, said once. -/

namespace Sys2Proof.Machine

/-- The three outcomes of a byte read: ROM's byte, RAM's byte, a BusFault. -/
theorem memRead1_cases (s : State) (a : Word) :
    (s.par.inRom a = true ∧ memRead1 s a = some (romByte s.par a)) ∨
    (s.par.inRom a = false ∧ s.par.inRam a = true ∧ memRead1 s a = some (ramByte s.seed s.ram a)) ∨
    (s.par.inRom a = false ∧ s.par.inRam a = false ∧ memRead1 s a = none) := by
  cases hr : s.par.inRom a <;> cases hm : s.par.inRam a <;> simp [memRead1, busRead1, hr, hm]

/-- A write either finds the queue full, and changes nothing, or stores the byte. -/
theorem fifoWrite_cases (q : Queue) (b : Byte) :
    (q.cnt = q.cap ∧ fifoWrite q b = (.full, q)) ∨
    (q.cnt ≠ q.cap ∧
      fifoWrite q b = (.ok, { q with buf := q.buf.set q.wr b, wr := (q.wr + 1) % q.cap, cnt := q.cnt + 1 })) := by
  by_cases h : q.cnt = q.cap
  · exact .inl ⟨h, by simp [fifoWrite, Queue.isFull, h]⟩
  · exact .inr ⟨h, by simp [fifoWrite, Queue.isFull, h]⟩

/-- A read either finds the queue empty or takes the byte at the read cursor. -/
theorem fifoRead_cases (q : Queue) :
    (q.cnt = 0 ∧ fifoRead q = none) ∨
    (q.cnt ≠ 0 ∧ fifoRead q = some (q.buf.getD q.rd 0, { q with rd := (q.rd + 1) % q.cap, cnt := q.cnt - 1 })) := by
  by_cases h : q.cnt = 0
  · exact .inl ⟨h, by simp [fifoRead, Queue.isEmpty, h]⟩
  · exact .inr ⟨h, by simp [fifoRead, Queue.isEmpty, h]⟩

/-- The three outcomes of a poll. -/
theorem poll_cases (k : Nat) (s : State) :
    (s.event k = true ∧ poll k s = .ready) ∨ (s.event k = false ∧ s.fg.w = 0 ∧ poll k s = .expired) ∨
    (s.event k = false ∧ s.fg.w ≠ 0 ∧ poll k s = .wait) := by
  by_cases h : s.event k = true
  · exact .inl ⟨h, by simp [poll, h]⟩
  · by_cases hw : s.fg.w = 0
    · exact .inr (.inl ⟨by simpa using h, hw, by simp [poll, h, hw]⟩)
    · exact .inr (.inr ⟨by simpa using h, hw, by simp [poll, h, hw]⟩)

theorem poll_ready {k : Nat} {s : State} (h : s.uart.events.getLsbD k = true) : poll k s = .ready := by
  simp only [poll, State.event, h, if_true]

theorem poll_expired {k : Nat} {s : State} (h : s.uart.events.getLsbD k = false) (hw : s.fg.w = 0) :
    poll k s = .expired := by
  simp only [poll, State.event, h, hw, Bool.false_eq_true, if_false, if_true]

theorem poll_wait {k w : Nat} {s : State} (h : s.uart.events.getLsbD k = false) (hw : s.fg.w = w + 1) :
    poll k s = .wait := by
  simp only [poll, State.event, h, hw, Bool.false_eq_true, if_false, Nat.add_one_ne_zero]

/-- Taking an exception fails on an unreadable vector word, or writes ACTIVE, the pend bit and hpc only. -/
theorem takeException_cases (n : Nat) (s : State) :
    (vectorFetch s.par s.seed s.ram n = none ∧ takeException n s = .fault .vectorUnreadable) ∨
    (∃ v, vectorFetch s.par s.seed s.ram n = some v ∧
      takeException n s =
        .next
          { s with
            irq :=
              { s.irq with
                active := BitVec.ofNat 6 n
                pend := if n = excUart0 then s.irq.pend else clearBit s.irq.pend n
                hpc := engineEntry s.par v } }) := by
  cases h : vectorFetch s.par s.seed s.ram n with
  | none => exact .inl ⟨rfl, by simp [takeException, h]⟩
  | some v => exact .inr ⟨v, rfl, by simp [takeException, h]⟩

/-- A step of FG is enabled and is an initializer step or a command step. -/
theorem fgStep_cases {s : State} {r : Answer} (h : fgStep s = r) :
    r = .refused (.stepNotEnabled .fg) ∨
    (fgEnabled s = true ∧
      ((s.mode = .copy ∧ r = .next (copyStep s)) ∨ (s.mode = .zero ∧ r = .next (zeroStep s)) ∨
       (s.mode = .run ∧ r = commandStep s))) := by
  simp only [fgStep] at h
  split at h
  · rename_i he
    cases hm : s.mode <;> simp only [hm] at h <;> simp [← h, he]
  · exact .inl h.symm

/-- A command step runs the fetched command or raises the fetch's fault. -/
theorem commandStep_cases (s : State) :
    (∃ i, fetch s = .command i ∧ commandStep s = exec i s) ∨
    (∃ a, fetch s = .busFault a ∧ commandStep s = .next (raiseBusFault a s)) ∨
    (∃ w, fetch s = .usageFault w ∧ commandStep s = .next (raiseUsageFault w s)) := by
  cases h : fetch s with
  | command i => exact .inl ⟨i, rfl, by simp [commandStep, h]⟩
  | busFault a => exact .inr (.inl ⟨a, rfl, by simp [commandStep, h]⟩)
  | usageFault w => exact .inr (.inr ⟨w, rfl, by simp [commandStep, h]⟩)

/-- A step of IRQ that answers is a handler micro-step or the entry of the lowest exception. -/
theorem irqStep_cases {s t : State} (h : irqStep s = .next t) :
    s.irq.halted = false ∧
    ((s.irq.active ≠ 0 ∧ t = handlerStep s) ∨
     (s.irq.active = 0 ∧ ∃ n, lowestPending s = some n ∧ takeException n s = .next t)) := by
  simp only [irqStep] at h
  split at h
  · simp at h
  · rename_i hh
    refine ⟨by simpa using hh, ?_⟩
    split at h
    · rename_i ha
      exact .inl ⟨ha, by simpa using h.symm⟩
    · rename_i ha
      refine .inr ⟨by simpa using ha, ?_⟩
      split at h
      · simp at h
      · rename_i n hn
        exact ⟨n, hn, h⟩

/-- A step of LINE that answers is enabled and has the step's effect. -/
theorem lineStep_cases {e : LineStep} {s t : State} (h : lineStep e s = .next t) :
    lineEnabled e s = true ∧ t = lineEffect e s := by
  simp only [lineStep] at h
  split at h
  · rename_i he
    exact ⟨he, by simpa using h.symm⟩
  · simp at h

/-- A request of EXT that answers names a line of EXT_LINES and sets its pend bit only. -/
theorem extRequest_cases {n : Nat} {s t : State} (h : extRequest n s = .next t) :
    n ∈ s.par.extLines ∧ t = { s with irq := { s.irq with pend := setBit s.irq.pend n } } := by
  simp only [extRequest] at h
  split at h
  · rename_i he
    exact ⟨by simpa using he, by simpa using h.symm⟩
  · simp at h

/-- A step of the machine is the idling of a quiescent machine without a schedule, or one agent's step: of the machine
itself without a schedule, or of the state whose schedule has lost its head. -/
theorem step_cases {s t : State} (h : step s = .next t) :
    (s.sched = [] ∧ t = s) ∨ (s.sched = [] ∧ ∃ m, perform m s = .next t) ∨
    (∃ m rest, s.sched = m :: rest ∧ perform m { s with sched := rest } = .next t) := by
  simp only [step, nextStep] at h
  cases hs : s.sched with
  | nil =>
    simp only [hs, eagerStep] at h
    split at h
    · exact .inr (.inl ⟨rfl, .irq, h⟩)
    · split at h
      · exact .inr (.inl ⟨rfl, .fg, h⟩)
      · exact .inl ⟨rfl, by simpa using h.symm⟩
  | cons m rest =>
    simp only [hs] at h
    exact .inr (.inr ⟨m, rest, rfl, h⟩)

theorem config_bits (c : BitVec 2) (parity flow : Bool) :
    writeBit (if flow then setBit (clearBit c bitHwfc) bitHwfc else clearBit c bitHwfc) bitParity parity =
      BitVec.ofBool parity ++ BitVec.ofBool flow := by
  revert c parity flow
  decide

theorem run_bits (r : BitVec 2) : writeBit (writeBit r bitRxrun true) bitTxrun true = 0b11#2 := by
  revert r
  decide

theorem enable_bit (e : BitVec 1) : setBit e bitEn = 1#1 := by
  revert e
  decide

/-- All the register writes of CONFIGURE at once. -/
theorem configureUart_eq (rx tx rts cts : Byte) (baud : Word) (parity flow : Bool) (s : State) :
    configureUart rx tx rts cts baud parity flow s =
      { s with
        uart :=
          { s.uart with
            pselrxd := psel s.par rx
            pseltxd := psel s.par tx
            pselrts := psel s.par rts
            pselcts := psel s.par cts
            config := BitVec.ofBool parity ++ BitVec.ofBool flow
            baudrate := baud
            events := (s.uart.events ||| 0b0001#4) &&& 0b1101#4
            rxdValid := false
            run := 0b11#2
            enable := 1#1 }
        logs := { s.logs with task := s.logs.task ++ [.startRx, .startTx] } } := by
  have hc := config_bits s.uart.config parity flow
  have hr := run_bits s.uart.run
  have he := enable_bit s.uart.enable
  cases flow
  · simp only [Bool.false_eq_true, if_false] at hc
    simp only [configureUart, issueTask, Bool.false_eq_true, if_false, hc, hr, he, setBit_txdrdy, clearBit_rxdrdy,
      List.append_assoc, List.cons_append, List.nil_append]
  · simp only [if_true] at hc
    simp only [configureUart, issueTask, if_true, hc, hr, he, setBit_txdrdy, clearBit_rxdrdy, List.append_assoc,
      List.cons_append, List.nil_append]

/-- The kick, with the queue read it makes. -/
theorem kick_eq (s : State) (b0 : Byte) (q : Queue) (h : fifoRead s.txq = some (b0, q)) :
    kick s =
      { s with
        txq := q
        tstate := .transmitting
        uart :=
          { s.uart with
            inten := setBit s.uart.inten bitTxdrdy, run := setBit s.uart.run bitTxrun, txd := b0 }
        logs :=
          { tx := s.logs.tx ++ [b0], task := s.logs.task ++ [.startTx], txOwed := s.logs.txOwed + 1 } } := by
  simp [kick, issueTask, setTxInterrupt, writeBit, txdWrite, h]

/-- The critical section of RECV takes the oldest byte out and leaves irqen as it was. -/
theorem critRx_eq (s : State) : critRx s = (fifoRead s.rxq).map (fun r => (r.1, { s with rxq := r.2 })) := by
  have h := writeBit_clearBit_restore s.irq.irqen excUart0
  simp only [critRx, setIrqen, writeBit, Bool.false_eq_true, if_false]
  cases hr : fifoRead s.rxq with
  | none => rfl
  | some r =>
    simp only [writeBit] at h
    simp [h]

/-- The critical section of SEND writes TXQ and, through the kick, tstate, the logs, INTEN, RUN and TXD; irqen is
restored and everything else stays. -/
theorem critTx_frame (b : Byte) (s : State) :
    critTx b s =
      { s with
        txq := (critTx b s).txq
        tstate := (critTx b s).tstate
        logs := (critTx b s).logs
        uart :=
          { s.uart with
            inten := (critTx b s).uart.inten, run := (critTx b s).uart.run, txd := (critTx b s).uart.txd } } := by
  have h : writeBit (writeBit s.irq.irqen excUart0 false) excUart0 (s.irq.irqen.getLsbD excUart0) = s.irq.irqen :=
    writeBit_clearBit_restore s.irq.irqen excUart0
  simp only [critTx]
  split
  · simp only [kick, issueTask, setTxInterrupt, setIrqen]
    split <;> simp only [h, txdWrite]
  · simp only [setIrqen, h]

theorem critTx_fg (b : Byte) (s : State) : (critTx b s).fg = s.fg := by rw [critTx_frame]

theorem critTx_par (b : Byte) (s : State) : (critTx b s).par = s.par := by rw [critTx_frame]

/-- The four outcomes of an admission attempt: abort, retry, the owed carriage return admitted, a byte admitted. -/
theorem admission_cases (b : Byte) (s : State) :
    (s.txq.isFull = true ∧ s.fg.w = 0 ∧
      admission b s =
        complete 8 .timeout { setRes (zextNat s.fg.i) s with fg := { s.fg with cr := false } }) ∨
    (s.txq.isFull = true ∧ s.fg.w ≠ 0 ∧ admission b s = consumeRetry s) ∨
    (s.txq.isFull = false ∧ s.fg.cr = true ∧
      admission b s = { critTx b s with fg := { s.fg with cr := false, w := s.par.tSend } }) ∨
    (s.txq.isFull = false ∧ s.fg.cr = false ∧
      admission b s =
        { critTx b s with fg := { s.fg with i := s.fg.i + 1, cr := decide (b = lineFeed), w := s.par.tSend } }) := by
  by_cases h : s.txq.isFull = true
  · by_cases hw : s.fg.w = 0
    · exact .inl ⟨h, hw, by simp [admission, h, hw]⟩
    · exact .inr (.inl ⟨h, hw, by simp [admission, h, hw]⟩)
  · by_cases hc : s.fg.cr = true
    · exact .inr (.inr (.inl ⟨by simpa using h, hc, by simp [admission, h, hc, critTx_fg, critTx_par]⟩))
    · exact .inr (.inr (.inr ⟨by simpa using h, by simpa using hc, by simp [admission, h, hc, critTx_fg, critTx_par]⟩))

/-- While a handler is active and the block is not halted, IRQ's step is the micro-step hpc names. -/
theorem irqStep_active {s : State} (ha : s.irq.active ≠ 0) (hh : s.irq.halted = false) :
    irqStep s = .next (handlerStep s) := by
  simp only [irqStep, hh]
  rw [if_neg (by simp), if_pos ha]

/-- Only a number of the table is requested. -/
theorem requested_lt {s : State} {n : Nat} (h : requested s n = true) : n < slotCount := by
  simp only [requested] at h
  split at h
  · simp [*, excUart0, slotCount]
  · simp [hasPend] at h
    simp [slotCount]
    omega

/-- The dispatcher's choice is the lowest number requested and enabled. -/
theorem lowestPending_eq_some (s : State) (n : Nat) :
    lowestPending s = some n ↔
      requested s n = true ∧ enabled s n = true ∧ ∀ k < n, ¬ (requested s k = true ∧ enabled s k = true) := by
  simp only [lowestPending, List.find?_range_eq_some]
  simp only [Bool.and_eq_true, List.mem_range, Bool.not_eq_eq_eq_not, Bool.not_true]
  constructor
  · rintro ⟨⟨h1, h2⟩, -, h4⟩
    exact ⟨h1, h2, fun k hk e => by have := h4 k hk; simp [e.1, e.2] at this⟩
  · rintro ⟨h1, h2, h3⟩
    exact ⟨⟨h1, h2⟩, requested_lt h1, fun k hk => by
      by_contra hc
      exact h3 k hk (by simpa using hc)⟩

theorem lowestPending_eq_none (s : State) :
    lowestPending s = none ↔ ∀ n, ¬ (requested s n = true ∧ enabled s n = true) := by
  simp only [lowestPending, List.find?_eq_none]
  constructor
  · intro h n hn
    have := h n (by simpa using requested_lt hn.1)
    simp [hn.1, hn.2] at this
  · intro h n _
    simpa using h n

end Sys2Proof.Machine
end

