-- ==== Sys2Proof/Tests/Slice0.lean ====
section
/-! SUPPORT. Tests of one step each against the vectors of 95_test_vectors.md, the smoke tests of the parameter checks,
the decoding of every command from a word the spec writes out, and a witness for the hypotheses of every obligation. -/

namespace Sys2Proof.Tests

open Sys2Proof.Machine

set_option Elab.async false

/-! ### Small states -/

/-- Set X of 95_test_vectors.md section 0 without its ROM image. -/
def par : Params := { Params.exampleX with rom := [] }

/-- Mode RUN at APP_ENTRY, nothing else done since reset. -/
def base : State := { State.resetWith par PowerOn.zero with mode := .run, pc := 0x100#32 }

/-- `base` with the two queues given. -/
def withQueues (tx rx : Queue) : State := { base with txq := tx, rxq := rx }

/-- A queue with FIFO_MAX = 8 bytes of storage. -/
def queueOf (cap wr rd cnt : Nat) (bytes : List Byte) : Queue :=
  { cap := cap, wr := wr, rd := rd, cnt := cnt, buf := bytes ++ List.replicate (8 - bytes.length) 0 }

/-- A queue that was never created. -/
def noQueue : Queue := queueOf 0 0 0 0 []

/-- `base` with the bytes of X's data word in RAM, and the command in progress described by `f`. -/
def sending (run : Bool) (i w : Nat) (cr : Bool) : State :=
  { base with
    ram := [(0x20000000, 0x41#8), (0x20000001, 0x0A#8), (0x20000002, 0x00#8)]
    fg := { run := run, i := i, w := w, cr := cr, src := 0, dst := 0 } }

/-- `s` with EVENTS. -/
def withEvents (e : BitVec 4) (s : State) : State := { s with uart := { s.uart with events := e, rxdValid := e.getLsbD 1 } }

/-- `s` with the bytes of a command in ROM at its pc. -/
def withCode (a : Word) (bytes : List Byte) (s : State) : State :=
  { s with pc := a, par := { s.par with rom := romStore [] a.toNat bytes } }

/-- `s` inside a handler at micro-step `h` with snapshot `snap`. -/
def inHandler (h : Hpc) (snap : BitVec 4) (s : State) : State :=
  { s with irq := { s.irq with active := 18, hpc := h, snap := snap } }

/-- A field of the next state an answer holds. -/
def look {α : Type} (o : Answer) (f : State → α) : Option α :=
  match o with
  | .next t => some (f t)
  | .fault _ => none
  | .refused _ => none

/-- The answer is a refusal. -/
def refuses (o : Answer) : Bool :=
  match o with
  | .refused _ => true
  | .next _ => false
  | .fault _ => false

/-! ### Well-formedness: set X passes, and each check refuses a set that breaks it -/

theorem test_wf_exampleX : Params.exampleX.wf = true := by decide +kernel

theorem test_wf_fifoMax : ({ par with fifoMax := 0 } : Params).fifoMaxOk = false ∧
    ({ par with fifoMax := 65536 } : Params).fifoMaxOk = false := by decide +kernel
theorem test_wf_budgets : ({ par with tBlock := 2 ^ 32 } : Params).budgetsOk = false ∧
    ({ par with tSend := 2 ^ 32 } : Params).budgetsOk = false := by decide +kernel
theorem test_wf_npins : ({ par with npins := 0 } : Params).npinsOk = false ∧
    ({ par with npins := 256 } : Params).npinsOk = false := by decide +kernel
theorem test_wf_baud : ({ par with baudTable := [] } : Params).baudOk = false ∧
    ({ par with baudTable := [(3, 1#32), (3, 2#32)] } : Params).baudOk = false ∧
    ({ par with baudTable := [(256, 1#32)] } : Params).baudOk = false := by decide +kernel
theorem test_wf_vtPlace : ({ par with vtBase := 2#32 } : Params).vtPlaceOk = false ∧
    ({ par with vtBase := 0x0003FF48#32 } : Params).vtPlaceOk = false := by decide +kernel
theorem test_wf_addrs : ({ par with addrUart0 := par.addrDefault } : Params).addrsOk = false ∧
    ({ par with addrReset := 0 } : Params).addrsOk = false := by decide +kernel
theorem test_wf_bind : ({ par with bind := [] } : Params).bindOk = false ∧
    ({ par with bind := (24, .uart0) :: plainBind } : Params).bindOk = false ∧
    ({ par with bind := (24, .custom 0) :: plainBind } : Params).bindOk = false ∧
    ({ par with bind := (24, .custom 0xF0#32) :: (24, .defaultHandler) :: plainBind } : Params).bindOk = false ∧
    ({ par with bind := (47, .defaultHandler) :: plainBind } : Params).bindOk = false ∧
    ({ par with bind := (24, .custom 0xF0#32) :: plainBind } : Params).bindOk = true := by decide +kernel
theorem test_wf_regions : ({ par with romEnd := 0x20000004#32 } : Params).regionsOk = false ∧
    ({ par with ramEnd := 0x20000002#32 } : Params).regionsOk = false ∧
    ({ par with ramEnd := par.ramBase } : Params).regionsOk = false := by decide +kernel
theorem test_wf_rom : ({ par with rom := [(4, 0x00#8)] } : Params).romOk = false ∧
    ({ par with rom := [(4, 0x01#8), (4, 0x02#8)] } : Params).romOk = false ∧
    ({ par with rom := [(0x40000, 0x01#8)] } : Params).romOk = false := by decide +kernel
theorem test_wf_dataSrc : ({ par with dataSrcStart := 0x208#32 } : Params).dataSrcOk = false := by decide +kernel
theorem test_wf_dataDst : ({ par with dataDstEnd := 0x20000008#32 } : Params).dataDstOk = false := by decide +kernel
theorem test_wf_zero : ({ par with zeroEnd := 0x20004004#32 } : Params).zeroOk = false := by decide +kernel
theorem test_wf_appEntry : ({ par with appEntry := 0x102#32 } : Params).appEntryOk = false ∧
    ({ par with appEntry := 0x20000000#32 } : Params).appEntryOk = false := by decide +kernel
theorem test_wf_extLines : ({ par with extLines := [18] } : Params).extLinesOk = false ∧
    ({ par with extLines := [21] } : Params).extLinesOk = false := by decide +kernel
theorem test_wf_vectors : par.vectorsOk = false := by decide +kernel
theorem test_boot_refuses_illFormed : refuses (State.boot par PowerOn.zero) = true := by decide +kernel

/-! ### Decoding: words of 95_test_vectors.md section 2, one for every command, and its illegal words -/

theorem test_decode_endCmd : decodeTableWord 32 0x01000000 = some .endCmd := by decide +kernel
theorem test_decode_fcreate : decodeTableWord 32 0x10010004 = some (.fcreate .rxq 4#16) ∧
    decodeTableWord 32 0x1000FFFF = some (.fcreate .txq 65535#16) ∧
    decodeTableWord 32 0x10020004 = none := by decide +kernel
theorem test_decode_fwrite : decodeTableWord 32 0x11000041 = some (.fwrite .txq 0x41#8) ∧
    decodeTableWord 32 0x11000141 = none := by decide +kernel
theorem test_decode_fread : decodeTableWord 32 0x12010000 = some (.fread .rxq) ∧
    decodeTableWord 32 0x12020000 = none := by decide +kernel
theorem test_decode_ffull : decodeTableWord 32 0x13000000 = some (.ffull .txq) := by decide +kernel
theorem test_decode_fempty : decodeTableWord 32 0x14010000 = some (.fempty .rxq) := by decide +kernel
theorem test_decode_favail : decodeTableWord 32 0x15000000 = some (.favail .txq) := by decide +kernel
theorem test_decode_imask : decodeTableWord 32 0x20120000 = some (.imask 18#6) ∧
    decodeTableWord 32 0x203F0000 = some (.imask 63#6) ∧ decodeTableWord 32 0x20400000 = none := by decide +kernel
theorem test_decode_iunmask : decodeTableWord 32 0x21120000 = some (.iunmask 18#6) := by decide +kernel
theorem test_decode_intset : decodeTableWord 32 0x2200000E = some (.intset 0b1110#4) ∧
    decodeTableWord 32 0x22000010 = none := by decide +kernel
theorem test_decode_intclr : decodeTableWord 32 0x23000001 = some (.intclr 0b0001#4) := by decide +kernel
theorem test_decode_configure :
    decodeTableWord 64 0xFFFF090B30030000 = some (.configure 0x0B#8 0x09#8 0xFF#8 0xFF#8 3#8 false false) ∧
    decodeTableWord 64 0x0A08090B300A0003 = some (.configure 11#8 9#8 8#8 10#8 10#8 true true) ∧
    decodeTableWord 64 0x30030004 = none := by decide +kernel
theorem test_decode_putc : decodeTableWord 32 0x31000041 = some (.putc 0x41#8) ∧
    decodeTableWord 32 0x31010041 = none := by decide +kernel
theorem test_decode_getc : decodeTableWord 32 0x32000000 = some .getc ∧
    decodeTableWord 32 0x32000001 = none := by decide +kernel
theorem test_decode_puts : decodeTableWord 64 0x2000000033000002 = some (.puts 0x20000000#32 2#16) := by decide +kernel
theorem test_decode_putz : decodeTableWord 64 0x2000000034000000 = some (.putz 0x20000000#32) ∧
    decodeTableWord 64 0x34000001 = none := by decide +kernel
theorem test_decode_send : decodeTableWord 64 0x2000000035000002 = some (.send 0x20000000#32 2#16) := by decide +kernel
theorem test_decode_recv : decodeTableWord 64 0x2000001036000004 = some (.recv 0x20000010#32 4#16) := by decide +kernel
theorem test_decode_illegal : decodeTableWord 32 0x00000000 = none ∧ decodeTableWord 32 0xFFFFFFFF = none ∧
    decodeTableWord 32 0x02000000 = none := by decide +kernel

/-! ### FIFO commands (95 section 3) -/

/-- F1 and F5. -/
theorem test_fcreate_makes_and_checks_capacity_first :
    look (exec (.fcreate .txq 4#16) base) (fun t => (t.stat, t.txq.cap, t.txq.wr, t.txq.cnt, t.pc)) =
      some (0#4, 4, 0, 0, 0x104#32) ∧
    look (exec (.fcreate .txq 0#16) (withQueues (queueOf 4 0 0 0 []) noQueue)) (fun t => (t.stat, t.txq.cap)) =
      some (4#4, 4) := by decide +kernel
/-- F2 and F4. -/
theorem test_fcreate_refuses_twice_and_too_large :
    look (exec (.fcreate .txq 2#16) (withQueues (queueOf 4 0 0 0 []) noQueue)) (fun t => (t.stat, t.txq.cap)) =
      some (5#4, 4) ∧
    look (exec (.fcreate .rxq 9#16) base) (fun t => (t.stat, t.rxq.cap)) = some (4#4, 0) := by decide +kernel
/-- F12. -/
theorem test_fwrite_wraps :
    look (exec (.fwrite .txq 0x41#8) (withQueues (queueOf 2 1 1 0 []) noQueue))
      (fun t => (t.stat, t.txq.buf[1]?, t.txq.wr, t.txq.cnt)) = some (0#4, some 0x41#8, 0, 1) := by decide +kernel
/-- F6. -/
theorem test_fwrite_uncreated_is_full :
    look (exec (.fwrite .txq 0x41#8) base) (fun t => (t.stat, t.txq.cnt)) = some (1#4, 0) := by decide +kernel
/-- F13. -/
theorem test_fread_takes_the_oldest :
    look (exec (.fread .rxq) (withQueues noQueue (queueOf 2 0 1 1 [0x61#8, 0x62#8])))
      (fun t => (t.res, t.rxq.rd, t.rxq.cnt, t.stat)) = some (0x62#32, 0, 0, 0#4) := by decide +kernel
/-- F15. -/
theorem test_fread_empty_keeps_res :
    look (exec (.fread .rxq) { base with res := 0xDEADBEEF#32 }) (fun t => (t.stat, t.res)) =
      some (2#4, 0xDEADBEEF#32) := by decide +kernel
/-- F8 and F14. -/
theorem test_ffull : look (exec (.ffull .txq) base) (fun t => t.res) = some 1#32 ∧
    look (exec (.ffull .txq) (withQueues (queueOf 4 3 0 3 []) noQueue)) (fun t => t.res) = some 0#32 := by decide +kernel
theorem test_fempty : look (exec (.fempty .txq) base) (fun t => t.res) = some 1#32 ∧
    look (exec (.fempty .txq) (withQueues (queueOf 4 3 0 3 []) noQueue)) (fun t => t.res) = some 0#32 := by decide +kernel
theorem test_favail : look (exec (.favail .txq) base) (fun t => t.res) = some 0#32 ∧
    look (exec (.favail .txq) (withQueues (queueOf 4 3 0 3 []) noQueue)) (fun t => t.res) = some 3#32 := by decide +kernel

/-! ### Control and configuration (95 section 4) -/

/-- K8. -/
theorem test_end : look (exec .endCmd { base with pc := 0x128#32, stat := 2#4 }) (fun t => (t.mode, t.pc, t.stat)) =
    some (.stopped, 0x128#32, 0#4) := by decide +kernel
/-- K2 and K3. -/
theorem test_imask :
    look (exec (.imask 18#6) { base with irq := { base.irq with irqen := BitVec.allOnes 47 } })
      (fun t => (t.irq.irqen.getLsbD 18, t.irq.irqen.getLsbD 17, t.stat)) = some (false, true, 0#4) ∧
    look (exec (.imask 5#6) base) (fun t => t.stat) = some 4#4 := by decide +kernel
/-- K1 and K4. -/
theorem test_iunmask :
    look (exec (.iunmask 18#6) base) (fun t => (t.irq.irqen, t.stat)) = some (BitVec.twoPow 47 18, 0#4) ∧
    look (exec (.iunmask 21#6) base) (fun t => (t.irq.irqen, t.stat)) = some (0, 4#4) := by decide +kernel
/-- K5 and K7. -/
theorem test_intset :
    look (exec (.intset 0xE#4) { base with uart := { base.uart with inten := 0b0001#4 } }) (fun t => t.uart.inten) =
      some 0b1111#4 ∧
    look (exec (.intset 0#4) { base with uart := { base.uart with inten := 0b0100#4 } })
      (fun t => (t.uart.inten, t.stat)) = some (0b0100#4, 0#4) := by decide +kernel
/-- K6. -/
theorem test_intclr :
    look (exec (.intclr 0x1#4) { base with uart := { base.uart with inten := 0b1111#4 } }) (fun t => t.uart.inten) =
      some 0b1110#4 := by decide +kernel
/-- G2. -/
theorem test_configure :
    look (exec (.configure 11#8 9#8 8#8 10#8 10#8 true true) base)
      (fun t => ((t.uart.pselrxd, t.uart.pseltxd, t.uart.pselrts, t.uart.pselcts), t.uart.config, t.uart.baudrate)) =
      some ((11#32, 9#32, 8#32, 10#32), 0b11#2, 0x01D7E000#32) ∧
    look (exec (.configure 11#8 9#8 8#8 10#8 10#8 true true) base)
      (fun t => ((t.uart.events, t.uart.run, t.uart.enable), t.stat, t.pc, t.logs.task)) =
      some ((0b0001#4, 0b11#2, 1#1), 0#4, 0x108#32, [.startRx, .startTx]) := by decide +kernel
/-- G3, G4, G5, G6 and G7. -/
theorem test_configure_corners :
    look (exec (.configure 11#8 9#8 0xFF#8 0xFF#8 16#8 false false) base) (fun t => (t.stat, t.logs.task)) =
      some (4#4, []) ∧
    look (exec (.configure 32#8 9#8 0xFF#8 0xFF#8 3#8 false false) base) (fun t => t.stat) = some 4#4 ∧
    look (exec (.configure 11#8 9#8 40#8 0xFF#8 3#8 false false) base) (fun t => t.stat) = some 4#4 ∧
    look (exec (.configure 11#8 9#8 0xFF#8 0xFF#8 16#8 false false) { base with tstate := .transmitting })
      (fun t => t.stat) = some 5#4 ∧
    look (exec (.configure 11#8 9#8 0xFF#8 0xFF#8 3#8 false false) (withEvents 0b1110#4 base))
      (fun t => (t.uart.events, t.uart.rxdValid, t.uart.pselrts)) = some (0b1101#4, false, 0xFFFFFFFF#32) := by
  decide +kernel
/-- B1, last step. -/
theorem test_putc_ready :
    look (exec (.putc 0x41#8) (withEvents 0b0001#4 (sending true 0 2 false)))
      (fun t => (t.uart.events, t.uart.txd, t.logs.tx, t.stat, t.pc)) =
      some (0b0000#4, 0x41#8, [0x41#8], 0#4, 0x104#32) := by decide +kernel
/-- B2: the second poll and the last. -/
theorem test_putc_waits_and_expires :
    look (exec (.putc 0x41#8) (sending true 0 1 false)) (fun t => (t.fg.w, t.fg.run, t.pc)) =
      some (0, true, 0x100#32) ∧
    look (exec (.putc 0x41#8) (sending true 0 0 false)) (fun t => (t.stat, t.logs.tx, t.pc)) =
      some (3#4, [], 0x104#32) := by decide +kernel
/-- B4, last step. -/
theorem test_getc_ready :
    look (exec .getc (withEvents 0b0010#4
        { sending true 0 2 false with res := 7, uart := { base.uart with rxd := 0x61#8 } }))
      (fun t => (t.res, t.uart.events, t.uart.rxdValid, t.stat)) = some (0x61#32, 0b0000#4, false, 0#4) := by
  decide +kernel
/-- B5, last step. -/
theorem test_getc_expires :
    look (exec .getc { sending true 0 0 false with res := 7 }) (fun t => (t.stat, t.res)) = some (3#4, 7#32) := by
  decide +kernel
/-- B6: byte 0, and the expiry at byte 1. -/
theorem test_puts :
    look (exec (.puts 0x20000000#32 2#16) (withEvents 0b0001#4 (sending true 0 0 false)))
      (fun t => (t.uart.txd, t.uart.events, t.fg.i, t.fg.w)) = some (0x41#8, 0b0000#4, 1, 2) ∧
    look (exec (.puts 0x20000000#32 2#16) (sending true 1 0 false)) (fun t => (t.res, t.stat, t.pc)) =
      some (1#32, 3#4, 0x108#32) := by decide +kernel
/-- B11, and section 9's first byte address of PUTS 0xFFFFFFFF. -/
theorem test_puts_bus_fault :
    look (exec (.puts 0x10000000#32 1#16) (sending true 0 2 false))
      (fun t => (t.irq.pend, t.irq.faultinfo, t.pc, t.fg.run)) =
      some (BitVec.twoPow 47 5, 0x10000000#32, 0x100#32, true) ∧
    look (exec (.puts 0xFFFFFFFF#32 2#16) (sending true 0 2 false)) (fun t => t.irq.faultinfo) =
      some 0xFFFFFFFF#32 := by decide +kernel
/-- B10, last step, and the end of B9's string. -/
theorem test_putz_ends_at_zero :
    look (exec (.putz 0x20000002#32) (sending true 0 2 false)) (fun t => (t.res, t.stat, t.logs.tx)) =
      some (0#32, 0#4, []) ∧
    look (exec (.putz 0x20000000#32) (sending true 2 2 false)) (fun t => (t.res, t.stat)) = some (2#32, 0#4) := by
  decide +kernel
/-- B12, last step. -/
theorem test_putz_runs_off_ram :
    look (exec (.putz 0x20003FFE#32) (withEvents 0b0001#4 (sending true 2 2 false)))
      (fun t => (t.irq.faultinfo, t.fg.i, t.logs.tx)) = some (0x20004000#32, 2, []) := by decide +kernel

/-! ### Buffered path (95 section 5) -/

/-- S1: the step that admits 0x41 and kicks. -/
theorem test_send_kicks :
    look (exec (.send 0x20000000#32 2#16) { sending true 0 1 false with txq := queueOf 4 0 0 0 [] })
      (fun t => ((t.uart.txd, t.logs.tx, t.logs.task), (t.tstate, t.uart.inten), t.irq.irqen, t.fg.i)) =
      some ((0x41#8, [0x41#8], [.startTx]), (.transmitting, 0b0001#4), 0, 1) ∧
    look (exec (.send 0x20000000#32 2#16) { sending true 0 1 false with txq := queueOf 4 0 0 0 [] })
      (fun t => (t.txq.wr, t.txq.rd, t.txq.cnt, t.uart.run)) = some (1, 1, 0, 0b01#2) := by decide +kernel
/-- S1's line feed and S5's abort with a carriage return owed. -/
theorem test_send_line_feed_and_short_write :
    look (exec (.send 0x20000000#32 2#16)
        { sending true 1 1 false with txq := queueOf 4 1 1 0 [], tstate := .transmitting })
      (fun t => (t.fg.i, t.fg.cr, t.txq.cnt, t.txq.buf[1]?)) = some (2, true, 1, some 0x0A#8) ∧
    look (exec (.send 0x20000001#32 1#16)
        { sending true 1 0 true with txq := queueOf 2 0 0 2 [0x99#8, 0x0A#8], tstate := .transmitting })
      (fun t => (t.res, t.stat, t.fg.cr, t.txq.cnt)) = some (1#32, 3#4, false, 2) := by decide +kernel
/-- V1's kind: one byte drained (43_uart_buffered.md R147's example, its first byte). -/
theorem test_recv_drains :
    look (exec (.recv 0x20000010#32 4#16)
        { sending true 0 0 false with rxq := queueOf 2 0 0 2 [0x61#8, 0x62#8], irq := { base.irq with irqen := BitVec.twoPow 47 18 } })
      (fun t => (t.ram.find 0x20000010, t.rxq.rd, t.rxq.cnt, t.fg.i, t.irq.irqen)) =
      some (some 0x61#8, 1, 1, 1, BitVec.twoPow 47 18) := by decide +kernel
/-- V6: the destination is checked before the queue is touched. -/
theorem test_recv_bus_fault :
    look (exec (.recv 0x20003FFF#32 2#16) { sending true 1 0 false with rxq := queueOf 2 0 1 1 [0x61#8, 0x62#8] })
      (fun t => (t.irq.faultinfo, t.fg.i, t.rxq.cnt, t.irq.pend)) =
      some (0x20004000#32, 1, 1, BitVec.twoPow 47 5) := by decide +kernel

/-! ### Handler, LINE and dispatcher (95 sections 6 and 7) -/

/-- H2's transmit branch and H7's snapshot rule. -/
theorem test_hs1_empty_queue_stops :
    look (irqStep (inHandler .hs1 0b0001#4 (withEvents 0b0011#4
        { withQueues (queueOf 4 0 0 0 []) noQueue with
          tstate := .transmitting, uart := { base.uart with inten := 0b1111#4, run := 0b11#2 } })))
      (fun t => (t.uart.run, t.logs.task, t.tstate, t.uart.inten, t.uart.events)) =
      some (0b10#2, [.stopTx], .idle, 0b1110#4, 0b0010#4) := by decide +kernel
/-- H3 and H4: without and with echo. -/
theorem test_hs2_receives :
    look (irqStep (inHandler .hs2 0b0010#4 (withEvents 0b0010#4
        { withQueues noQueue (queueOf 2 1 0 1 [0x61#8]) with uart := { base.uart with rxd := 0x62#8 } })))
      (fun t => ((t.rxq.wr, t.rxq.cnt, t.rxq.buf[1]?), t.uart.events, t.uart.rxdValid, t.logs.tx)) =
      some ((0, 2, some 0x62#8), 0b0000#4, false, []) ∧
    look (irqStep (inHandler .hs2 0b0010#4 (withEvents 0b0010#4
        { withQueues noQueue (queueOf 2 1 0 1 [0x61#8]) with
          uart := { base.uart with rxd := 0x62#8 }, par := { par with echo := true } })))
      (fun t => (t.uart.txd, t.logs.tx)) = some (0x62#8, [0x62#8]) := by decide +kernel
/-- H9: the error branch leaves ERRORSRC. -/
theorem test_hs4_clears_error :
    look (irqStep (inHandler .hs4 0b1000#4 (withEvents 0b1000#4
        { base with uart := { base.uart with errorsrc := 0b100#3 } })))
      (fun t => (t.uart.events, t.uart.errorsrc, t.irq.hpc)) = some (0b0000#4, 0b100#3, .hs5) := by decide +kernel
/-- L2 and L3. -/
theorem test_line_guards :
    refuses (perform (.line (.rxArrive 0x62#8)) (withEvents 0b0010#4 base)) = true ∧
    look (perform (.line (.rxOverrun 0x62#8 true)) (withEvents 0b0010#4 base))
      (fun t => (t.uart.events, t.uart.errorsrc, t.uart.rxd)) = some (0b1010#4, 0b001#3, 0x62#8) := by decide +kernel
/-- X2: ICSR at DH0 with the UART line requested and enabled. -/
theorem test_dh0_latches :
    look (irqStep
        { base with
          uart := { base.uart with events := 0b0010#4, inten := 0b0010#4 }
          irq := { base.irq with active := 6, hpc := .dh0, irqen := BitVec.twoPow 47 18 } })
      (fun t => (t.irq.diagActive, t.irq.diagPending, t.irq.diagIcsr)) = some (6#6, 18#6, 0x00412006#32) := by
  decide +kernel
/-- X3, X6 and X7: what ICSR computes to. -/
theorem test_icsr :
    icsr { base with irq := { base.irq with pend := BitVec.twoPow 47 24 } } = 0x00400000#32 ∧
    icsr { base with uart := { base.uart with events := 0b0010#4, inten := 0b0010#4 } } = 0x00400000#32 ∧
    icsr { base with uart := { base.uart with events := 0b0010#4 }, irq := { base.irq with irqen := BitVec.twoPow 47 18 } } =
      0 := by decide +kernel
/-- X5 and X9: the lower number is taken first, and a pending system exception stops FG. -/
theorem test_priority :
    lowestPending
      { base with
        uart := { base.uart with events := 0b0010#4, inten := 0b0010#4 }
        irq := { base.irq with pend := BitVec.twoPow 47 17, irqen := BitVec.allOnes 47 } } = some 17 ∧
    fgEnabled { base with irq := { base.irq with pend := BitVec.twoPow 47 2 } } = false ∧
    fgEnabled { base with irq := { base.irq with pend := BitVec.twoPow 47 17 } } = true := by decide +kernel
/-- X1's dispatch of the machine after reset (set X), by the word of slot 6. -/
theorem test_dispatch_usage_fault :
    look (irqStep { State.reset with irq := { base.irq with pend := BitVec.twoPow 47 6 } })
      (fun t => (t.irq.active, t.irq.pend, t.irq.hpc, t.pc)) = some (6#6, 0, .dh0, 0xC0#32) := by decide +kernel

/-! ### Memory, reset and the step (95 sections 8 and 9, 2) -/

theorem test_memory :
    (memWrite4 base 0x20000000#32 0x11223344#32).bind (fun t => memRead1 t 0x20000000#32) = some 0x44#8 ∧
    (memWrite4 base 0x20000000#32 0x11223344#32).bind (fun t => memRead1 t 0x20000003#32) = some 0x11#8 ∧
    memRead4 base 0x202#32 = none ∧ memRead1 base 0x40000#32 = none ∧ memWrite1 base 0x200#32 0 = none ∧
    memWrite1 base 0x20004000#32 0 = none := by decide +kernel
theorem test_reset :
    State.reset.sp = 0x20004000#32 ∧ State.reset.pc = 0xC0#32 ∧ State.reset.mode = .copy ∧
    State.reset.fg.src = 0x200#32 ∧ State.reset.fg.dst = 0x20000000#32 := by decide +kernel
/-- Step 1 of section 8's table. -/
theorem test_first_copy_step :
    look (step State.reset) (fun t => (t.ram, t.fg.src, t.fg.dst)) =
      some ([(0x20000000, 0x41#8), (0x20000001, 0x0A#8), (0x20000002, 0x00#8), (0x20000003, 0x00#8)],
        0x204#32, 0x20000004#32) := by decide +kernel
/-- A placed command is the next step of the reset machine. -/
theorem test_placed_command_runs :
    look (step (State.reset.withFetchWord 32 0x10000004)) (fun t => (t.txq.cap, t.stat, t.pc)) =
      some (4, 0#4, 0x104#32) := by decide +kernel
/-- Section 2's fetch faults. -/
theorem test_fetch_faults :
    fetch { base with pc := 0x00040000#32 } = .busFault 0x00040000#32 ∧
    fetch { base with pc := 0x20000000#32 } = .busFault 0x20000000#32 ∧
    fetch (withCode 0x0003FFFC#32 [0x02#8, 0x00#8, 0x00#8, 0x35#8] base) = .busFault 0x00040000#32 ∧
    fetch base = .usageFault 0x00000000#32 := by decide +kernel

/-! ### Witnesses: for every obligation with hypotheses, concrete values that meet them, clause by clause -/

/-- SEND 0x20000000, 2 at APP_ENTRY. -/
def atSend : State := withCode 0x100#32 (encodeBytes (.send 0x20000000#32 2#16)) base

theorem witness_DecodedBytesAreTheEncoding :
    decode [0x41#8, 0x00#8, 0x00#8, 0x11#8, 0x77#8] = .ok (.fwrite .txq 0x41#8, [0x77#8]) := by decide +kernel

theorem witness_AtMostOneRowMatches :
    (⟨.putc, .s, 0x31000000#32, 0xFFFFFF00#32⟩ : OpRow) ∈ opTable ∧ 0x31000041#32 &&& 0xFFFFFF00#32 = 0x31000000#32 := by
  decide +kernel

theorem witness_FetchFindsTheCommandInRom :
    atSend.pc.toNat % 4 = 0 ∧
    ∀ k < (Instr.send 0x20000000#32 2#16).length, atSend.par.inRom (atSend.pc + BitVec.ofNat 32 k) = true ∧
      (encodeBytes (.send 0x20000000#32 2#16))[k]? = some (romByte atSend.par (atSend.pc + BitVec.ofNat 32 k)) := by
  decide +kernel

theorem witness_StepRunsTheFetchedCommand :
    atSend.mode = .run ∧ fetch atSend = .command (.send 0x20000000#32 2#16) ∧ atSend.sched = [] ∧
    fgEnabled atSend = true ∧ lowestPending atSend = none ∧
    ({ atSend with sched := [.fg] } : State).sched = .fg :: [] ∧
    fetch { atSend with sched := [.fg] } = .command (.send 0x20000000#32 2#16) ∧
    fgEnabled { atSend with sched := [.fg] } = true := by decide +kernel

theorem witness_FetchAndDecodeAsRule :
    (0x102#32).toNat % 4 ≠ 0 ∧ base.par.inRom 0x40000#32 = false ∧
    (base.pc.toNat % 4 = 0 ∧ base.par.inRom base.pc = true ∧ memRead4 base base.pc = some 0x00000000#32 ∧
      ∀ r ∈ opTable, 0x00000000#32 &&& r.mask ≠ r.bits) ∧
    (memRead4 (withCode 0x3FFFC#32 [0x41#8, 0x00#8, 0x00#8, 0x31#8] base) 0x3FFFC#32 = some 0x31000041#32 ∧
      (⟨.putc, .s, 0x31000000#32, 0xFFFFFF00#32⟩ : OpRow) ∈ opTable) ∧
    (memRead4 (withCode 0x3FFFC#32 [0x02#8, 0x00#8, 0x00#8, 0x35#8] base) 0x3FFFC#32 = some 0x35000002#32 ∧
      base.par.inRom (0x3FFFC#32 + 4) = false) ∧
    (memRead4 atSend 0x100#32 = some 0x35000002#32 ∧ atSend.par.inRom (0x100#32 + 4) = true ∧
      memRead4 atSend (0x100#32 + 4) = some 0x20000000#32 ∧
      (⟨.send, .l, 0x35000000#32, 0xFFFF0000#32⟩ : OpRow) ∈ opTable) := by decide +kernel

theorem witness_ByteWriteChangesOneRamByte :
    base.par.inRam 0x20000000#32 = true ∧ base.par.inRam 0x20003FFF#32 = true ∧ base.par.inRam 0x20004000#32 = false ∧
    base.par.inRam 0x1FFFFFFF#32 = false ∧ base.par.inRom 0x20003FFF#32 = false ∧ 0x20000000#32 ≠ 0x20003FFF#32 := by
  decide +kernel

theorem witness_WordWriteIsLittleEndian :
    ((0x20003FFC#32).toNat % 4 = 0 ∧ (∀ k < 4, base.par.inRam (0x20003FFC#32 + BitVec.ofNat 32 k) = true) ∧
      (∀ k < 4, base.par.inRom (0x20003FFC#32 + BitVec.ofNat 32 k) = false) ∧
      ∀ k < 4, 0x20003FFB#32 ≠ 0x20003FFC#32 + BitVec.ofNat 32 k) ∧
    (0x20003FFD#32).toNat % 4 ≠ 0 ∧ (∃ k < 4, base.par.inRam (0x20004000#32 + BitVec.ofNat 32 k) = false) := by
  decide +kernel

theorem witness_WordReadIsLittleEndian :
    base.par.inRom 0x3FFFF#32 = true ∧
    (base.par.inRom 0x20000000#32 = false ∧ base.par.inRam 0x20000000#32 = true) ∧
    (base.par.inRom 0x40000#32 = false ∧ base.par.inRam 0x40000#32 = false) ∧
    ((0x20003FFC#32).toNat % 4 = 0 ∧ ∀ k < 4, base.par.inRam (0x20003FFC#32 + BitVec.ofNat 32 k) = true) ∧
    ((0x3FFFC#32).toNat % 4 = 0 ∧ ∀ k < 4, base.par.inRom (0x3FFFC#32 + BitVec.ofNat 32 k) = true) ∧
    (0x202#32).toNat % 4 ≠ 0 ∧
    ¬ ((∀ k < 4, base.par.inRom (0x40000#32 + BitVec.ofNat 32 k) = true) ∨
      (∀ k < 4, base.par.inRam (0x40000#32 + BitVec.ofNat 32 k) = true)) := by decide +kernel

theorem witness_FcreateMakesAnEmptyQueueOnce :
    (0#16).toNat = 0 ∧ base.par.fifoMax < (9#16).toNat ∧
    ((8#16).toNat ≠ 0 ∧ (8#16).toNat ≤ base.par.fifoMax ∧
      ((withQueues (queueOf 4 0 0 0 []) noQueue).queue .txq).cap ≠ 0) ∧
    ((8#16).toNat ≤ base.par.fifoMax ∧ (base.queue .rxq).cap = 0) ∧
    ((1#16).toNat ≠ 0 ∧ (1#16).toNat ≤ base.par.fifoMax) := by decide +kernel

theorem witness_FwriteStoresOrReportsFull :
    (base.queue .txq).cnt = (base.queue .txq).cap ∧
    ((withQueues (queueOf 2 0 0 2 []) noQueue).queue .txq).cnt = ((withQueues (queueOf 2 0 0 2 []) noQueue).queue .txq).cap ∧
    ((withQueues (queueOf 2 1 0 1 []) noQueue).queue .txq).cnt ≠ ((withQueues (queueOf 2 1 0 1 []) noQueue).queue .txq).cap := by
  decide +kernel

theorem witness_FreadLoadsOrReportsEmpty :
    (base.queue .rxq).cnt = 0 ∧
    ((withQueues noQueue (queueOf 2 0 1 1 [0x61#8, 0x62#8])).queue .rxq).cnt ≠ 0 ∧
    ((withQueues noQueue (queueOf 2 0 1 1 [0x61#8, 0x62#8])).queue .rxq).buf[1]? = some 0x62#8 := by decide +kernel

theorem witness_QueueIsFirstInFirstOut :
    (queueOf 2 1 0 1 [0x61#8]).wf 8 ∧ (queueOf 2 1 0 1 [0x61#8]).cnt < (queueOf 2 1 0 1 [0x61#8]).cap ∧
    0 < (queueOf 2 1 0 1 [0x61#8]).cnt ∧
    (queueOf 8 0 0 8 []).wf 8 ∧ (queueOf 8 0 0 8 []).cnt = (queueOf 8 0 0 8 []).cap ∧
    noQueue.wf 8 ∧ noQueue.cnt = 0 ∧ noQueue.cnt = noQueue.cap := by decide +kernel

/-- E2's queue, filled part of the way and wholly. -/
theorem witness_QueueRoundTrip :
    (queueOf 4 3 3 0 []).wf 8 ∧ (queueOf 4 3 3 0 []).cnt = 0 ∧
    [0x10#8, 0x20#8, 0x30#8].length ≤ (queueOf 4 3 3 0 []).cap ∧
    [0x10#8, 0x20#8, 0x30#8, 0x40#8].length ≤ (queueOf 4 3 3 0 []).cap := by decide +kernel

theorem witness_FifoCommandsFrame :
    (∃ t, exec (.fwrite .txq 0x41#8) base = .next t) ∧ (∃ t, exec (.favail .txq) base = .next t) ∧
    (∃ t, exec (.fcreate .txq 4#16) base = .next t) := ⟨⟨_, rfl⟩, ⟨_, rfl⟩, ⟨_, rfl⟩⟩

/-- The numbers at the ends of each range of MaskCommandsWriteOneEnable, and which of its two clauses each is in. -/
theorem witness_MaskCommandsWriteOneEnable :
    (∀ n ∈ [16#6, 20#6, 22#6, 41#6], n.toNat ∈ [16, 17, 18, 19, 20] ∨ (22 ≤ n.toNat ∧ n.toNat ≤ 41)) ∧
    (∀ n ∈ [0#6, 15#6, 21#6, 42#6, 63#6], ¬ (n.toNat ∈ [16, 17, 18, 19, 20] ∨ (22 ≤ n.toNat ∧ n.toNat ≤ 41))) := by
  decide +kernel

theorem witness_ControlCommandsFrame :
    (∃ t, exec .endCmd base = .next t) ∧ (∃ t, exec (.imask 18#6) base = .next t) ∧
    (∃ t, exec (.iunmask 21#6) base = .next t) ∧ (∃ t, exec (.intset 1#4) base = .next t) ∧
    (∃ t, exec (.intclr 1#4) base = .next t) :=
  ⟨⟨_, rfl⟩, ⟨_, rfl⟩, ⟨_, rfl⟩, ⟨_, rfl⟩, ⟨_, rfl⟩⟩

theorem witness_ConfigureProgramsTheUart :
    ({ base with tstate := .transmitting } : State).tstate = .transmitting ∧ base.tstate = .idle ∧
    (∀ e ∈ base.par.baudTable, e.1 ≠ (16#8).toNat) ∧
    (base.par.npins ≤ (32#8).toNat ∧ 32#8 ≠ 0xFF#8 ∧ base.par.npins ≤ (254#8).toNat ∧ 254#8 ≠ 0xFF#8) ∧
    base.par.baudTable.find? (fun e => e.1 == (15#8).toNat) = some ((15#8).toNat, 0x10000000#32) ∧
    (∀ p ∈ [31#8, 0#8, 0xFF#8, 0xFF#8], p.toNat < base.par.npins ∨ p = 0xFF#8) := by decide +kernel

/-- A stopped machine takes steps of the other agents: LINE's, and with a request standing IRQ's. -/
theorem witness_EndStopsTheForeground :
    (look (perform (.line .rxTimeout) { base with mode := .stopped }) (fun t => t.mode)) = some .stopped ∧
    (look (step { base with mode := .stopped, irq := { base.irq with pend := BitVec.twoPow 47 2 } })
      (fun t => t.irq.active)) = some 2#6 := by decide +kernel

theorem witness_ConfigureIsIdempotent :
    ∃ t u, exec (.configure 11#8 9#8 0xFF#8 0xFF#8 3#8 false false) base = .next t ∧
      exec (.configure 11#8 9#8 0xFF#8 0xFF#8 3#8 false false) t = .next u := ⟨_, _, rfl, rfl⟩

/-- Not in progress; ready; expired; waiting. -/
theorem witness_PutcWaitsAndWrites :
    base.fg.run = false ∧
    ((withEvents 0b0001#4 (sending true 0 2 false)).fg.run = true ∧
      (withEvents 0b0001#4 (sending true 0 2 false)).uart.events.getLsbD 0 = true) ∧
    ((sending true 0 0 false).fg.run = true ∧ (sending true 0 0 false).uart.events.getLsbD 0 = false ∧
      (sending true 0 0 false).fg.w = 0) ∧
    ((sending true 0 1 false).uart.events.getLsbD 0 = false ∧ (sending true 0 1 false).fg.w = 0 + 1) := by decide +kernel

theorem witness_GetcWaitsAndReads :
    base.fg.run = false ∧
    ((withEvents 0b0010#4 (sending true 0 2 false)).fg.run = true ∧
      (withEvents 0b0010#4 (sending true 0 2 false)).uart.events.getLsbD 1 = true) ∧
    ((sending true 0 0 false).uart.events.getLsbD 1 = false ∧ (sending true 0 0 false).fg.w = 0) ∧
    ((sending true 0 1 false).uart.events.getLsbD 1 = false ∧ (sending true 0 1 false).fg.w = 0 + 1) := by decide +kernel

theorem witness_PutsSendsTheBuffer :
    base.fg.run = false ∧
    ((sending true 2 0 false).fg.run = true ∧ (sending true 2 0 false).fg.i = (2#16).toNat) ∧
    ((sending true 0 0 false).fg.i ≠ (1#16).toNat ∧
      memRead1 (sending true 0 0 false) (0x20004000#32 + BitVec.ofNat 32 0) = none) ∧
    (memRead1 (sending true 1 0 false) (0x20000000#32 + BitVec.ofNat 32 1) = some 0x0A#8 ∧
      (sending true 1 0 false).fg.i ≠ (2#16).toNat ∧ (sending true 1 0 false).fg.w = 0 ∧
      (sending true 1 0 false).uart.events.getLsbD 0 = false ∧ (sending true 1 1 false).fg.w = 0 + 1 ∧
      (withEvents 0b0001#4 (sending true 1 0 false)).uart.events.getLsbD 0 = true) := by decide +kernel

theorem witness_PutzSendsTheString :
    base.fg.run = false ∧ (sending true 2 0 false).fg.run = true ∧
    memRead1 (sending true 0 0 false) (0x20004000#32 + BitVec.ofNat 32 0) = none ∧
    memRead1 (sending true 2 0 false) (0x20000000#32 + BitVec.ofNat 32 2) = some 0x00#8 ∧
    (memRead1 (sending true 1 0 false) (0x20000000#32 + BitVec.ofNat 32 1) = some 0x0A#8 ∧ 0x0A#8 ≠ 0x00#8 ∧
      (sending true 1 0 false).uart.events.getLsbD 0 = false ∧ (sending true 1 0 false).fg.w = 0 ∧
      (sending true 1 1 false).fg.w = 0 + 1 ∧
      (withEvents 0b0001#4 (sending true 1 0 false)).uart.events.getLsbD 0 = true) := by decide +kernel

theorem witness_UnbufferedWaitsAreBounded :
    (sending true 0 1 false).fg.run = true ∧ (∃ t, exec (.putc 0x41#8) (sending true 0 1 false) = .next t) ∧
    ∃ t, exec (.puts 0x20000000#32 2#16) (sending true 0 1 false) = .next t := ⟨rfl, ⟨_, rfl⟩, ⟨_, rfl⟩⟩

theorem witness_UnbufferedCommandsFrame :
    (∃ t, exec (.configure 11#8 9#8 0xFF#8 0xFF#8 3#8 false false) base = .next t) ∧
    (∃ t, exec (.putc 0x41#8) base = .next t) ∧ (∃ t, exec .getc base = .next t) ∧
    (∃ t, exec (.puts 0x20000000#32 2#16) base = .next t) ∧ ∃ t, exec (.putz 0x20000000#32) base = .next t :=
  ⟨⟨_, rfl⟩, ⟨_, rfl⟩, ⟨_, rfl⟩, ⟨_, rfl⟩, ⟨_, rfl⟩⟩

theorem witness_CriticalSectionEnqueuesAndKicks :
    (withQueues (queueOf 4 0 0 0 []) noQueue).txq.cnt ≠ (withQueues (queueOf 4 0 0 0 []) noQueue).txq.cap ∧
    (withQueues (queueOf 4 0 0 0 []) noQueue).tstate = .idle ∧
    ({ withQueues (queueOf 4 0 0 0 []) noQueue with tstate := .transmitting } : State).tstate = .transmitting := by
  decide +kernel

/-- SEND in progress with room in the outbound queue, and with the outbound queue full (never created). -/
def sendRoom (i w : Nat) (cr : Bool) : State := { sending true i w cr with txq := queueOf 4 0 0 0 [] }

theorem witness_SendAdmitsTheBuffer :
    base.fg.run = false ∧
    ((sendRoom 2 0 false).fg.run = true ∧ (sendRoom 2 0 false).fg.cr = false ∧ (sendRoom 2 0 false).fg.i = (2#16).toNat) ∧
    ((sendRoom 0 0 false).fg.i ≠ (2#16).toNat ∧
      memRead1 (sendRoom 0 0 false) (0x50000#32 + BitVec.ofNat 32 0) = none) ∧
    (memRead1 (sendRoom 1 0 false) (0x20000000#32 + BitVec.ofNat 32 1) = some 0x0A#8 ∧
      (sendRoom 1 0 false).fg.i ≠ (2#16).toNat ∧ (sendRoom 1 0 false).txq.cnt ≠ (sendRoom 1 0 false).txq.cap) ∧
    ((sendRoom 2 0 true).fg.run = true ∧ (sendRoom 2 0 true).fg.cr = true) ∧
    ((sending true 2 0 true).txq.cnt = (sending true 2 0 true).txq.cap ∧ (sending true 2 0 true).fg.cr = true ∧
      (sending true 2 0 true).fg.w = 0 ∧ (sending true 2 1 true).fg.w = 0 + 1) ∧
    ((sending true 1 0 false).txq.cnt = (sending true 1 0 false).txq.cap ∧
      memRead1 (sending true 1 0 false) (0x20000000#32 + BitVec.ofNat 32 1) = some 0x0A#8) := by decide +kernel

theorem witness_SendStartsAnIdleTransmitter :
    (sendRoom 0 1 false).txq.wf 8 ∧ (sendRoom 0 1 false).fg.run = true ∧ (sendRoom 0 1 false).fg.cr = false ∧
    (sendRoom 0 1 false).fg.i < (2#16).toNat ∧ (sendRoom 0 1 false).tstate = .idle ∧
    (sendRoom 0 1 false).txq.cnt < (sendRoom 0 1 false).txq.cap ∧
    memRead1 (sendRoom 0 1 false) (0x20000000#32 + BitVec.ofNat 32 (sendRoom 0 1 false).fg.i) = some 0x41#8 := by
  decide +kernel

theorem witness_SendIsBounded :
    (sendRoom 0 1 false).fg.run = true ∧ (sendRoom 0 1 false).fg.i ≤ (2#16).toNat ∧
    (sendRoom 0 1 false).fg.w ≤ (sendRoom 0 1 false).par.tSend ∧
    ∃ t, exec (.send 0x20000000#32 2#16) (sendRoom 0 1 false) = .next t :=
  ⟨rfl, by decide +kernel, by decide +kernel, ⟨_, rfl⟩⟩

/-- RECV in progress with one byte queued. -/
def recvOne (i : Nat) : State := { sending true i 0 false with rxq := queueOf 2 0 1 1 [0x61#8, 0x62#8] }

theorem witness_RecvDrainsTheInboundQueue :
    base.fg.run = false ∧ ((recvOne 2).fg.run = true ∧ (recvOne 2).fg.i = (2#16).toNat) ∧
    (sending true 0 0 false).rxq.cnt = 0 ∧
    ((recvOne 1).fg.i ≠ (2#16).toNat ∧ (recvOne 1).rxq.cnt ≠ 0 ∧
      (recvOne 1).par.inRam (0x20003FFF#32 + BitVec.ofNat 32 1) = false) ∧
    ((recvOne 1).par.inRam (0x20003FFE#32 + BitVec.ofNat 32 1) = true ∧
      (recvOne 1).rxq.buf[(recvOne 1).rxq.rd]? = some 0x62#8) := by decide +kernel

theorem witness_BufferedCommandsFrame :
    (∃ t, exec (.send 0x20000000#32 2#16) (sendRoom 0 1 false) = .next t) ∧
    (∃ t, exec (.recv 0x20000010#32 4#16) (recvOne 0) = .next t) ∧
    0x20000011#32 ≠ bufAddr 0x20000010#32 (recvOne 0).fg.i := ⟨⟨_, rfl⟩, ⟨_, rfl⟩, by decide +kernel⟩

theorem witness_HandlerMicroSteps :
    (inHandler .hs0 0 base).irq.active ≠ 0 ∧ (inHandler .hs0 0 base).irq.halted = false ∧
    (∀ h ∈ [Hpc.hs0, .hs1, .hs2, .hs3, .hs4, .hs5, .ch0], (inHandler h 0 base).irq.hpc = h) ∧
    ((inHandler .hs1 0b0000#4 base).irq.snap.getLsbD 0 = false ∧ (inHandler .hs1 0b0001#4 base).irq.snap.getLsbD 0 = true ∧
      (inHandler .hs1 0b0001#4 base).txq.cnt = 0 ∧
      0 < (inHandler .hs1 0b0001#4 (withQueues (queueOf 4 3 1 2 [0x00#8, 0x0A#8, 0x0D#8]) noQueue)).txq.cnt ∧
      (inHandler .hs1 0b0001#4 (withQueues (queueOf 4 3 1 2 [0x00#8, 0x0A#8, 0x0D#8]) noQueue)).txq.buf[1]? =
        some 0x0A#8) ∧
    ((inHandler .hs2 0b0010#4 base).irq.snap.getLsbD 1 = true ∧
      (inHandler .hs2 0b0010#4 base).rxq.cnt = (inHandler .hs2 0b0010#4 base).rxq.cap ∧
      (inHandler .hs2 0b0010#4 (recvOne 0)).rxq.cnt ≠ (inHandler .hs2 0b0010#4 (recvOne 0)).rxq.cap ∧
      (inHandler .hs2 0b0001#4 base).irq.snap.getLsbD 1 = false) := by decide +kernel

theorem witness_HandlerReturnsInSixSteps :
    (inHandler .hs0 0 base).irq.active ≠ 0 ∧ (inHandler .hs0 0 base).irq.halted = false ∧
    (inHandler .hs0 0 base).irq.hpc = .hs0 := by decide +kernel

/-- H5: a full inbound queue with a byte waiting and its event enabled. -/
def fullInbound : State :=
  inHandler .hs0 0 (withEvents 0b0010#4
    { withQueues noQueue (queueOf 2 0 0 2 [0x61#8, 0x62#8]) with uart := { base.uart with rxd := 0x63#8, inten := 0b0010#4 } })

theorem witness_FullInboundQueueKeepsTheByte :
    fullInbound.irq.active ≠ 0 ∧ fullInbound.irq.halted = false ∧ fullInbound.irq.hpc = .hs0 ∧
    fullInbound.rxq.cnt = fullInbound.rxq.cap ∧ fullInbound.uart.events.getLsbD 1 = true ∧
    fullInbound.uart.inten.getLsbD 1 = true := by decide +kernel

theorem witness_LineStepsRaiseEvents :
    base.uart.rxdValid = false ∧ (withEvents 0b0010#4 base).uart.rxdValid = true := by decide +kernel

theorem witness_ExtRequestPendsOneLine :
    (2 ∈ base.par.extLines ∧ 2 < 47) ∧ (41 ∈ base.par.extLines ∧ 41 < 47) ∧ 18 ∉ base.par.extLines ∧
    47 ∉ base.par.extLines := by decide +kernel

/-- `base` with a system exception pending, and with the UART line requested and enabled. -/
def usagePending : State := { base with irq := { base.irq with pend := BitVec.twoPow 47 6 } }
def uartRequested : State :=
  { base with
    uart := { base.uart with events := 0b0010#4, inten := 0b0010#4 }
    irq := { base.irq with irqen := BitVec.twoPow 47 18 } }

theorem witness_DispatchTakesTheException :
    (dispatchable usagePending 6 = true ∧
      memRead4 usagePending (usagePending.par.vtBase + BitVec.ofNat 32 (4 * 6)) = some 0x00000000#32) ∧
    (dispatchable uartRequested 18 = true ∧
      memRead4 uartRequested (uartRequested.par.vtBase + BitVec.ofNat 32 (4 * 18)) = some 0x00000000#32) := by
  decide +kernel

theorem witness_LowestNumberIsDispatchable :
    dispatchable usagePending 6 = true ∧
    usagePending.irq.active = 0 ∧ usagePending.irq.halted = false ∧ requested usagePending 6 = true ∧
    enabled usagePending 6 = true ∧ ∀ k < 6, ¬ (requested usagePending k = true ∧ enabled usagePending k = true) := by
  decide +kernel

theorem witness_DispatchEntersTheBoundEngine :
    ({ usagePending with par := Params.exampleX } : State).par.wf = true ∧
    dispatchable { usagePending with par := Params.exampleX } 6 = true ∧
    dispatchable { uartRequested with par := Params.exampleX } 18 = true :=
  ⟨test_wf_exampleX, by decide +kernel, by decide +kernel⟩

theorem witness_IcsrHoldsItsThreeFields :
    (requested uartRequested 18 = true ∧ enabled uartRequested 18 = true ∧
      ∀ k < 18, ¬ (requested uartRequested k = true ∧ enabled uartRequested k = true)) ∧
    (∀ n, ¬ (requested base n = true ∧ enabled base n = true)) ∧ (6 ≤ 18 ∧ ¬ (12 ≤ 18 ∧ 18 ≤ 17) ∧ 18 ≠ 22) ∧
    (6 ≤ 11 ∧ ¬ (12 ≤ 11 ∧ 11 ≤ 17) ∧ 11 ≠ 22) := by
  refine ⟨by decide +kernel, fun n h => ?_, by decide, by decide⟩
  have h1 := h.1
  simp only [requested] at h1
  split at h1
  · exact absurd h1 (by decide +kernel)
  · have h2 : (0#47).getLsbD n = true := (Bool.and_eq_true _ _ ▸ h1).2
    simp at h2

theorem witness_DefaultHandlerLatchesAndHalts :
    (inHandler .dh0 0 base).irq.active ≠ 0 ∧ (inHandler .dh0 0 base).irq.halted = false ∧
    (inHandler .dh0 0 base).irq.hpc = .dh0 ∧ (inHandler .dh1 0 base).irq.hpc = .dh1 := by decide +kernel

/-- A halted machine, and the step LINE still takes. -/
def haltedState : State :=
  { base with sched := [.line .rxTimeout], irq := { base.irq with active := 6, hpc := .dh1, halted := true } }

theorem witness_HaltIsForEver : haltedState.irq.halted = true ∧ ∃ t, step haltedState = .next t := ⟨rfl, _, rfl⟩

theorem witness_NoNestingOfHandlers :
    (inHandler .hs0 0 base).irq.active ≠ 0 ∧ ∃ t, irqStep (inHandler .hs0 0 base) = .next t :=
  ⟨by decide +kernel, _, rfl⟩

theorem witness_RaisedFaultStopsTheForeground : base.irq.active = 0 ∧ base.irq.halted = false := by decide +kernel

theorem witness_OtherAgentsLeaveTheForeground :
    Move.irq ≠ .fg ∧ (∃ t, perform .irq (inHandler .hs1 0b0001#4 base) = .next t) ∧ Move.line .txReady ≠ .fg ∧
    (∃ t, perform (.line .txReady) base = .next t) ∧ Move.ext 2 ≠ .fg ∧ ∃ t, perform (.ext 2) base = .next t :=
  ⟨by decide, ⟨_, rfl⟩, by decide, ⟨_, rfl⟩, by decide, ⟨_, rfl⟩⟩

/-- Set X with slot 24 bound to a custom handler at 0xF0. -/
def parCustom : Params :=
  let p : Params := { Params.exampleX with bind := (24, .custom 0xF0#32) :: plainBind }
  { p with rom := vectorCells p ++ romCells 0x200 (wordBytes 0x00000A41#32) }

theorem witness_VectorTableOfAWellFormedSet :
    parCustom.wf = true ∧ (24, .custom 0xF0#32) ∈ parCustom.bind ∧ hasPend 2 = true ∧ hasPend 41 = true ∧
    ∀ a, (2, .custom a) ∉ parCustom.bind := by
  refine ⟨by decide +kernel, by decide +kernel, by decide, by decide, fun a h => ?_⟩
  have h1 : ∀ e ∈ parCustom.bind, e.1 ≠ 2 := by decide +kernel
  exact h1 _ h rfl

theorem witness_ResetLeavesWhatTheRuleGives : Params.exampleX.wf = true ∧ par.wf = false :=
  ⟨test_wf_exampleX, by decide +kernel⟩

/-- The initializer at a source, a destination and a mode. -/
def booting (m : Mode) (src dst : Word) : State :=
  { base with mode := m, fg := { run := false, i := 0, w := 0, cr := false, src := src, dst := dst } }

theorem witness_InitializerStepsAsRule :
    (fgEnabled (booting .copy 0x200#32 0x20000000#32) = true ∧ fgEnabled (booting .zero 0x200#32 0x20000000#32) = true) ∧
    ((0x202#32).toNat < base.par.dataSrcEnd.toNat ∧ memRead4 (booting .copy 0x202#32 0x20000000#32) 0x202#32 = none) ∧
    (memRead4 (booting .copy 0x200#32 0x200#32) 0x200#32 = some 0 ∧
      memWrite4 (booting .copy 0x200#32 0x200#32) 0x200#32 0 = none) ∧
    ((0x200#32).toNat < base.par.dataSrcEnd.toNat ∧
      (memWrite4 (booting .copy 0x200#32 0x20000000#32) 0x20000000#32 0).isSome = true) ∧
    base.par.dataSrcEnd.toNat ≤ (0x204#32).toNat ∧
    ((0x200#32).toNat < base.par.zeroEnd.toNat ∧ memWrite4 (booting .zero 0 0x200#32) 0x200#32 0 = none) ∧
    ((0x20000004#32).toNat < base.par.zeroEnd.toNat ∧
      (memWrite4 (booting .zero 0 0x20000004#32) 0x20000004#32 0).isSome = true) ∧
    base.par.zeroEnd.toNat ≤ (0x20000008#32).toNat := by decide +kernel

theorem witness_InitializerEstablishesTheImage :
    Params.exampleX.wf = true ∧
    (par.dataSrcStart.toNat + 3 < par.dataSrcEnd.toNat ∧
      ¬ (par.zeroStart.toNat ≤ par.dataDstStart.toNat + 3 ∧ par.dataDstStart.toNat + 3 < par.zeroEnd.toNat)) ∧
    (par.zeroStart.toNat ≤ (0x20000007#32).toNat ∧ (0x20000007#32).toNat < par.zeroEnd.toNat) ∧
    (par.inRam 0x20000008#32 = true ∧
      ¬ (par.zeroStart.toNat ≤ (0x20000008#32).toNat ∧ (0x20000008#32).toNat < par.zeroEnd.toNat) ∧
      ¬ (par.dataDstStart.toNat ≤ (0x20000008#32).toNat ∧ (0x20000008#32).toNat < par.dataDstEnd.toNat)) :=
  ⟨test_wf_exampleX, by decide +kernel⟩

/-- The reset state meets Inv. -/
theorem witness_Inv : Inv State.reset where
  parWf := test_wf_exampleX
  ramWf := ⟨empty_wf none, fun c hc => absurd hc List.not_mem_nil⟩
  txqWf := by decide +kernel
  rxqWf := by decide +kernel
  rxdValid := by decide +kernel
  pendLegal := by decide +kernel
  irqenLegal := by decide +kernel
  activeLegal := by decide +kernel
  engine := by decide +kernel
  haltedLegal := by decide +kernel
  statLegal := by decide +kernel
  spStack := by decide +kernel
  pcBoot := by decide +kernel
  pcAligned := by decide +kernel
  runMode := by decide +kernel
  budget := by decide +kernel
  copyCursors := by decide +kernel
  zeroCursor := by decide +kernel
  transmitting := by decide +kernel
  enableRun := by decide +kernel
  configured := by decide +kernel
  txdLast := by decide +kernel

theorem witness_step_of_reset : ∃ t, step State.reset = .next t := by
  have h : (look (step State.reset) (fun _ => ())).isSome = true := by decide +kernel
  cases hs : step State.reset with
  | next t => exact ⟨t, rfl⟩
  | fault r => rw [hs] at h; exact absurd h (by simp [look])
  | refused r => rw [hs] at h; exact absurd h (by simp [look])

theorem witness_EveryStepKeepsTheInvariant : ∃ s t, Inv s ∧ step s = .next t :=
  let ⟨t, h⟩ := witness_step_of_reset
  ⟨State.reset, t, witness_Inv, h⟩

theorem witness_ResetMeetsTheInvariant : Params.exampleX.wf = true := test_wf_exampleX

theorem witness_RxdValidIsTheReceiveFlag :
    ∃ s t, s.uart.rxdValid = s.uart.events.getLsbD 1 ∧ step s = .next t :=
  let ⟨t, h⟩ := witness_step_of_reset
  ⟨State.reset, t, rfl, h⟩

theorem witness_QueueInvariantsAreKept :
    ∃ s t, s.txq.wf s.par.fifoMax ∧ s.rxq.wf s.par.fifoMax ∧ step s = .next t :=
  let ⟨t, h⟩ := witness_step_of_reset
  ⟨State.reset, t, witness_Inv.txqWf, witness_Inv.rxqWf, h⟩

theorem witness_SpRomAndParametersAreFixed : ∃ s t, step s = .next t := ⟨State.reset, witness_step_of_reset⟩

theorem witness_UnscheduledMachineAlwaysSteps : ∃ s, Inv s ∧ s.sched = [] := ⟨State.reset, witness_Inv, rfl⟩

/-! ### A run that ends (R248, R249) -/

/-- Set X, closed (EXT_LINES empty), with END at APP_ENTRY. -/
def endingPar : Params := { Params.exampleX with extLines := [], rom := romStore Params.exampleX.rom 0x100 [0, 0, 0, 0x01#8] }

theorem test_ending_end_state :
    look (performAll (List.replicate 5 .fg) (State.resetWith endingPar PowerOn.zero))
      (fun t => (quiescent t, t.mode, t.pc, t.logs.txOwed)) = some (true, .stopped, 0x100#32, 0) := by decide +kernel

/-- Four initializer steps and END: a finite run in which neither LINE nor EXT moves. -/
theorem test_ending_program_is_a_finite_run : ∃ t, IsFiniteRun (List.replicate 5 .fg) t ∧ t.logs.txOwed = 0 := by
  have h := test_ending_end_state
  simp only [look] at h
  split at h
  · rename_i t ht
    simp only [Option.some.injEq, Prod.mk.injEq] at h
    exact ⟨t, ⟨⟨endingPar, PowerOn.zero, by decide +kernel, ht⟩, h.1⟩, h.2.2.2⟩
  · simp at h
  · simp at h

/-- The premises of R181, R247 and R248 hold together of that ended program's run, which asks no step of LINE or EXT. -/
theorem witness_fair_run_that_ends : ∃ states moves, IsRun states moves ∧ irqFair states moves ∧ fgFair states moves ∧
    lineFairTx states moves ∧ everyStep lineWbRx states moves ∧ everyStep lineWbTx states moves ∧
    ∀ k m, moves k = some m → m = Move.fg := by
  obtain ⟨t, ht, ho⟩ := test_ending_program_is_a_finite_run
  obtain ⟨states, hr, he⟩ := finite_run_is_run ht
  have hfg : ∀ k m, (List.replicate 5 Move.fg)[k]? = some m → m = Move.fg := fun k m hm =>
    List.eq_of_mem_replicate (n := 5) (List.mem_of_getElem? (i := k) hm)
  have hf := ended_run_is_fair hr (k := 5) rfl
  refine ⟨states, _, hr, hf.1, hf.2, fun k => ⟨k + 5, Nat.le_add_right k 5, .inl ?_⟩, ?_, ?_, hfg⟩
  · rw [he (k + 5) (by simp), ho]
    simp
  · intro k m hm e h _
    exact absurd ((hfg k m hm).symm.trans h) (by simp)
  · intro k m hm h
    exact absurd ((hfg k m hm).symm.trans h) (by simp)

end Sys2Proof.Tests
end

/-! ## Proofs: the state (10_state.md)

What no command's step changes, the fields of ICSR, and the state after reset. -/

namespace Sys2Proof.Machine

/-! ### Every command answers, and keeps the parameters, SP and ACTIVE -/

/-- The answer is a next state with the parameters, SP and ACTIVE of `s`. -/
def AnswersKeepingFixed (s : State) (r : Answer) : Prop :=
  ∃ t, r = .next t ∧ t.par = s.par ∧ t.sp = s.sp ∧ t.irq.active = s.irq.active

@[simp] theorem answersKeepingFixed_next (s t : State) :
    AnswersKeepingFixed s (.next t) ↔ t.par = s.par ∧ t.sp = s.sp ∧ t.irq.active = s.irq.active := by
  simp [AnswersKeepingFixed]

@[simp] theorem critTx_sp (b : Byte) (s : State) : (critTx b s).sp = s.sp := by rw [critTx_frame]

@[simp] theorem critTx_irq (b : Byte) (s : State) : (critTx b s).irq = s.irq := by rw [critTx_frame]

theorem admission_keepsFixed (b : Byte) (s : State) : AnswersKeepingFixed s (.next (admission b s)) := by
  obtain ⟨-, -, h⟩ | ⟨-, -, h⟩ | ⟨-, -, h⟩ | ⟨-, -, h⟩ := admission_cases b s <;> simp [h, critTx_par]

theorem sendUnbufferedByte_keepsFixed (b : Byte) (s : State) :
    AnswersKeepingFixed s (.next (sendUnbufferedByte b s)) := by
  obtain ⟨-, h⟩ | ⟨-, -, h⟩ | ⟨-, -, h⟩ := poll_cases bitTxdrdy s <;> simp [sendUnbufferedByte, h]

section Commands
variable (s : State)

theorem execFcreate_keepsFixed (q : QId) (cap : BitVec 16) : AnswersKeepingFixed s (execFcreate q cap s) := by
  unfold execFcreate
  split
  · simp
  · split <;> simp

theorem execFread_keepsFixed (q : QId) : AnswersKeepingFixed s (execFread q s) := by
  obtain ⟨-, h⟩ | ⟨-, h⟩ := fifoRead_cases (s.queue q) <;> simp [execFread, h]

theorem execImask_keepsFixed (n : BitVec 6) : AnswersKeepingFixed s (execImask n s) := by
  cases h : hasIrqen n.toNat <;> simp [execImask, h]

theorem execIunmask_keepsFixed (n : BitVec 6) : AnswersKeepingFixed s (execIunmask n s) := by
  cases h : hasIrqen n.toNat <;> simp [execIunmask, h]

theorem execConfigure_keepsFixed (rx tx rts cts sel : Byte) (parity flow : Bool) :
    AnswersKeepingFixed s (execConfigure rx tx rts cts sel parity flow s) := by
  unfold execConfigure
  split
  · simp
  · split
    · simp
    · split <;> simp [configureUart_eq]

theorem execPutc_keepsFixed (byte : Byte) : AnswersKeepingFixed s (execPutc byte s) := by
  unfold execPutc
  split
  · simp
  · split <;> simp

theorem execGetc_keepsFixed : AnswersKeepingFixed s (execGetc s) := by
  unfold execGetc
  split
  · simp
  · split <;> simp

theorem execPuts_keepsFixed (addr : Word) (len : BitVec 16) : AnswersKeepingFixed s (execPuts addr len s) := by
  unfold execPuts
  split
  · simp
  · split
    · simp
    · split
      · simp
      · exact sendUnbufferedByte_keepsFixed _ s

theorem execPutz_keepsFixed (addr : Word) : AnswersKeepingFixed s (execPutz addr s) := by
  unfold execPutz
  split
  · simp
  · split
    · simp
    · split
      · simp
      · exact sendUnbufferedByte_keepsFixed _ s

theorem execSend_keepsFixed (addr : Word) (len : BitVec 16) : AnswersKeepingFixed s (execSend addr len s) := by
  unfold execSend
  split
  · simp
  · split
    · simp
    · split
      · exact admission_keepsFixed _ s
      · split
        · simp
        · exact admission_keepsFixed _ s

/-- Where RECV reads the queue, only RXQ and then RAM change: the critical section restores irqen. -/
theorem execRecv_keepsFixed (addr : Word) (max : BitVec 16) : AnswersKeepingFixed s (execRecv addr max s) := by
  unfold execRecv
  split
  · simp
  · split
    · simp
    · split
      · simp
      · split
        · simp
        · rename_i b s1 hread
          obtain ⟨r, -, hs1⟩ := Option.map_eq_some_iff.1 (critRx_eq s ▸ hread)
          obtain ⟨-, rfl⟩ := Prod.mk.inj hs1
          split
          · simp
          · rename_i s2 hwrite
            obtain ⟨-, rfl⟩ := memWrite1_cases hwrite
            simp

end Commands

theorem exec_keepsFixed (i : Instr) (s : State) : AnswersKeepingFixed s (exec i s) := by
  cases i with
  | endCmd => simp [exec, execEnd]
  | fcreate q cap => exact execFcreate_keepsFixed s q cap
  | fwrite q byte => simp [exec, execFwrite]
  | fread q => exact execFread_keepsFixed s q
  | ffull q => simp [exec, execFfull]
  | fempty q => simp [exec, execFempty]
  | favail q => simp [exec, execFavail]
  | imask n => exact execImask_keepsFixed s n
  | iunmask n => exact execIunmask_keepsFixed s n
  | intset mask => simp [exec, execIntset]
  | intclr mask => simp [exec, execIntclr]
  | configure rx tx rts cts sel parity flow => exact execConfigure_keepsFixed s rx tx rts cts sel parity flow
  | putc byte => exact execPutc_keepsFixed s byte
  | getc => exact execGetc_keepsFixed s
  | puts addr len => exact execPuts_keepsFixed s addr len
  | putz addr => exact execPutz_keepsFixed s addr
  | send addr len => exact execSend_keepsFixed s addr len
  | recv addr max => exact execRecv_keepsFixed s addr max

/-- Settles O36, command by command. -/
theorem everyCommandStepAnswersNext : Obligations.EveryCommandStepAnswersNext :=
  fun i s => exec_keepsFixed i s

/-! ### The fields of ICSR (R36) -/

/-- Every bit of ICSR. Bit 22 is the one place where a field is a single bit; elsewhere the fields' bounds decide. -/
theorem getLsbD_icsr (s : State) (k : Nat) :
    (icsr s).getLsbD k =
      if k < 6 then s.irq.active.getLsbD k
      else if 12 ≤ k ∧ k < 18 then (vectPending s).getLsbD (k - 12)
      else decide (k = 22) && isrPending s := by
  simp only [icsr, BitVec.getLsbD_append, BitVec.getLsbD_zero, BitVec.getLsbD_ofBool]
  by_cases hisr : k = 22
  · simp [hisr]
  · grind

theorem icsr_vectActive (s : State) : (icsr s).extractLsb' 0 6 = s.irq.active := by
  apply BitVec.eq_of_getLsbD_eq
  intro k hk
  simp [getLsbD_icsr, hk]

theorem icsr_vectPending (s : State) : (icsr s).extractLsb' 12 6 = vectPending s := by
  apply BitVec.eq_of_getLsbD_eq
  intro k hk
  have hmid : 12 ≤ 12 + k ∧ 12 + k < 18 := by omega
  rw [BitVec.getLsbD_extractLsb', getLsbD_icsr, if_neg (by omega), if_pos hmid]
  simp [hk]

theorem vectPending_toNat_of_some {s : State} {n : Nat} (h : lowestPending s = some n) :
    (vectPending s).toNat = n := by
  have hreq := ((lowestPending_eq_some s n).1 h).1
  have hlt : n < 47 := requested_lt hreq
  simp only [vectPending, h, Option.getD_some, BitVec.toNat_ofNat]
  omega

theorem vectPending_eq_zero_of_none {s : State} (h : lowestPending s = none) : vectPending s = 0 := by
  simp [vectPending, h]

theorem isrPending_iff (s : State) : isrPending s = true ↔ ∃ n, 16 ≤ n ∧ requested s n = true := by
  simp only [isrPending, List.any_eq_true, List.mem_range, Bool.and_eq_true, decide_eq_true_eq]
  constructor
  · rintro ⟨n, -, h⟩
    exact ⟨n, h⟩
  · rintro ⟨n, h⟩
    exact ⟨n, requested_lt h.2, h⟩

/-- Nothing is requested after reset: EVENTS, INTEN and pend are 0 (R43). -/
theorem requested_resetWith (p : Params) (u : PowerOn) (n : Nat) : requested (State.resetWith p u) n = false := by
  simp [requested, State.resetWith]

theorem icsr_resetWith (p : Params) (u : PowerOn) : icsr (State.resetWith p u) = 0 := by
  have hlow : lowestPending (State.resetWith p u) = none :=
    (lowestPending_eq_none _).2 fun n => by simp [requested_resetWith]
  have hisr : isrPending (State.resetWith p u) = false := by
    simp [isrPending, requested_resetWith]
  have hact : (State.resetWith p u).irq.active = 0 := rfl
  simp [icsr, hisr, vectPending_eq_zero_of_none hlow, hact]

/-- Settles O45, by the bits of ICSR and the dispatcher's choice. -/
theorem icsrHoldsItsThreeFields : Obligations.IcsrHoldsItsThreeFields := by
  refine ⟨icsr_resetWith, fun s => ⟨icsr_vectActive s, ?_, ?_, ?_, ?_⟩⟩
  · intro n hreq hen hmin
    rw [icsr_vectPending]
    exact vectPending_toNat_of_some ((lowestPending_eq_some s n).2 ⟨hreq, hen, hmin⟩)
  · intro hnone
    rw [icsr_vectPending]
    exact vectPending_eq_zero_of_none ((lowestPending_eq_none s).2 hnone)
  · rw [← isrPending_iff, getLsbD_icsr]
    simp
  · intro k hlow hmid hisr
    rw [getLsbD_icsr, if_neg (by omega), if_neg (by omega)]
    simp [hisr]

/-! ### The state after reset (R43, R231) -/

theorem vectorChecks_of_wf {p : Params} (h : p.wf = true) : p.vtPlaceOk = true ∧ p.vectorsOk = true := by
  simp only [Params.wf, Bool.and_eq_true] at h
  simp only [h, and_self]

/-- Every byte of the vector table lies in ROM (R5). -/
theorem inRom_slotAddr {p : Params} (h : p.vtPlaceOk = true) {n k : Nat} (hn : n < slotCount) (hk : k < 4) :
    p.inRom (p.slotAddr n + BitVec.ofNat 32 k) = true := by
  simp only [Params.vtPlaceOk, Bool.and_eq_true, decide_eq_true_eq] at h
  obtain ⟨⟨-, hbase⟩, htop⟩ := h
  have hn' : n < 47 := hn
  have hend := p.romEnd.isLt
  have haddr : (p.slotAddr n + BitVec.ofNat 32 k).toNat = p.vtBase.toNat + (4 * n + k) := by
    simp only [Params.slotAddr, BitVec.toNat_add, BitVec.toNat_ofNat]
    omega
  simp only [Params.inRom, haddr, Bool.and_eq_true, decide_eq_true_eq]
  omega

/-- A word of ROM does not depend on the run's draw or on RAM. -/
theorem busRead4_rom {p : Params} {a : Word} (h : ∀ k < 4, p.inRom (a + BitVec.ofNat 32 k) = true)
    (seed seed' : Nat) (ram ram' : Memory) : busRead4 p seed ram a = busRead4 p seed' ram' a := by
  have h0 : p.inRom a = true := by simpa using h 0 (by omega)
  have h1 : p.inRom (a + 1) = true := h 1 (by omega)
  have h2 : p.inRom (a + 2) = true := h 2 (by omega)
  have h3 : p.inRom (a + 3) = true := h 3 (by omega)
  simp only [busRead4, busRead1, h0, h1, h2, h3, if_true]

/-- In a well-formed set every slot reads as the word R191 gives it, whatever the draw and RAM. -/
theorem vectorFetch_of_wf {p : Params} (h : p.wf = true) {n : Nat} (hn : n < slotCount) (seed : Nat) (ram : Memory) :
    vectorFetch p seed ram n = some (p.vectorWord n) := by
  obtain ⟨hplace, hwords⟩ := vectorChecks_of_wf h
  have hword : vectorFetch p 0 [] n = some (p.vectorWord n) := by
    simpa using List.all_eq_true.1 hwords n (List.mem_range.2 hn)
  rw [← hword]
  exact busRead4_rom (fun k hk => inRom_slotAddr hplace hn hk) seed 0 ram []

theorem boot_of_wf {p : Params} (h : p.wf = true) (u : PowerOn) : State.boot p u = .next (State.resetWith p u) := by
  simp [State.boot, h]

theorem boot_of_not_wf {p : Params} (h : p.wf = false) (u : PowerOn) :
    State.boot p u = .refused .illFormedParameters := by
  simp [State.boot, h]

theorem resetWith_sp {p : Params} (h : p.wf = true) (u : PowerOn) : (State.resetWith p u).sp = p.stackTop := by
  simp [State.resetWith, vectorFetch_of_wf h (n := 0) (by decide), Params.vectorWord]

theorem resetWith_pc {p : Params} (h : p.wf = true) (u : PowerOn) : (State.resetWith p u).pc = p.addrReset := by
  simp [State.resetWith, vectorFetch_of_wf h (n := 1) (by decide), Params.vectorWord]

/-- At reset neither queue has been created (R43). -/
theorem resetWith_queue (p : Params) (u : PowerOn) (q : QId) :
    ((State.resetWith p u).queue q).cap = 0 ∧ ((State.resetWith p u).queue q).wr = 0 ∧
    ((State.resetWith p u).queue q).rd = 0 ∧ ((State.resetWith p u).queue q).cnt = 0 := by
  cases q <;> exact ⟨rfl, rfl, rfl, rfl⟩

/-- Settles O52: SP and pc come from the vector table in ROM, ICSR is computed, every other value is written as such. -/
theorem resetLeavesWhatTheRuleGives : Obligations.ResetLeavesWhatTheRuleGives := by
  refine ⟨fun p u h => boot_of_not_wf h u, fun p u h => ?_⟩
  exact ⟨boot_of_wf h u, resetWith_sp h u, resetWith_pc h u, rfl, rfl, rfl, resetWith_queue p u, rfl, rfl, rfl, rfl, rfl,
    rfl, rfl, rfl, rfl, rfl, rfl, icsr_resetWith p u, rfl, rfl⟩

end Sys2Proof.Machine

/-! ## Proofs: memory (20_memory.md)

The byte is the unit: a word write is four byte writes and a word read four byte reads, lowest address first. -/

namespace Sys2Proof.Machine

/-! ### The four bytes of a word -/

/-- The model tests the four addresses one by one; the statements quantify over the offset. -/
theorem allFour_iff (region : Word → Bool) (a : Word) :
    (region a && region (a + 1) && region (a + 2) && region (a + 3)) = true ↔
      ∀ k < 4, region (a + BitVec.ofNat 32 k) = true := by
  have h0 : a + BitVec.ofNat 32 0 = a := BitVec.add_zero a
  simp only [Nat.forall_lt_succ_right, Nat.not_lt_zero, false_implies, implies_true, true_and, h0, Bool.and_eq_true]
  rfl

theorem aligned4_iff (a : Word) : aligned4 a = true ↔ a.toNat % 4 = 0 := by
  simp [aligned4]

theorem wordMapped_iff (p : Params) (a : Word) :
    p.wordMapped a = true ↔
      (∀ k < 4, p.inRom (a + BitVec.ofNat 32 k) = true) ∨ ∀ k < 4, p.inRam (a + BitVec.ofNat 32 k) = true := by
  rw [Params.wordMapped, Bool.or_eq_true, allFour_iff, allFour_iff]

theorem byteOfWord_wordOfBytes (b : Nat → Byte) {k : Nat} (hk : k < 4) :
    byteOfWord (wordOfBytes (b 0) (b 1) (b 2) (b 3)) k = b k := by
  have hbytes := wordBytes_wordOfBytes (b 0) (b 1) (b 2) (b 3)
  simp only [wordBytes, List.cons.injEq, and_true] at hbytes
  obtain ⟨h0, h1, h2, h3⟩ := hbytes
  match k, hk with
  | 0, _ => exact h0
  | 1, _ => exact h1
  | 2, _ => exact h2
  | 3, _ => exact h3

/-! ### Reads (R53, R54) -/

theorem memRead1_of_inRom {s : State} {a : Word} (h : s.par.inRom a = true) :
    memRead1 s a = some (romByte s.par a) := by
  simp [memRead1, busRead1, h]

theorem memRead1_of_inRam {s : State} {a : Word} (hrom : s.par.inRom a = false) (hram : s.par.inRam a = true) :
    memRead1 s a = some (ramByte s.seed s.ram a) := by
  simp [memRead1, busRead1, hrom, hram]

theorem memRead1_of_unmapped {s : State} {a : Word} (hrom : s.par.inRom a = false) (hram : s.par.inRam a = false) :
    memRead1 s a = none := by
  simp [memRead1, busRead1, hrom, hram]

theorem exists_memRead1_of_mapped {s : State} {a : Word} (h : s.par.inRom a = true ∨ s.par.inRam a = true) :
    ∃ b, memRead1 s a = some b := by
  obtain ⟨-, hb⟩ | ⟨-, -, hb⟩ | ⟨hrom, hram, -⟩ := memRead1_cases s a
  · exact ⟨_, hb⟩
  · exact ⟨_, hb⟩
  · simp [hrom, hram] at h

/-- Every byte of a mapped word can be read. -/
theorem exists_memRead1_of_wordMapped {s : State} {a : Word} (h : s.par.wordMapped a = true) :
    ∃ b : Nat → Byte, ∀ k < 4, memRead1 s (a + BitVec.ofNat 32 k) = some (b k) := by
  refine ⟨fun k => (memRead1 s (a + BitVec.ofNat 32 k)).getD 0, fun k hk => ?_⟩
  have hmapped : s.par.inRom (a + BitVec.ofNat 32 k) = true ∨ s.par.inRam (a + BitVec.ofNat 32 k) = true :=
    ((wordMapped_iff _ _).1 h).imp (fun hrom => hrom k hk) (fun hram => hram k hk)
  obtain ⟨b, hb⟩ := exists_memRead1_of_mapped hmapped
  simp [hb]

/-- An aligned read of a mapped word puts its four bytes together. -/
theorem memRead4_of_bytes {s : State} {a : Word} (ha : a.toNat % 4 = 0) (hm : s.par.wordMapped a = true)
    {b : Nat → Byte} (hb : ∀ k < 4, memRead1 s (a + BitVec.ofNat 32 k) = some (b k)) :
    memRead4 s a = some (wordOfBytes (b 0) (b 1) (b 2) (b 3)) := by
  have h0 : busRead1 s.par s.seed s.ram a = some (b 0) := by simpa [memRead1] using hb 0 (by decide)
  have h1 : busRead1 s.par s.seed s.ram (a + 1) = some (b 1) := hb 1 (by decide)
  have h2 : busRead1 s.par s.seed s.ram (a + 2) = some (b 2) := hb 2 (by decide)
  have h3 : busRead1 s.par s.seed s.ram (a + 3) = some (b 3) := hb 3 (by decide)
  rw [memRead4, busRead4, (aligned4_iff a).2 ha, hm, h0, h1, h2, h3]
  rfl

theorem memRead4_eq_none {s : State} {a : Word} (h : ¬ (a.toNat % 4 = 0 ∧ s.par.wordMapped a = true)) :
    memRead4 s a = none := by
  rw [← aligned4_iff, ← Bool.and_eq_true] at h
  rw [memRead4, busRead4, if_neg h]

/-- Settles O10: the three regions of a byte read, and a word read as four byte reads. -/
theorem wordReadIsLittleEndian : Obligations.WordReadIsLittleEndian := by
  refine fun s a => ⟨memRead1_of_inRom, memRead1_of_inRam, memRead1_of_unmapped, fun ha hregion => ?_, fun h => ?_⟩
  · have hm := (wordMapped_iff s.par a).2 hregion
    obtain ⟨b, hb⟩ := exists_memRead1_of_wordMapped hm
    refine ⟨_, memRead4_of_bytes ha hm hb, fun k hk => ?_⟩
    rw [hb k hk, ← byteOfWord_wordOfBytes b hk, byteOfWord]
  · rw [← wordMapped_iff] at h
    exact memRead4_eq_none fun ⟨ha, hm⟩ => h.elim (· ha) (· hm)

/-! ### RAM with other contents

A write changes the contents of RAM and nothing else, so a byte read after it asks for the new RAM byte only. -/

theorem memRead1_setRam_of_ramByte_eq {s : State} {m : Memory} {b : Word}
    (h : ramByte s.seed m b = ramByte s.seed s.ram b) : memRead1 { s with ram := m } b = memRead1 s b := by
  simp only [memRead1, busRead1, h]

theorem memRead1_setRam_of_inRam {s : State} {m : Memory} {b : Word} {v : Byte} (hrom : s.par.inRom b = false)
    (hram : s.par.inRam b = true) (h : ramByte s.seed m b = v) : memRead1 { s with ram := m } b = some v :=
  (memRead1_of_inRam (s := { s with ram := m }) hrom hram).trans (congrArg some h)

/-! ### Byte writes (R55) -/

theorem memWrite1_of_inRam {s : State} {a : Word} (h : s.par.inRam a = true) (v : Byte) :
    memWrite1 s a v = some { s with ram := s.ram.write none a.toNat v } := by
  simp [memWrite1, busWrite1, h]

theorem memWrite1_of_not_inRam {s : State} {a : Word} (h : s.par.inRam a = false) (v : Byte) :
    memWrite1 s a v = none := by
  simp [memWrite1, busWrite1, h]

/-- Settles O8, by what a RAM byte is after one byte has been written. -/
theorem byteWriteChangesOneRamByte : Obligations.ByteWriteChangesOneRamByte := by
  refine fun s a v => ⟨fun hram => ?_, fun hram => memWrite1_of_not_inRam hram v⟩
  refine ⟨_, memWrite1_of_inRam hram v, rfl, fun b => ramByte_write s.seed s.ram a b v, fun hrom => ?_, fun b hb => ?_⟩
  · refine memRead1_setRam_of_inRam hrom hram ?_
    rw [ramByte_write, if_pos rfl]
  · refine memRead1_setRam_of_ramByte_eq ?_
    rw [ramByte_write, if_neg hb]

/-! ### Word writes (R56) -/

/-- RAM after the lowest `n` bytes of `v` have been written from `a` up. -/
def writeLowBytes (ram : Memory) (a v : Word) : Nat → Memory
  | 0 => ram
  | n + 1 => (writeLowBytes ram a v n).write none (a + BitVec.ofNat 32 n).toNat (byteOfWord v n)

/-- A word write is its four byte writes. -/
theorem memWrite4_of_inRam {s : State} {a : Word} (ha : a.toNat % 4 = 0)
    (hram : ∀ k < 4, s.par.inRam (a + BitVec.ofNat 32 k) = true) (v : Word) :
    memWrite4 s a v = some { s with ram := writeLowBytes s.ram a v 4 } := by
  have h0 : a + BitVec.ofNat 32 0 = a := BitVec.add_zero a
  rw [memWrite4, busWrite4, (aligned4_iff a).2 ha, (allFour_iff s.par.inRam a).2 hram]
  simp only [writeLowBytes, h0]
  rfl

theorem memWrite4_eq_none {s : State} {a : Word}
    (h : ¬ (a.toNat % 4 = 0 ∧ ∀ k < 4, s.par.inRam (a + BitVec.ofNat 32 k) = true)) (v : Word) :
    memWrite4 s a v = none := by
  rw [← aligned4_iff, ← allFour_iff, ← Bool.and_eq_true] at h
  rw [memWrite4, busWrite4, if_neg h, Option.map_none]

theorem ramByte_writeLowBytes_other (seed : Nat) (ram : Memory) (a v : Word) {b : Word} {n : Nat}
    (h : ∀ k < n, b ≠ a + BitVec.ofNat 32 k) : ramByte seed (writeLowBytes ram a v n) b = ramByte seed ram b := by
  induction n with
  | zero => rfl
  | succ n ih =>
    rw [writeLowBytes, ramByte_write, if_neg (h n (Nat.lt_succ_self n))]
    exact ih fun k hk => h k (Nat.lt_succ_of_lt hk)

/-- Two offsets inside a word never meet, even where the addresses wrap. -/
theorem add_ofNat_ne {j k : Nat} (hj : j < 4) (hk : k < 4) (h : j ≠ k) (a : Word) :
    a + BitVec.ofNat 32 j ≠ a + BitVec.ofNat 32 k := by
  intro heq
  have hnat := congrArg BitVec.toNat ((BitVec.add_right_inj a).1 heq)
  simp only [BitVec.toNat_ofNat] at hnat
  omega

theorem ramByte_writeLowBytes_same (seed : Nat) (ram : Memory) (a v : Word) {n k : Nat} (hn : n ≤ 4) (hk : k < n) :
    ramByte seed (writeLowBytes ram a v n) (a + BitVec.ofNat 32 k) = byteOfWord v k := by
  induction n with
  | zero => omega
  | succ n ih =>
    rw [writeLowBytes, ramByte_write]
    by_cases hlast : k = n
    · rw [hlast, if_pos rfl]
    · rw [if_neg (add_ofNat_ne (by omega) (by omega) hlast a)]
      exact ih (by omega) (by omega)

/-- Settles O9: a word write as four byte writes, at addresses that differ. -/
theorem wordWriteIsLittleEndian : Obligations.WordWriteIsLittleEndian := by
  refine fun s a v => ⟨fun ha hram => ?_, fun h => ?_⟩
  · have hsame : ∀ k < 4, ramByte s.seed (writeLowBytes s.ram a v 4) (a + BitVec.ofNat 32 k) = byteOfWord v k :=
      fun k hk => ramByte_writeLowBytes_same s.seed s.ram a v (Nat.le_refl 4) hk
    have hother : ∀ b : Word, (∀ k < 4, b ≠ a + BitVec.ofNat 32 k) →
        ramByte s.seed (writeLowBytes s.ram a v 4) b = ramByte s.seed s.ram b :=
      fun b hb => ramByte_writeLowBytes_other s.seed s.ram a v hb
    exact ⟨_, memWrite4_of_inRam ha hram v, rfl, hsame, hother,
      fun k hk hrom => memRead1_setRam_of_inRam hrom (hram k hk) (hsame k hk),
      fun b hb => memRead1_setRam_of_ramByte_eq (hother b hb)⟩
  · refine memWrite4_eq_none (fun ⟨ha, hram⟩ => ?_) v
    obtain hmis | ⟨k, hk, hout⟩ := h
    · exact hmis ha
    · exact absurd (hram k hk) (by simp [hout])

end Sys2Proof.Machine

/-! ## Proofs: encoding and fetch (30_encoding.md)

The row a word selects is the only row it matches, and what a fetch finds is told by the outcome of its checks. -/

namespace Sys2Proof

/-! ### The opcode map -/

/-- The opcode field of a first word (R71). -/
def opcodeField (w : Word) : Byte := w.extractLsb' 24 8

theorem opcodeField_mask {r : OpRow} (h : r ∈ opTable) : opcodeField r.mask = BitVec.allOnes 8 := by
  revert r
  decide

/-- The rows differ in their opcode (R75). -/
theorem eq_of_opcodeField_eq {a b : OpRow} (ha : a ∈ opTable) (hb : b ∈ opTable)
    (h : opcodeField a.bits = opcodeField b.bits) : a = b := by
  have hdiffer : ∀ a ∈ opTable, ∀ b ∈ opTable, opcodeField a.bits = opcodeField b.bits → a = b := by decide
  exact hdiffer a ha b hb h

/-- Every row fixes the whole opcode field, so a word that matches it carries its opcode. -/
theorem opcodeField_of_matches {w : Word} {r : OpRow} (hr : r ∈ opTable) (h : w &&& r.mask = r.bits) :
    opcodeField w = opcodeField r.bits := by
  have hmask : w.extractLsb' 24 8 &&& r.mask.extractLsb' 24 8 = w.extractLsb' 24 8 := by
    rw [show r.mask.extractLsb' 24 8 = _ from opcodeField_mask hr, BitVec.and_allOnes]
  rw [← h, opcodeField, opcodeField, BitVec.extractLsb'_and, hmask]

theorem matching_rows_eq {w : Word} {a b : OpRow} (ha : a ∈ opTable) (hb : b ∈ opTable) (hwa : w &&& a.mask = a.bits)
    (hwb : w &&& b.mask = b.bits) : a = b :=
  eq_of_opcodeField_eq ha hb ((opcodeField_of_matches ha hwa).symm.trans (opcodeField_of_matches hb hwb))

theorem findRow_of_matches {w : Word} {r : OpRow} (hr : r ∈ opTable) (h : w &&& r.mask = r.bits) :
    findRow w = some r := by
  cases hfound : findRow w with
  | none =>
    have hnone := List.find?_eq_none.1 hfound r hr
    exact absurd h (by simpa [OpRow.selects] using hnone)
  | some a =>
    obtain ⟨ha, hwa⟩ := findRow_some hfound
    rw [matching_rows_eq ha hr hwa h]

end Sys2Proof

namespace Sys2Proof.Machine

/-! ### What a fetch finds -/

variable {s : State} {w w1 : Word} {r : OpRow}

theorem fetch_of_bad_pc (h : s.pc.toNat % 4 ≠ 0 ∨ s.par.inRom s.pc = false) : fetch s = .busFault s.pc := by
  rw [ne_eq, ← aligned4_iff, Bool.not_eq_true] at h
  rw [fetch, if_pos h]

section FirstWord
variable (hpc : s.pc.toNat % 4 = 0) (hrom : s.par.inRom s.pc = true) (hw : memRead4 s s.pc = some w)
include hpc hrom hw

theorem fetch_of_no_row (hrow : findRow w = none) : fetch s = .usageFault w := by
  simp [fetch, (aligned4_iff s.pc).2 hpc, hrom, hw, hrow]

theorem fetch_of_short_row (hrow : findRow w = some r) (hf : r.format = .s) :
    fetch s = .command (assemble r.op w 0) := by
  simp [fetch, (aligned4_iff s.pc).2 hpc, hrom, hw, hrow, hf]

theorem fetch_of_long_row (hrow : findRow w = some r) (hf : r.format = .l) : fetch s = fetchSecond s r w := by
  simp [fetch, (aligned4_iff s.pc).2 hpc, hrom, hw, hrow, hf]

end FirstWord

theorem fetchSecond_of_not_inRom (h : s.par.inRom (s.pc + 4) = false) :
    fetchSecond s r w = .busFault (s.pc + 4) := by
  rw [fetchSecond, if_pos h]

theorem fetchSecond_of_inRom (h : s.par.inRom (s.pc + 4) = true) (hw1 : memRead4 s (s.pc + 4) = some w1) :
    fetchSecond s r w = .command (assemble r.op w w1) := by
  rw [fetchSecond, if_neg (by rw [h]; decide), hw1]

/-! ### What a command step makes of it -/

theorem commandStep_of_command {i : Instr} (h : fetch s = .command i) : commandStep s = exec i s := by
  rw [commandStep, h]

theorem commandStep_of_busFault {a : Word} (h : fetch s = .busFault a) :
    commandStep s = .next (raiseBusFault a s) := by
  rw [commandStep, h]

theorem commandStep_of_usageFault (h : fetch s = .usageFault w) : commandStep s = .next (raiseUsageFault w s) := by
  rw [commandStep, h]

/-- Settles O7: the checks of R73 one after the other; the row a word matches is the one the fetch finds. -/
theorem fetchAndDecodeAsRule : Obligations.FetchAndDecodeAsRule := by
  refine fun s => ⟨fun hbad => ?_, fun hpc hrom w hw => ⟨fun hnone => ?_, fun r hr hmatch => ?_⟩⟩
  · exact commandStep_of_busFault (fetch_of_bad_pc hbad)
  · exact commandStep_of_usageFault (fetch_of_no_row hpc hrom hw (findRow_none hnone))
  · have hrow : findRow w = some r := findRow_of_matches hr hmatch
    refine ⟨fun hshort => ?_, fun hlong hout => ?_, fun hlong hin w1 hw1 => ?_⟩
    · exact commandStep_of_command (fetch_of_short_row hpc hrom hw hrow hshort)
    · exact commandStep_of_busFault ((fetch_of_long_row hpc hrom hw hrow hlong).trans (fetchSecond_of_not_inRom hout))
    · exact commandStep_of_command ((fetch_of_long_row hpc hrom hw hrow hlong).trans (fetchSecond_of_inRom hin hw1))

end Sys2Proof.Machine

/-! ## Proofs: the FIFO commands (40_fifo.md)

One lemma per outcome of a command, in terms of the named updates; an obligation's clause is that outcome with the
updates written out. -/

namespace Sys2Proof.Machine

@[simp] theorem setQueue_queue_self (s : State) (q : QId) : s.setQueue q (s.queue q) = s := by cases q <;> rfl

/-- A queue write leaves fg and pc alone, so completing after it moves those of the state before. -/
theorem complete_setQueue (len : Word) (st : Status) (s : State) (q : QId) (x : Queue) :
    complete len st (s.setQueue q x) =
      { s.setQueue q x with stat := st.code, fg := { s.fg with run := false }, pc := s.pc + len } := by
  cases q <;> rfl

theorem complete_setRes_setQueue (len : Word) (st : Status) (v : Word) (s : State) (q : QId) (x : Queue) :
    complete len st (setRes v (s.setQueue q x)) =
      { s.setQueue q x with res := v, stat := st.code, fg := { s.fg with run := false }, pc := s.pc + len } := by
  cases q <;> rfl

/-! ### fifo_write and fifo_read by the test they start with (R92, R93) -/

theorem fifoWrite_of_full {x : Queue} (h : x.cnt = x.cap) (b : Byte) : fifoWrite x b = (.full, x) := by
  obtain ⟨-, hw⟩ | ⟨hne, -⟩ := fifoWrite_cases x b
  · exact hw
  · exact absurd h hne

theorem fifoWrite_of_not_full {x : Queue} (h : x.cnt ≠ x.cap) (b : Byte) :
    fifoWrite x b = (.ok, { x with buf := x.buf.set x.wr b, wr := (x.wr + 1) % x.cap, cnt := x.cnt + 1 }) := by
  obtain ⟨heq, -⟩ | ⟨-, hw⟩ := fifoWrite_cases x b
  · exact absurd heq h
  · exact hw

theorem fifoRead_of_empty {x : Queue} (h : x.cnt = 0) : fifoRead x = none := by
  obtain ⟨-, hr⟩ | ⟨hne, -⟩ := fifoRead_cases x
  · exact hr
  · exact absurd h hne

/-- The read cursor is inside the storage (R19), so that the byte is the stored one and not the default. -/
theorem fifoRead_of_not_empty {x : Queue} {b : Byte} (h : x.cnt ≠ 0) (hb : x.buf[x.rd]? = some b) :
    fifoRead x = some (b, { x with rd := (x.rd + 1) % x.cap, cnt := x.cnt - 1 }) := by
  obtain ⟨heq, -⟩ | ⟨-, hr⟩ := fifoRead_cases x
  · exact absurd heq h
  · rw [hr, List.getD_eq_getElem?_getD, hb, Option.getD_some]

/-! ### What each command's step answers -/

section Outcomes
variable {s : State} {q : QId}

theorem execFcreate_of_bad_cap {cap : BitVec 16} (h : cap.toNat = 0 ∨ s.par.fifoMax < cap.toNat) :
    execFcreate q cap s = .next (complete 4 .badcfg s) :=
  if_pos h

section LegalCap
variable {cap : BitVec 16} (hpos : cap.toNat ≠ 0) (hmax : cap.toNat ≤ s.par.fifoMax)
include hpos hmax

theorem execFcreate_of_created (hq : (s.queue q).cap ≠ 0) : execFcreate q cap s = .next (complete 4 .busy s) := by
  rw [execFcreate, if_neg (not_or.2 ⟨hpos, Nat.not_lt.2 hmax⟩), if_pos hq]

theorem execFcreate_of_not_created (hq : (s.queue q).cap = 0) :
    execFcreate q cap s =
      .next (complete 4 .ok (s.setQueue q { s.queue q with cap := cap.toNat, wr := 0, rd := 0, cnt := 0 })) := by
  rw [execFcreate, if_neg (not_or.2 ⟨hpos, Nat.not_lt.2 hmax⟩), if_neg (not_not.2 hq)]

end LegalCap

theorem execFwrite_of_full (h : (s.queue q).cnt = (s.queue q).cap) (b : Byte) :
    execFwrite q b s = .next (complete 4 .full s) := by
  simp [execFwrite, fifoWrite_of_full h]

theorem execFwrite_of_not_full (h : (s.queue q).cnt ≠ (s.queue q).cap) (b : Byte) :
    execFwrite q b s =
      .next (complete 4 .ok (s.setQueue q
        { s.queue q with
          buf := (s.queue q).buf.set (s.queue q).wr b
          wr := ((s.queue q).wr + 1) % (s.queue q).cap
          cnt := (s.queue q).cnt + 1 })) := by
  simp [execFwrite, fifoWrite_of_not_full h]

theorem execFread_of_empty (h : (s.queue q).cnt = 0) : execFread q s = .next (complete 4 .empty s) := by
  simp [execFread, fifoRead_of_empty h]

theorem execFread_of_not_empty {b : Byte} (h : (s.queue q).cnt ≠ 0) (hb : (s.queue q).buf[(s.queue q).rd]? = some b) :
    execFread q s =
      .next (complete 4 .ok (setRes (zextByte b) (s.setQueue q
        { s.queue q with rd := ((s.queue q).rd + 1) % (s.queue q).cap, cnt := (s.queue q).cnt - 1 }))) := by
  simp [execFread, fifoRead_of_not_empty h hb]

theorem execFfull_eq :
    execFfull q s = .next (complete 4 .ok (setRes (if (s.queue q).cnt = (s.queue q).cap then 1 else 0) s)) := by
  simp [execFfull, Queue.isFull]

theorem execFempty_eq :
    execFempty q s = .next (complete 4 .ok (setRes (if (s.queue q).cnt = 0 then 1 else 0) s)) := by
  simp [execFempty, Queue.isEmpty]

end Outcomes

/-! ### The results -/

/-- Settles O11: the tests of R91 in their order, one outcome each. -/
theorem fcreateMakesAnEmptyQueueOnce : Obligations.FcreateMakesAnEmptyQueueOnce := by
  refine ⟨by decide, fun q cap s => ⟨fun hbad => ?_, fun hpos hmax hq => ?_, fun hpos hmax hq => ?_⟩⟩
  · exact execFcreate_of_bad_cap hbad
  · exact execFcreate_of_created hpos hmax hq
  · exact (execFcreate_of_not_created hpos hmax hq).trans (congrArg _ (complete_setQueue ..))

/-- Settles O12: FWRITE is fifo_write on Q[q], and a full queue is written back as it was. -/
theorem fwriteStoresOrReportsFull : Obligations.FwriteStoresOrReportsFull := by
  refine ⟨by decide, fun q b s => ⟨fun hfull => ?_, fun hfree => ?_⟩⟩
  · exact execFwrite_of_full hfull b
  · exact (execFwrite_of_not_full hfree b).trans (congrArg _ (complete_setQueue ..))

/-- Settles O13: FREAD is fifo_read on Q[q], with the byte zero-extended into RES. -/
theorem freadLoadsOrReportsEmpty : Obligations.FreadLoadsOrReportsEmpty := by
  refine ⟨by decide, fun q s => ⟨fun hempty => ?_, fun b hne hb => ?_⟩⟩
  · exact execFread_of_empty hempty
  · exact (execFread_of_not_empty hne hb).trans (congrArg _ (complete_setRes_setQueue ..))

/-- Settles O14: the two predicates of R94 and R95 and the count itself, written to RES only. -/
theorem queueQueriesAnswerInRes : Obligations.QueueQueriesAnswerInRes := by
  refine ⟨by decide, by decide, by decide, fun q s => ⟨?_, ?_, ?_⟩⟩
  · exact execFfull_eq
  · exact execFempty_eq
  · rfl

end Sys2Proof.Machine

/-! ## Proofs: the control commands (41_control.md)

What each command answers with the named updates, and the two facts terminal idleness rests on: a stopped machine's FG
is not enabled, and only FG writes mode. -/

namespace Sys2Proof.Machine

/-! ### END (R111) -/

theorem exec_endCmd (s : State) : exec .endCmd s = .next { s with stat := 0#4, mode := .stopped } := rfl

theorem irqEnabled_congr {s t : State} (hh : t.irq.halted = s.irq.halted) (ha : t.irq.active = s.irq.active)
    (hl : lowestPending t = lowestPending s) : irqEnabled t = irqEnabled s := by
  simp only [irqEnabled, hh, ha, hl]

/-- Whether IRQ has a step does not depend on STAT or mode. -/
theorem irqEnabled_setStatMode (s : State) (st : BitVec 4) (m : Mode) :
    irqEnabled { s with stat := st, mode := m } = irqEnabled s :=
  irqEnabled_congr rfl rfl (lowestPending_congr (requested_congr rfl rfl rfl) (enabled_congr rfl))

theorem fgEnabled_of_stopped {s : State} (h : s.mode = .stopped) : fgEnabled s = false := by
  simp [fgEnabled, h]

theorem fgStep_of_stopped {s : State} (h : s.mode = .stopped) : fgStep s = .refused (.stepNotEnabled .fg) := by
  simp [fgStep, fgEnabled_of_stopped h]

/-! ### Only FG writes mode -/

theorem stepHs1_mode (s : State) : (stepHs1 s).mode = s.mode := by
  unfold stepHs1
  split
  · obtain ⟨-, hread⟩ | ⟨-, hread⟩ := fifoRead_cases s.txq <;> simp [hread]
  · simp

theorem stepHs2_mode (s : State) : (stepHs2 s).mode = s.mode := by
  unfold stepHs2
  split
  · cases s.par.echo <;> simp
  · simp

theorem stepHs3_mode (s : State) : (stepHs3 s).mode = s.mode := by
  unfold stepHs3
  split <;> simp

theorem stepHs4_mode (s : State) : (stepHs4 s).mode = s.mode := by
  unfold stepHs4
  split <;> simp

theorem handlerStep_mode (s : State) : (handlerStep s).mode = s.mode := by
  unfold handlerStep
  cases s.irq.hpc with
  | hs1 => exact stepHs1_mode s
  | hs2 => exact stepHs2_mode s
  | hs3 => exact stepHs3_mode s
  | hs4 => exact stepHs4_mode s
  | hs0 | hs5 | dh0 | dh1 | ch0 => rfl

theorem takeException_mode {n : Nat} {s t : State} (h : takeException n s = .next t) : t.mode = s.mode := by
  obtain ⟨-, ht⟩ | ⟨v, -, ht⟩ := takeException_cases n s
  · cases ht.symm.trans h
  · cases ht.symm.trans h
    rfl

theorem irqStep_mode {s t : State} (h : irqStep s = .next t) : t.mode = s.mode := by
  obtain ⟨-, ⟨-, rfl⟩ | ⟨-, n, -, hn⟩⟩ := irqStep_cases h
  · exact handlerStep_mode s
  · exact takeException_mode hn

theorem lineEffect_mode (e : LineStep) (s : State) : (lineEffect e s).mode = s.mode := by
  cases e with
  | rxOverrun b replace => cases replace <;> rfl
  | txReady | rxArrive b | rxTimeout | lineError k => rfl

theorem perform_mode_of_ne_fg {m : Move} {s t : State} (hm : m ≠ .fg) (h : perform m s = .next t) :
    t.mode = s.mode := by
  cases m with
  | fg => exact absurd rfl hm
  | irq => exact irqStep_mode h
  | line e =>
    obtain ⟨-, rfl⟩ := lineStep_cases h
    exact lineEffect_mode e s
  | ext n =>
    obtain ⟨-, rfl⟩ := extRequest_cases h
    rfl

/-! ### Terminal idleness -/

theorem perform_keeps_stopped {m : Move} {s t : State} (hs : s.mode = .stopped) (h : perform m s = .next t) :
    t.mode = .stopped := by
  by_cases hm : m = .fg
  · subst hm
    cases (fgStep_of_stopped hs).symm.trans h
  · exact (perform_mode_of_ne_fg hm h).trans hs

theorem step_keeps_stopped {s t : State} (hs : s.mode = .stopped) (h : step s = .next t) : t.mode = .stopped := by
  obtain ⟨-, rfl⟩ | ⟨-, m, hm⟩ | ⟨m, rest, -, hm⟩ := step_cases h
  · exact hs
  · exact perform_keeps_stopped hs hm
  · exact perform_keeps_stopped (s := { s with sched := rest }) hs hm

/-- Settles O18: END's answer, FG's refusal in a stopped machine, and that every other agent leaves mode alone. -/
theorem endStopsTheForeground : Obligations.EndStopsTheForeground := by
  refine ⟨by decide, fun s => ?_, fun s hs => ⟨fun t h => ?_, fun m t => perform_keeps_stopped hs,
    fun t => step_keeps_stopped hs⟩⟩
  · exact ⟨_, exec_endCmd s, rfl, fgEnabled_of_stopped rfl, irqEnabled_setStatMode s 0#4 .stopped⟩
  · cases (fgStep_of_stopped hs).symm.trans h

/-! ### IMASK and IUNMASK (R112, R113) -/

theorem hasIrqen_iff (n : Nat) : hasIrqen n = true ↔ n ∈ [16, 17, 18, 19, 20] ∨ (22 ≤ n ∧ n ≤ 41) := by
  simp only [hasIrqen, Bool.or_eq_true, Bool.and_eq_true, decide_eq_true_eq, List.mem_cons, List.not_mem_nil, or_false]
  omega

theorem lt_slotCount_of_hasIrqen {n : Nat} (h : hasIrqen n = true) : n < slotCount := by
  simp only [hasIrqen, Bool.or_eq_true, Bool.and_eq_true, decide_eq_true_eq] at h
  simp only [slotCount]
  omega

/-- A slot with an enable bit lies inside irqen, so that the write reaches the bit. -/
theorem getLsbD_setIrqen {n : Nat} (h : hasIrqen n = true) (b : Bool) (s : State) (k : Nat) :
    (setIrqen n b s).irq.irqen.getLsbD k = if k = n then b else s.irq.irqen.getLsbD k := by
  rw [setIrqen_irq, getLsbD_writeBit]
  by_cases hk : k = n
  · rw [if_pos ⟨hk.symm, hk ▸ lt_slotCount_of_hasIrqen h⟩, if_pos hk]
  · rw [if_neg fun hand => hk hand.1.symm, if_neg hk]

section MaskCommands
variable {n : BitVec 6}

theorem exec_imask_of_hasIrqen (h : hasIrqen n.toNat = true) (s : State) :
    exec (.imask n) s = .next (complete 4 .ok (setIrqen n.toNat false s)) :=
  if_pos h

theorem exec_iunmask_of_hasIrqen (h : hasIrqen n.toNat = true) (s : State) :
    exec (.iunmask n) s = .next (complete 4 .ok (setIrqen n.toNat true s)) :=
  if_pos h

theorem exec_imask_of_not_hasIrqen (h : ¬ hasIrqen n.toNat = true) (s : State) :
    exec (.imask n) s = .next (complete 4 .badcfg s) :=
  if_neg h

theorem exec_iunmask_of_not_hasIrqen (h : ¬ hasIrqen n.toNat = true) (s : State) :
    exec (.iunmask n) s = .next (complete 4 .badcfg s) :=
  if_neg h

end MaskCommands

/-- Settles O19: the numbers with an enable bit are those of R112, and the write reaches that bit only. -/
theorem maskCommandsWriteOneEnable : Obligations.MaskCommandsWriteOneEnable := by
  refine ⟨by decide, by decide, fun n s => ?_⟩
  rw [← hasIrqen_iff]
  refine ⟨fun h => ⟨?_, ?_⟩, fun h => ⟨?_, ?_⟩⟩
  · exact ⟨_, exec_imask_of_hasIrqen h s, rfl, getLsbD_setIrqen h false s⟩
  · exact ⟨_, exec_iunmask_of_hasIrqen h s, rfl, getLsbD_setIrqen h true s⟩
  · exact exec_imask_of_not_hasIrqen h s
  · exact exec_iunmask_of_not_hasIrqen h s

/-! ### INTSET and INTCLR (R114, R115) -/

/-- INTEN <- v. -/
def setInten (v : BitVec 4) (s : State) : State := { s with uart := { s.uart with inten := v } }

theorem exec_intset (mask : BitVec 4) (s : State) :
    exec (.intset mask) s = .next (complete 4 .ok (setInten (s.uart.inten ||| mask) s)) := rfl

theorem exec_intclr (mask : BitVec 4) (s : State) :
    exec (.intclr mask) s = .next (complete 4 .ok (setInten (s.uart.inten &&& ~~~ mask) s)) := rfl

theorem getLsbD_and_not {w : Nat} (v mask : BitVec w) (k : Nat) :
    (v &&& ~~~ mask).getLsbD k = (v.getLsbD k && !mask.getLsbD k) := by
  rw [BitVec.getLsbD_and, BitVec.getLsbD_not]
  by_cases hk : k < w
  · simp [hk]
  · simp [BitVec.getLsbD_of_ge v k (Nat.le_of_not_lt hk)]

/-- Settles O20: INTEN alone is written, bit by bit. -/
theorem eventEnableCommands : Obligations.EventEnableCommands := by
  refine ⟨by decide, by decide, fun mask s => ⟨?_, ?_⟩⟩
  · exact ⟨_, exec_intset mask s, rfl, fun k => BitVec.getLsbD_or⟩
  · exact ⟨_, exec_intclr mask s, rfl, getLsbD_and_not s.uart.inten mask⟩

/-! ### The frame -/

/-- A mask command completes with irqen written, as it was where the command reports BADCFG. -/
theorem exec_mask_eq {n : BitVec 6} {i : Instr} (hi : i = .imask n ∨ i = .iunmask n) (s : State) :
    ∃ st v, exec i s = .next (complete 4 st { s with irq := { s.irq with irqen := v } }) := by
  by_cases h : hasIrqen n.toNat = true
  · obtain rfl | rfl := hi
    · exact ⟨_, _, exec_imask_of_hasIrqen h s⟩
    · exact ⟨_, _, exec_iunmask_of_hasIrqen h s⟩
  · obtain rfl | rfl := hi
    · exact ⟨_, s.irq.irqen, exec_imask_of_not_hasIrqen h s⟩
    · exact ⟨_, s.irq.irqen, exec_iunmask_of_not_hasIrqen h s⟩

/-- An event command completes with INTEN written. -/
theorem exec_event_eq {mask : BitVec 4} {i : Instr} (hi : i = .intset mask ∨ i = .intclr mask) (s : State) :
    ∃ v, exec i s = .next (complete 4 .ok (setInten v s)) := by
  obtain rfl | rfl := hi
  · exact ⟨_, exec_intset mask s⟩
  · exact ⟨_, exec_intclr mask s⟩

/-- Settles O21: END writes STAT and mode, a mask command irqen and an event command INTEN besides completing. -/
theorem controlCommandsFrame : Obligations.ControlCommandsFrame := by
  intro n mask s t i hi h
  have hkinds : i = .endCmd ∨ (i = .imask n ∨ i = .iunmask n) ∨ (i = .intset mask ∨ i = .intclr mask) := by
    simpa [or_assoc] using hi
  obtain rfl | hmask | hevent := hkinds
  · cases (exec_endCmd s).symm.trans h
    exact ⟨rfl, fun hne => absurd rfl hne, fun _ => rfl, fun _ => rfl, fun _ => rfl⟩
  · obtain ⟨st, v, hexec⟩ := exec_mask_eq hmask s
    cases hexec.symm.trans h
    refine ⟨rfl, fun _ => rfl, fun hother => ?_, fun _ => rfl, fun _ => rfl⟩
    obtain rfl | rfl := hmask <;> simp at hother
  · obtain ⟨v, hexec⟩ := exec_event_eq hevent s
    cases hexec.symm.trans h
    refine ⟨rfl, fun _ => rfl, fun _ => rfl, fun hother => ?_, fun _ => rfl⟩
    obtain rfl | rfl := hevent <;> simp at hother

end Sys2Proof.Machine

/-! ## Proofs: CONFIGURE and the unbuffered path (42_uart_config_unbuffered.md)

What CONFIGURE's tests decide; then the wait of R124, said once for PUTC and GETC and once for a byte of PUTS and PUTZ,
and what each command adds to it. -/

namespace Sys2Proof.Machine

/-! ### CONFIGURE's tests (R121 to R123) -/

theorem baudOf_eq_none_iff (p : Params) (sel : Byte) :
    baudOf p sel = none ↔ ∀ e ∈ p.baudTable, e.1 ≠ sel.toNat := by
  simp [baudOf]

theorem baudOf_of_find {p : Params} {sel : Byte} {e : Nat × Word}
    (h : p.baudTable.find? (fun e => e.1 == sel.toNat) = some e) : baudOf p sel = some e.2 :=
  congrArg (Option.map Prod.snd) h

theorem allPinsOk_iff (p : Params) (rx tx rts cts : Byte) :
    (pinOk p rx && pinOk p tx && pinOk p rts && pinOk p cts) = true ↔
      ∀ pin ∈ [rx, tx, rts, cts], pin.toNat < p.npins ∨ pin = 0xFF#8 := by
  simp [pinOk, and_assoc]

section Configure
variable {s : State} {rx tx rts cts sel : Byte} {parity flow : Bool}

theorem exec_configure_of_transmitting (h : s.tstate = .transmitting) :
    exec (.configure rx tx rts cts sel parity flow) s = .next (complete 8 .busy s) :=
  if_pos h

theorem exec_configure_of_no_baud (hidle : s.tstate = .idle) (hbaud : baudOf s.par sel = none) :
    exec (.configure rx tx rts cts sel parity flow) s = .next (complete 8 .badcfg s) := by
  simp [exec, execConfigure, hidle, hbaud]

/-- An invalid pin is BADCFG whether the selector is defined or not. -/
theorem exec_configure_of_bad_pin (hidle : s.tstate = .idle)
    (hpins : ¬ (pinOk s.par rx && pinOk s.par tx && pinOk s.par rts && pinOk s.par cts) = true) :
    exec (.configure rx tx rts cts sel parity flow) s = .next (complete 8 .badcfg s) := by
  cases hbaud : baudOf s.par sel with
  | none => exact exec_configure_of_no_baud hidle hbaud
  | some baud => simp only [exec, execConfigure, hidle, hbaud, reduceCtorEq, if_false, if_neg hpins]

theorem exec_configure_of_valid {baud : Word} (hidle : s.tstate = .idle) (hbaud : baudOf s.par sel = some baud)
    (hpins : (pinOk s.par rx && pinOk s.par tx && pinOk s.par rts && pinOk s.par cts) = true) :
    exec (.configure rx tx rts cts sel parity flow) s =
      .next (complete 8 .ok (configureUart rx tx rts cts baud parity flow s)) := by
  simp only [exec, execConfigure, hidle, hbaud, reduceCtorEq, if_false, if_pos hpins]

end Configure

/-- Settles O22: the tests of R121 in their order, and the six steps' writes at once. -/
theorem configureProgramsTheUart : Obligations.ConfigureProgramsTheUart := by
  refine ⟨by decide, fun rx tx rts cts sel parity flow s => ⟨fun hbusy => ?_, fun hidle hbad => ?_,
    fun baud hidle hfind hpins => ?_⟩⟩
  · exact exec_configure_of_transmitting hbusy
  · obtain hsel | ⟨pin, hmem, hout, hno⟩ := hbad
    · exact exec_configure_of_no_baud hidle ((baudOf_eq_none_iff s.par sel).2 hsel)
    · refine exec_configure_of_bad_pin hidle fun hok => ?_
      exact ((allPinsOk_iff s.par rx tx rts cts).1 hok pin hmem).elim (Nat.not_lt.2 hout) hno
  · rw [exec_configure_of_valid hidle (baudOf_of_find hfind) ((allPinsOk_iff s.par rx tx rts cts).2 hpins),
      configureUart_eq]
    rfl

/-! ### The wait of PUTC and GETC (R124) -/

/-- A step of a command that waits for event `k` and completes as `ready` where the poll finds it set. -/
def waitStep (k : Nat) (ready s : State) : Answer :=
  if s.fg.run = false then .next (armWait s)
  else
    match poll k s with
    | .ready => .next ready
    | .expired => .next (complete 4 .timeout s)
    | .wait => .next (consumeRetry s)

theorem exec_putc (b : Byte) (s : State) :
    exec (.putc b) s = waitStep bitTxdrdy (complete 4 .ok (txdWrite b (clearEvent bitTxdrdy s))) s := rfl

theorem exec_getc (s : State) :
    exec .getc s =
      waitStep bitRxdrdy (complete 4 .ok (setRes (zextByte s.uart.rxd) (rxdRead (clearEvent bitRxdrdy s)))) s := rfl

/-- A WAIT leaves the budget one lower. -/
theorem consumeRetry_of_succ {s : State} {w : Nat} (h : s.fg.w = w + 1) :
    consumeRetry s = { s with fg := { s.fg with w := w } } := by
  rw [consumeRetry, h, Nat.add_sub_cancel]

section WaitStep
variable {k w : Nat} {ready s : State}

theorem waitStep_of_not_run (hrun : s.fg.run = false) : waitStep k ready s = .next (armWait s) :=
  if_pos hrun

theorem waitStep_of_ready (hrun : s.fg.run = true) (hev : s.uart.events.getLsbD k = true) :
    waitStep k ready s = .next ready := by
  simp [waitStep, hrun, poll_ready hev]

theorem waitStep_of_expired (hrun : s.fg.run = true) (hev : s.uart.events.getLsbD k = false) (hw : s.fg.w = 0) :
    waitStep k ready s = .next (complete 4 .timeout s) := by
  simp [waitStep, hrun, poll_expired hev hw]

theorem waitStep_of_wait (hrun : s.fg.run = true) (hev : s.uart.events.getLsbD k = false) (hw : s.fg.w = w + 1) :
    waitStep k ready s = .next { s with fg := { s.fg with w := w } } := by
  simp [waitStep, hrun, poll_wait hev hw, consumeRetry_of_succ hw]

end WaitStep

/-- The send of a polled byte, the ready flag cleared before the write. -/
theorem txdWrite_clearEvent (b : Byte) (s : State) :
    txdWrite b (clearEvent bitTxdrdy s) =
      { s with
        uart := { s.uart with events := s.uart.events &&& 0b1110#4, txd := b }
        logs := { s.logs with tx := s.logs.tx ++ [b], txOwed := s.logs.txOwed + 1 } } := by
  rw [txdWrite, clearEvent, clearBit_txdrdy]

/-- The read of a polled byte leaves RXD itself. -/
theorem rxdRead_clearEvent (s : State) :
    rxdRead (clearEvent bitRxdrdy s) =
      { s with uart := { s.uart with events := s.uart.events &&& 0b1101#4, rxdValid := false } } := by
  rw [rxdRead, clearEvent, clearBit_rxdrdy]

/-- Settles O24: PUTC is the wait for TXDRDY, and where it is ready the send of the byte. -/
theorem putcWaitsAndWrites : Obligations.PutcWaitsAndWrites := by
  refine ⟨by decide, fun b s => ?_⟩
  rw [exec_putc, txdWrite_clearEvent]
  exact ⟨waitStep_of_not_run, waitStep_of_ready, waitStep_of_expired, fun _ => waitStep_of_wait⟩

/-- Settles O25: GETC is the wait for RXDRDY, and where it is ready the read of RXD into RES. -/
theorem getcWaitsAndReads : Obligations.GetcWaitsAndReads := by
  refine ⟨by decide, fun s => ?_⟩
  rw [exec_getc, rxdRead_clearEvent]
  exact ⟨waitStep_of_not_run, waitStep_of_ready, waitStep_of_expired, fun _ => waitStep_of_wait⟩

/-! ### One byte of PUTS and PUTZ -/

section SendByte
variable {s : State} {w : Nat}

theorem sendUnbufferedByte_of_ready (h : s.uart.events.getLsbD 0 = true) (b : Byte) :
    sendUnbufferedByte b s =
      { s with
        uart := { s.uart with events := s.uart.events &&& 0b1110#4, txd := b }
        logs := { s.logs with tx := s.logs.tx ++ [b], txOwed := s.logs.txOwed + 1 }
        fg := { s.fg with i := s.fg.i + 1, w := s.par.tBlock } } := by
  have hpoll : poll bitTxdrdy s = .ready := poll_ready h
  simp only [sendUnbufferedByte, hpoll, txdWrite_clearEvent]

theorem sendUnbufferedByte_of_expired (h : s.uart.events.getLsbD 0 = false) (hw : s.fg.w = 0) (b : Byte) :
    sendUnbufferedByte b s = complete 8 .timeout (setRes (zextNat s.fg.i) s) := by
  have hpoll : poll bitTxdrdy s = .expired := poll_expired h hw
  simp only [sendUnbufferedByte, hpoll]

theorem sendUnbufferedByte_of_wait (h : s.uart.events.getLsbD 0 = false) (hw : s.fg.w = w + 1) (b : Byte) :
    sendUnbufferedByte b s = { s with fg := { s.fg with w := w } } := by
  have hpoll : poll bitTxdrdy s = .wait := poll_wait h hw
  simp only [sendUnbufferedByte, hpoll, consumeRetry_of_succ hw]

end SendByte

/-! ### PUTS (R127) -/

section Puts
variable {s : State} {addr : Word} {len : BitVec 16}

theorem exec_puts_of_not_run (hrun : s.fg.run = false) : exec (.puts addr len) s = .next (armBuffer s) :=
  if_pos hrun

theorem exec_puts_of_all_sent (hrun : s.fg.run = true) (hi : s.fg.i = len.toNat) :
    exec (.puts addr len) s = .next (complete 8 .ok (setRes (zextNat len.toNat) s)) := by
  simp [exec, execPuts, hrun, hi]

theorem exec_puts_of_unreadable (hrun : s.fg.run = true) (hi : s.fg.i ≠ len.toNat)
    (hread : memRead1 s (bufAddr addr s.fg.i) = none) :
    exec (.puts addr len) s = .next (raiseBusFault (bufAddr addr s.fg.i) s) := by
  simp [exec, execPuts, hrun, hi, hread]

theorem exec_puts_of_byte {b : Byte} (hrun : s.fg.run = true) (hi : s.fg.i ≠ len.toNat)
    (hread : memRead1 s (bufAddr addr s.fg.i) = some b) :
    exec (.puts addr len) s = .next (sendUnbufferedByte b s) := by
  simp [exec, execPuts, hrun, hi, hread]

end Puts

/-- Settles O26: the length, then the read, then the poll of the byte decide PUTS' step. -/
theorem putsSendsTheBuffer : Obligations.PutsSendsTheBuffer := by
  refine ⟨by decide, fun addr len s => ⟨exec_puts_of_not_run, exec_puts_of_all_sent, exec_puts_of_unreadable,
    fun b hrun hi hread => ?_⟩⟩
  rw [exec_puts_of_byte hrun hi hread]
  exact ⟨fun hev => congrArg _ (sendUnbufferedByte_of_ready hev b),
    fun hev hw => congrArg _ (sendUnbufferedByte_of_expired hev hw b),
    fun w hev hw => congrArg _ (sendUnbufferedByte_of_wait hev hw b)⟩

/-! ### PUTZ (R128) -/

section Putz
variable {s : State} {addr : Word}

theorem exec_putz_of_not_run (hrun : s.fg.run = false) : exec (.putz addr) s = .next (armBuffer s) :=
  if_pos hrun

theorem exec_putz_of_unreadable (hrun : s.fg.run = true) (hread : memRead1 s (bufAddr addr s.fg.i) = none) :
    exec (.putz addr) s = .next (raiseBusFault (bufAddr addr s.fg.i) s) := by
  simp [exec, execPutz, hrun, hread]

theorem exec_putz_of_zero_byte (hrun : s.fg.run = true) (hread : memRead1 s (bufAddr addr s.fg.i) = some 0x00#8) :
    exec (.putz addr) s = .next (complete 8 .ok (setRes (zextNat s.fg.i) s)) := by
  simp [exec, execPutz, hrun, hread]

theorem exec_putz_of_byte {b : Byte} (hrun : s.fg.run = true) (hread : memRead1 s (bufAddr addr s.fg.i) = some b)
    (hb : b ≠ 0x00#8) : exec (.putz addr) s = .next (sendUnbufferedByte b s) := by
  simp [exec, execPutz, hrun, hread, hb]

end Putz

/-- Settles O27: the read, then the byte, then its poll decide PUTZ' step. -/
theorem putzSendsTheString : Obligations.PutzSendsTheString := by
  refine ⟨by decide, fun addr s => ⟨exec_putz_of_not_run, exec_putz_of_unreadable, exec_putz_of_zero_byte,
    fun b hrun hread hb => ?_⟩⟩
  rw [exec_putz_of_byte hrun hread hb]
  exact ⟨fun hev => congrArg _ (sendUnbufferedByte_of_ready hev b),
    fun hev hw => congrArg _ (sendUnbufferedByte_of_expired hev hw b),
    fun w hev hw => congrArg _ (sendUnbufferedByte_of_wait hev hw b)⟩

end Sys2Proof.Machine

/-! ## Proofs: the buffered path (43_uart_buffered.md)

The critical section by the transport's state; then one admission of SEND, the one drain of RECV, and the tests each
command makes before it. -/

namespace Sys2Proof.Machine

/-! ### crit_tx (R141, R142) -/

/-- The critical section ends with the enable of the line as it was, whatever ran inside (D8). -/
theorem setIrqen_masked_restore {s t : State} {n : Nat} (ht : t.irq = (setIrqen n false s).irq) :
    setIrqen n (s.irq.irqen.getLsbD n) t = { t with irq := s.irq } := by
  have hrestore : writeBit (writeBit s.irq.irqen n false) n (s.irq.irqen.getLsbD n) = s.irq.irqen :=
    writeBit_clearBit_restore s.irq.irqen n
  rw [setIrqen, ht, setIrqen_irq, hrestore]

theorem critTx_of_transmitting (b : Byte) {s : State} (h : s.tstate = .transmitting) :
    critTx b s = { s with txq := (fifoWrite s.txq b).2 } := by
  simp only [critTx, setIrqen_tstate, h, reduceCtorEq, if_false]
  exact setIrqen_masked_restore rfl

/-- While Idle the enqueue is followed by the kick. -/
theorem critTx_of_idle (b : Byte) {s : State} (h : s.tstate = .idle) {b0 : Byte} {q : Queue}
    (hq : fifoRead (fifoWrite s.txq b).2 = some (b0, q)) :
    critTx b s = kick { s with txq := (fifoWrite s.txq b).2 } := by
  simp only [critTx, setIrqen_tstate, h, if_true]
  rw [kick_eq _ b0 q hq, kick_eq _ b0 q hq]
  exact setIrqen_masked_restore rfl

/-- A queue just written has a byte to read. -/
theorem exists_fifoRead_fifoWrite {x : Queue} (h : x.cnt ≠ x.cap) (b : Byte) :
    ∃ b0 q, fifoRead (fifoWrite x b).2 = some (b0, q) := by
  rw [fifoWrite_of_not_full h]
  obtain ⟨hempty, -⟩ | ⟨-, hread⟩ := fifoRead_cases
    { x with buf := x.buf.set x.wr b, wr := (x.wr + 1) % x.cap, cnt := x.cnt + 1 }
  · exact absurd hempty (Nat.succ_ne_zero x.cnt)
  · exact ⟨_, _, hread⟩

/-- Settles O30: irqen is restored after the enqueue, and while Idle the kick finds the byte just enqueued at the
latest. -/
theorem criticalSectionEnqueuesAndKicks : Obligations.CriticalSectionEnqueuesAndKicks := by
  refine fun b s hfree => ⟨critTx_of_transmitting b, fun hidle => ?_⟩
  obtain ⟨b0, q, hq⟩ := exists_fifoRead_fifoWrite hfree b
  refine ⟨b0, q, hq, ?_⟩
  rw [critTx_of_idle b hidle hq, kick_eq _ b0 q hq, setBit_txdrdy, setBit_txrun]

/-! ### One admission attempt (R143, R144)

`admission_cases` lists the four outcomes; a test of the queue and one of `fg` leave one of them. -/

theorem isFull_iff (x : Queue) : x.isFull = true ↔ x.cnt = x.cap := decide_eq_true_iff

theorem isFull_eq_false_iff (x : Queue) : x.isFull = false ↔ x.cnt ≠ x.cap := decide_eq_false_iff_not

section Admission
variable {s : State}

theorem admission_of_expired (hfull : s.txq.cnt = s.txq.cap) (hw : s.fg.w = 0) (b : Byte) :
    admission b s = complete 8 .timeout { setRes (zextNat s.fg.i) s with fg := { s.fg with cr := false } } := by
  simpa [(isFull_iff _).2 hfull, hw] using admission_cases b s

theorem admission_of_wait {w : Nat} (hfull : s.txq.cnt = s.txq.cap) (hw : s.fg.w = w + 1) (b : Byte) :
    admission b s = { s with fg := { s.fg with w := w } } := by
  simpa [(isFull_iff _).2 hfull, hw, consumeRetry_of_succ hw] using admission_cases b s

theorem admission_of_carriageReturn_owed (hfree : s.txq.cnt ≠ s.txq.cap) (hcr : s.fg.cr = true) (b : Byte) :
    admission b s = { critTx b s with fg := { s.fg with cr := false, w := s.par.tSend } } := by
  simpa [(isFull_eq_false_iff _).2 hfree, hcr] using admission_cases b s

theorem admission_of_no_carriageReturn_owed (hfree : s.txq.cnt ≠ s.txq.cap) (hcr : s.fg.cr = false) (b : Byte) :
    admission b s =
      { critTx b s with fg := { s.fg with i := s.fg.i + 1, cr := decide (b = lineFeed), w := s.par.tSend } } := by
  simpa [(isFull_eq_false_iff _).2 hfree, hcr] using admission_cases b s

end Admission

/-! ### SEND (R144) -/

section Send
variable {s : State} {addr : Word} {len : BitVec 16}

theorem exec_send_of_not_run (hrun : s.fg.run = false) :
    exec (.send addr len) s = .next { s with fg := { s.fg with run := true, i := 0, cr := false, w := s.par.tSend } } :=
  if_pos hrun

theorem exec_send_of_all_admitted (hrun : s.fg.run = true) (hcr : s.fg.cr = false) (hi : s.fg.i = len.toNat) :
    exec (.send addr len) s = .next (complete 8 .ok (setRes (zextNat len.toNat) s)) := by
  simp [exec, execSend, hrun, hcr, hi]

theorem exec_send_of_carriageReturn_owed (hrun : s.fg.run = true) (hcr : s.fg.cr = true) :
    exec (.send addr len) s = .next (admission carriageReturn s) := by
  simp [exec, execSend, hrun, hcr]

theorem exec_send_of_unreadable (hrun : s.fg.run = true) (hcr : s.fg.cr = false) (hi : s.fg.i ≠ len.toNat)
    (hread : memRead1 s (bufAddr addr s.fg.i) = none) :
    exec (.send addr len) s = .next (raiseBusFault (bufAddr addr s.fg.i) s) := by
  simp [exec, execSend, hrun, hcr, hi, hread]

theorem exec_send_of_byte {b : Byte} (hrun : s.fg.run = true) (hcr : s.fg.cr = false) (hi : s.fg.i ≠ len.toNat)
    (hread : memRead1 s (bufAddr addr s.fg.i) = some b) :
    exec (.send addr len) s = .next (admission b s) := by
  simp [exec, execSend, hrun, hcr, hi, hread]

/-- With a carriage return owed or a readable byte left, the step is an admission attempt of one or the other. -/
theorem exists_exec_send_eq_admission (hrun : s.fg.run = true)
    (h : s.fg.cr = true ∨ (s.fg.i ≠ len.toNat ∧ ∃ b, memRead1 s (bufAddr addr s.fg.i) = some b)) :
    ∃ b, exec (.send addr len) s = .next (admission b s) := by
  by_cases hcr : s.fg.cr = true
  · exact ⟨_, exec_send_of_carriageReturn_owed hrun hcr⟩
  · obtain ⟨hi, b, hread⟩ := h.resolve_left hcr
    exact ⟨b, exec_send_of_byte hrun (Bool.eq_false_iff.2 hcr) hi hread⟩

end Send

/-- Settles O31: the tests of R144 in their order, then the admission by whether the queue is full. -/
theorem sendAdmitsTheBuffer : Obligations.SendAdmitsTheBuffer := by
  refine ⟨by decide, fun addr len s => ⟨exec_send_of_not_run, exec_send_of_all_admitted, exec_send_of_unreadable,
    fun b hrun hcr hi hread hfree => ?_, fun hrun hcr hfree => ?_, fun hrun hfull hleft => ?_⟩⟩
  · exact (exec_send_of_byte hrun hcr hi hread).trans
      (congrArg _ (admission_of_no_carriageReturn_owed hfree hcr b))
  · exact (exec_send_of_carriageReturn_owed hrun hcr).trans
      (congrArg _ (admission_of_carriageReturn_owed hfree hcr carriageReturn))
  · obtain ⟨b, hexec⟩ := exists_exec_send_eq_admission hrun hleft
    rw [hexec]
    exact ⟨fun hw => congrArg _ (admission_of_expired hfull hw b),
      fun w hw => congrArg _ (admission_of_wait hfull hw b)⟩

/-! ### RECV (R147, R148) -/

section Recv
variable {s : State} {addr : Word} {max : BitVec 16}

theorem exec_recv_of_not_run (hrun : s.fg.run = false) :
    exec (.recv addr max) s = .next { s with fg := { s.fg with run := true, i := 0 } } :=
  if_pos hrun

theorem exec_recv_of_done (hrun : s.fg.run = true) (h : s.fg.i = max.toNat ∨ s.rxq.cnt = 0) :
    exec (.recv addr max) s = .next (complete 8 .ok (setRes (zextNat s.fg.i) s)) := by
  simp [exec, execRecv, Queue.isEmpty, hrun, h]

section Drain
variable (hrun : s.fg.run = true) (hi : s.fg.i ≠ max.toNat) (hne : s.rxq.cnt ≠ 0)
include hrun hi hne

theorem exec_recv_of_not_inRam (hram : s.par.inRam (bufAddr addr s.fg.i) = false) :
    exec (.recv addr max) s = .next (raiseBusFault (bufAddr addr s.fg.i) s) := by
  simp [exec, execRecv, Queue.isEmpty, hrun, hi, hne, hram]

/-- The drained byte goes to its destination in RAM. -/
theorem exec_recv_of_inRam {b : Byte} (hram : s.par.inRam (bufAddr addr s.fg.i) = true)
    (hb : s.rxq.buf[s.rxq.rd]? = some b) :
    exec (.recv addr max) s =
      .next
        { s with
          rxq := { s.rxq with rd := (s.rxq.rd + 1) % s.rxq.cap, cnt := s.rxq.cnt - 1 }
          fg := { s.fg with i := s.fg.i + 1 }
          ram := s.ram.write none (bufAddr addr s.fg.i).toNat b } := by
  simp [exec, execRecv, Queue.isEmpty, hrun, hi, hne, hram, critRx_eq, fifoRead_of_not_empty hne hb,
    memWrite1_of_inRam]

end Drain

end Recv

/-- Settles O34: the tests of R147 in their order, then the drain of one byte, which is one RAM byte written. -/
theorem recvDrainsTheInboundQueue : Obligations.RecvDrainsTheInboundQueue := by
  refine ⟨by decide, fun addr max s => ⟨exec_recv_of_not_run, exec_recv_of_done, exec_recv_of_not_inRam,
    fun b hrun hi hne hram hb => ?_⟩⟩
  exact ⟨_, exec_recv_of_inRam hrun hi hne hram hb, rfl, fun a => ramByte_write s.seed s.ram _ a b⟩

end Sys2Proof.Machine

/-! ## Proofs: the UART handler and LINE (44_uart_handler.md)

What each micro-step makes of the state, by the test of the snapshot and the state of the queue it touches; then the
steps of LINE, enabled and not. -/

namespace Sys2Proof.Machine

/-! ### HS1, the transmit-ready branch (R166) -/

section TransmitReady
variable {s : State}

theorem stepHs1_of_not_snapped (hsnap : s.irq.snap.getLsbD 0 = false) : stepHs1 s = setHpc .hs2 s := by
  have htest : s.irq.snap.getLsbD bitTxdrdy = false := hsnap
  simp only [stepHs1, htest, Bool.false_eq_true, if_false]

theorem stepHs1_of_byte (hsnap : s.irq.snap.getLsbD 0 = true) {b : Byte} {q : Queue}
    (hread : fifoRead s.txq = some (b, q)) :
    stepHs1 s =
      { s with
        txq := q
        uart := { s.uart with txd := b, events := s.uart.events &&& 0b1110#4 }
        logs := { s.logs with tx := s.logs.tx ++ [b], txOwed := s.logs.txOwed + 1 }
        irq := { s.irq with hpc := .hs2 } } := by
  have htest : s.irq.snap.getLsbD bitTxdrdy = true := hsnap
  simp only [stepHs1, htest, if_true, hread, clearEvent, clearBit_txdrdy]
  rfl

/-- With nothing to send, the transport goes Idle: TXRUN, the interrupt source and the flag are cleared. -/
theorem stepHs1_of_empty (hsnap : s.irq.snap.getLsbD 0 = true) (hempty : s.txq.cnt = 0) :
    stepHs1 s =
      { s with
        tstate := .idle
        uart :=
          { s.uart with
            run := s.uart.run &&& 0b10#2, inten := s.uart.inten &&& 0b1110#4, events := s.uart.events &&& 0b1110#4 }
        logs := { s.logs with task := s.logs.task ++ [.stopTx] }
        irq := { s.irq with hpc := .hs2 } } := by
  have htest : s.irq.snap.getLsbD bitTxdrdy = true := hsnap
  simp only [stepHs1, htest, if_true, fifoRead_of_empty hempty, ← clearBit_txrun, ← clearBit_txdrdy]
  rfl

end TransmitReady

/-! ### HS2, the receive-ready branch (R167) -/

/-- RXDRDY not snapped or RXQ full: the branch is not taken. -/
theorem stepHs2_of_not_taken {s : State} (h : s.irq.snap.getLsbD 1 = false ∨ s.rxq.cnt = s.rxq.cap) :
    stepHs2 s = setHpc .hs3 s := by
  have htest : (s.irq.snap.getLsbD bitRxdrdy && !s.rxq.isFull) = false := by
    obtain hsnap | hfull := h
    · exact (congrArg (· && _) hsnap).trans (Bool.false_and _)
    · rw [(isFull_iff _).2 hfull, Bool.not_true, Bool.and_false]
  simp only [stepHs2, htest, Bool.false_eq_true, if_false]

/-- The byte of RXD goes to RXQ, and with ECHO back to the line. -/
theorem stepHs2_of_taken {s : State} (hsnap : s.irq.snap.getLsbD 1 = true) (hfree : s.rxq.cnt ≠ s.rxq.cap) :
    stepHs2 s =
      { s with
        rxq :=
          { s.rxq with
            buf := s.rxq.buf.set s.rxq.wr s.uart.rxd, wr := (s.rxq.wr + 1) % s.rxq.cap, cnt := s.rxq.cnt + 1 }
        uart :=
          { s.uart with
            events := s.uart.events &&& 0b1101#4, rxdValid := false
            txd := if s.par.echo then s.uart.rxd else s.uart.txd }
        logs :=
          if s.par.echo then { s.logs with tx := s.logs.tx ++ [s.uart.rxd], txOwed := s.logs.txOwed + 1 } else s.logs
        irq := { s.irq with hpc := .hs3 } } := by
  have htest : (s.irq.snap.getLsbD bitRxdrdy && !s.rxq.isFull) = true := by
    rw [(isFull_eq_false_iff _).2 hfree, Bool.not_false, Bool.and_true]
    exact hsnap
  simp only [stepHs2, htest, if_true, rxdRead_clearEvent]
  cases hecho : s.par.echo with
  | false => simp [setHpc, fifoWrite_of_not_full hfree]
  | true => simp [setHpc, txdWrite, fifoWrite_of_not_full hfree]

/-! ### HS3 and HS4, the receive-timeout and the error branch (R168, R169) -/

theorem stepHs3_eq (s : State) :
    stepHs3 s =
      { s with
        uart := { s.uart with events := if s.irq.snap.getLsbD 2 then s.uart.events &&& 0b1011#4 else s.uart.events }
        irq := { s.irq with hpc := .hs4 } } := by
  rw [stepHs3, clearEvent, clearBit_rxto, bitRxto]
  split <;> rfl

theorem stepHs4_eq (s : State) :
    stepHs4 s =
      { s with
        uart := { s.uart with events := if s.irq.snap.getLsbD 3 then s.uart.events &&& 0b0111#4 else s.uart.events }
        irq := { s.irq with hpc := .hs5 } } := by
  rw [stepHs4, clearEvent, clearBit_error, bitError]
  split <;> rfl

/-! ### The micro-steps together -/

/-- The UART handler and the custom stub end in the same return (R170, R204). -/
theorem handlerStep_of_return {s : State} (h : s.irq.hpc = .hs5 ∨ s.irq.hpc = .ch0) :
    handlerStep s = returnFromHandler s := by
  obtain hpc | hpc := h <;> simp only [handlerStep, hpc, stepHs5, stepCh0]

/-- Settles O37, micro-step by micro-step: HS1 and HS2 by the snapshot and their queue, HS3 and HS4 by the snapshot. -/
theorem handlerMicroSteps : Obligations.HandlerMicroSteps := by
  intro s ha hh
  rw [irqStep_active ha hh]
  refine ⟨fun hpc => ?hs0, fun hpc => ?hs1, fun hpc => ?hs2, fun hpc => ?hs3, fun hpc => ?hs4, fun hret => ?ret⟩
  case hs0 =>
    have hstep : handlerStep s = stepHs0 s := by simp only [handlerStep, hpc]
    exact congrArg _ hstep
  case hs1 =>
    have hstep : handlerStep s = stepHs1 s := by simp only [handlerStep, hpc]
    rw [hstep]
    exact ⟨fun hsnap => congrArg _ (stepHs1_of_not_snapped hsnap),
      fun b hsnap hcnt hb => congrArg _ (stepHs1_of_byte hsnap (fifoRead_of_not_empty hcnt.ne' hb)),
      fun hsnap hempty => congrArg _ (stepHs1_of_empty hsnap hempty)⟩
  case hs2 =>
    have hstep : handlerStep s = stepHs2 s := by simp only [handlerStep, hpc]
    rw [hstep]
    exact ⟨fun hskip => congrArg _ (stepHs2_of_not_taken hskip),
      fun hsnap hfree => congrArg _ (stepHs2_of_taken hsnap hfree)⟩
  case hs3 =>
    have hstep : handlerStep s = stepHs3 s := by simp only [handlerStep, hpc]
    exact congrArg _ (hstep.trans (stepHs3_eq s))
  case hs4 =>
    have hstep : handlerStep s = stepHs4 s := by simp only [handlerStep, hpc]
    exact congrArg _ (hstep.trans (stepHs4_eq s))
  case ret => exact congrArg _ (handlerStep_of_return hret)

/-! ### LINE (R176 to R180) -/

theorem perform_line_of_enabled {e : LineStep} {s : State} (h : lineEnabled e s = true) :
    perform (.line e) s = .next (lineEffect e s) :=
  if_pos h

theorem perform_line_ne_next {e : LineStep} {s : State} (h : lineEnabled e s = false) (t : State) :
    perform (.line e) s ≠ .next t := by
  intro hstep
  obtain ⟨hen, -⟩ := lineStep_cases hstep
  exact Bool.false_ne_true (h.symm.trans hen)

/-- The ghost counter goes down by one wherever a byte is owed. -/
theorem lineEffect_txReady (s : State) :
    lineEffect .txReady s =
      { s with
        uart := { s.uart with events := s.uart.events ||| 0b0001#4 }
        logs := { s.logs with txOwed := s.logs.txOwed - 1 } } := by
  rw [← setBit_txdrdy]
  rfl

theorem lineEffect_rxArrive (b : Byte) (s : State) :
    lineEffect (.rxArrive b) s =
      { s with uart := { s.uart with rxd := b, rxdValid := true, events := s.uart.events ||| 0b0010#4 } } := by
  rw [← setBit_rxdrdy]
  rfl

theorem lineEffect_rxOverrun (b : Byte) (replace : Bool) (s : State) :
    lineEffect (.rxOverrun b replace) s =
      { s with
        uart :=
          { s.uart with
            events := s.uart.events ||| 0b1000#4, errorsrc := s.uart.errorsrc ||| 0b001#3
            rxd := if replace then b else s.uart.rxd } } := by
  rw [← setBit_error, ← setBit_overrun]
  cases replace <;> rfl

theorem lineEffect_rxTimeout (s : State) :
    lineEffect .rxTimeout s = { s with uart := { s.uart with events := s.uart.events ||| 0b0100#4 } } := by
  rw [← setBit_rxto]
  rfl

theorem lineEffect_lineError (k : LineErrorKind) (s : State) :
    lineEffect (.lineError k) s =
      { s with
        uart :=
          { s.uart with events := s.uart.events ||| 0b1000#4, errorsrc := setBit s.uart.errorsrc k.bit } } := by
  rw [← setBit_error]
  rfl

/-- Settles O40: the guard decides whether LINE steps, and where it does the step is its effect. -/
theorem lineStepsRaiseEvents : Obligations.LineStepsRaiseEvents := by
  intro b s
  refine ⟨⟨_, perform_line_of_enabled rfl, lineEffect_txReady s, Nat.succ_pred_eq_of_pos⟩, fun hfree => ?_,
    fun hvalid => ?_, fun replace hvalid => ?_, fun replace t hfree => ?_, ?_, ?_, ?_⟩
  · rw [perform_line_of_enabled (e := .rxArrive b) (congrArg not hfree), lineEffect_rxArrive]
  · exact perform_line_ne_next (e := .rxArrive b) (congrArg not hvalid)
  · rw [perform_line_of_enabled (e := .rxOverrun b replace) hvalid, lineEffect_rxOverrun]
  · exact perform_line_ne_next (e := .rxOverrun b replace) hfree t
  · rw [perform_line_of_enabled rfl, lineEffect_rxTimeout]
  · rw [perform_line_of_enabled rfl, lineEffect_lineError, ← setBit_parityErr]
    rfl
  · rw [perform_line_of_enabled rfl, lineEffect_lineError, ← setBit_framing]
    rfl

end Sys2Proof.Machine

/-! ## Proofs: exceptions (60_exceptions.md)

What it takes for FG to have no step and for an exception to be dispatchable, what dispatch makes of the state, and the
words of the vector table by the binding of their slot. -/

namespace Sys2Proof

/-! ### The pend bits (R33, R197) -/

theorem hasPend_iff (n : Nat) :
    hasPend n = true ↔ 2 ≤ n ∧ n ≤ 46 ∧ isReservedSlot n = false ∧ n ≠ excUart0 := by
  simp [hasPend, and_assoc]

theorem mem_allExtLines (n : Nat) : n ∈ allExtLines ↔ hasPend n = true := by
  simp only [allExtLines, List.mem_filter, List.mem_range, and_iff_right_iff_imp]
  intro h
  obtain ⟨-, hle, -, -⟩ := (hasPend_iff n).1 h
  exact Nat.lt_succ_of_le hle

/-! ### The bindings of a well-formed set (R5, R191) -/

section Bindings
variable {p : Params} {n : Nat}

theorem bindChecks_of_wf (h : p.wf = true) : p.addrsOk = true ∧ p.bindOk = true := by
  simp only [Params.wf, Bool.and_eq_true] at h
  simp only [h, and_self]

theorem bindOk_iff (p : Params) :
    p.bindOk = true ↔
      (p.bind.map Prod.fst).Nodup ∧ (∀ e ∈ p.bind, 2 ≤ e.1 ∧ e.1 ≤ 46) ∧
      ∀ n < slotCount, n < 2 ∨ p.slotBindingOk n = true := by
  simp [Params.bindOk, and_assoc]

/-- A slot that BIND lists has the binding listed for it, since BIND is a map. -/
theorem binding_of_mem {b : Binding} (hnodup : (p.bind.map Prod.fst).Nodup) (h : (n, b) ∈ p.bind) :
    p.binding n = b := by
  have hfound : p.bind.find? (fun e => e.1 == n) = some (n, b) := by
    cases hfind : p.bind.find? (fun e => e.1 == n) with
    | none => simpa using List.find?_eq_none.1 hfind (n, b) h
    | some e =>
      have hkey : e.1 = n := by simpa using List.find?_some hfind
      exact congrArg some (List.inj_on_of_nodup_map hnodup (List.mem_of_find?_eq_some hfind) h hkey)
  simp [Params.binding, hfound]

/-- A slot bound to something else than DEFAULT is listed. -/
theorem mem_bind_of_binding {b : Binding} (hb : b ≠ .defaultHandler) (h : p.binding n = b) : (n, b) ∈ p.bind := by
  cases hfind : p.bind.find? (fun e => e.1 == n) with
  | none =>
    have hdefault : p.binding n = .defaultHandler := by simp [Params.binding, hfind]
    exact absurd (h.symm.trans hdefault) hb
  | some e =>
    have hkey : e.1 = n := by simpa using List.find?_some hfind
    have hval : e.2 = b := by simpa [Params.binding, hfind] using h
    rw [← hkey, ← hval]
    exact List.mem_of_find?_eq_some hfind

theorem slotBindingOk_of_wf (h : p.wf = true) (hlow : 2 ≤ n) (hhigh : n < slotCount) :
    p.slotBindingOk n = true := by
  obtain ⟨-, -, hslots⟩ := (bindOk_iff p).1 (bindChecks_of_wf h).2
  exact (hslots n hhigh).resolve_left (Nat.not_lt.2 hlow)

/-- A reserved slot has no pend bit, so DEFAULT and CUSTOM are not allowed, and UART0 is for slot 18 only. -/
theorem binding_of_reserved (hok : p.slotBindingOk n = true) (hres : isReservedSlot n = true) :
    p.binding n = .reserved := by
  have hpend : hasPend n = false := by simp [hasPend, hres]
  cases hb : p.binding n with
  | reserved => rfl
  | uart0 =>
    have hn : n = excUart0 := by simpa [Params.slotBindingOk, hb] using hok
    exact absurd (hn ▸ hres) (by decide)
  | defaultHandler => simp [Params.slotBindingOk, hb, hpend] at hok
  | custom a => simp [Params.slotBindingOk, hb, hpend] at hok

theorem binding_uart0 (hok : p.slotBindingOk excUart0 = true) : p.binding excUart0 = .uart0 := by
  have hpend : hasPend excUart0 = false := by decide
  have hres : isReservedSlot excUart0 = false := by decide
  cases hb : p.binding excUart0 with
  | uart0 => rfl
  | reserved | defaultHandler | custom a => simp [Params.slotBindingOk, hb, hpend, hres] at hok

/-- A slot with a pend bit is bound to DEFAULT or to a CUSTOM address that BIND lists for it. -/
theorem binding_default_of_hasPend (hok : p.slotBindingOk n = true) (hpend : hasPend n = true)
    (hcustom : ∀ a, (n, .custom a) ∉ p.bind) : p.binding n = .defaultHandler := by
  obtain ⟨-, -, hres, huart⟩ := (hasPend_iff n).1 hpend
  cases hb : p.binding n with
  | defaultHandler => rfl
  | reserved => simp [Params.slotBindingOk, hb, hres] at hok
  | uart0 => simp [Params.slotBindingOk, hb, huart] at hok
  | custom a => exact absurd (mem_bind_of_binding (by simp) hb) (hcustom a)

theorem custom_ne_zero {a : Word} (hok : p.slotBindingOk n = true) (hb : p.binding n = .custom a) : a ≠ 0 := by
  simp only [Params.slotBindingOk, hb, Bool.and_eq_true, decide_eq_true_eq] at hok
  obtain ⟨⟨⟨⟨-, hzero⟩, -⟩, -⟩, -⟩ := hok
  exact hzero

theorem vectorWord_of_binding {b : Binding} (hlow : 2 ≤ n) (hb : p.binding n = b) :
    p.vectorWord n = p.bindingWord b := by
  rw [Params.vectorWord, if_neg (by omega), if_neg (by omega), hb]

end Bindings

end Sys2Proof

namespace Sys2Proof.Machine

/-- In a well-formed set a slot from 2 up reads as its binding's word. -/
theorem vectorFetch_of_binding {p : Params} {n : Nat} {b : Binding} (h : p.wf = true) (hlow : 2 ≤ n)
    (hhigh : n < slotCount) (hb : p.binding n = b) (seed : Nat) (ram : Memory) :
    vectorFetch p seed ram n = some (p.bindingWord b) := by
  rw [vectorFetch_of_wf h hhigh, vectorWord_of_binding hlow hb]

/-- Settles O51: every slot reads as R191's word, and the parameter checks tell the slot's binding. -/
theorem vectorTableOfAWellFormedSet : Obligations.VectorTableOfAWellFormedSet := by
  intro p seed ram h
  obtain ⟨haddrs, hbind⟩ := bindChecks_of_wf h
  obtain ⟨hnodup, hrange, -⟩ := (bindOk_iff p).1 hbind
  refine ⟨vectorFetch_of_wf h (n := 0) (by decide) seed ram, vectorFetch_of_wf h (n := 1) (by decide) seed ram,
    fun n hn => ?reserved, ?uart0, ?entries, fun n hpend hcustom => ?default, fun n a hmem => ?custom⟩
  case reserved =>
    have hslots : ∀ n ∈ [7, 8, 9, 10, 13, 21, 42, 43, 44, 45, 46],
        isReservedSlot n = true ∧ 2 ≤ n ∧ n < slotCount := by decide
    obtain ⟨hres, hlow, hhigh⟩ := hslots n hn
    exact vectorFetch_of_binding h hlow hhigh (binding_of_reserved (slotBindingOk_of_wf h hlow hhigh) hres) seed ram
  case uart0 =>
    have hok : p.slotBindingOk excUart0 = true := slotBindingOk_of_wf h (by decide) (by decide)
    exact vectorFetch_of_binding h (by decide) (by decide) (binding_uart0 hok) seed ram
  case entries =>
    simp only [Params.addrsOk, Bool.and_eq_true, decide_eq_true_eq] at haddrs
    obtain ⟨⟨⟨-, hreset⟩, hdefault⟩, huart⟩ := haddrs
    simp only [List.mem_cons, List.not_mem_nil, or_false, not_or]
    exact ⟨hreset.symm, hdefault.symm, huart.symm⟩
  case default =>
    obtain ⟨hlow, hle, -, -⟩ := (hasPend_iff n).1 hpend
    have hhigh : n < slotCount := Nat.lt_succ_of_le hle
    exact vectorFetch_of_binding h hlow hhigh
      (binding_default_of_hasPend (slotBindingOk_of_wf h hlow hhigh) hpend hcustom) seed ram
  case custom =>
    obtain ⟨hlow, hle⟩ := hrange _ hmem
    have hhigh : n < slotCount := Nat.lt_succ_of_le hle
    have hb : p.binding n = .custom a := binding_of_mem hnodup hmem
    exact ⟨custom_ne_zero (slotBindingOk_of_wf h hlow hhigh) hb, vectorFetch_of_binding h hlow hhigh hb seed ram⟩

/-! ### FG and IRQ without a step (R209, R239) -/

section NotEnabled
variable {s : State}

theorem fgEnabled_of_active (h : s.irq.active ≠ 0) : fgEnabled s = false := by
  simp only [fgEnabled, decide_eq_false h, Bool.false_and]

theorem fgEnabled_of_halted (h : s.irq.halted = true) : fgEnabled s = false := by
  simp [fgEnabled, h]

theorem irqEnabled_of_halted (h : s.irq.halted = true) : irqEnabled s = false := by
  simp [irqEnabled, h]

theorem fgEnabled_of_systemPending {n : Nat} (hn : n ∈ systemExceptions) (h : s.irq.pend.getLsbD n = true) :
    fgEnabled s = false := by
  have hpending : noSystemPending s = false := by
    simp only [noSystemPending, List.all_eq_false]
    exact ⟨n, hn, by simp [h]⟩
  rw [fgEnabled, hpending, Bool.and_false]

theorem fgStep_ne_next (h : fgEnabled s = false) (t : State) : fgStep s ≠ .next t := by
  simp [fgStep, h]

end NotEnabled

/-! ### The dispatcher's choice (R198, R199) -/

theorem dispatchable_iff (s : State) (n : Nat) :
    dispatchable s n = true ↔ s.irq.active = 0 ∧ s.irq.halted = false ∧ lowestPending s = some n := by
  simp [dispatchable, and_assoc]

/-- Settles O43: dispatchable means chosen, the choice is the lowest number requested and enabled, and there is one. -/
theorem lowestNumberIsDispatchable : Obligations.LowestNumberIsDispatchable := by
  intro s n m
  refine ⟨by rw [dispatchable_iff, lowestPending_eq_some], fun hn hm => ?_⟩
  obtain ⟨-, -, hn⟩ := (dispatchable_iff s n).1 hn
  obtain ⟨-, -, hm⟩ := (dispatchable_iff s m).1 hm
  exact Option.some.inj (hn.symm.trans hm)

theorem not_dispatchable_of_active {s : State} (h : s.irq.active ≠ 0) (n : Nat) : dispatchable s n = false := by
  simp only [dispatchable, decide_eq_false h, Bool.false_and]

/-- Where something is requested and enabled and no handler is active, that or a lower number is dispatchable. -/
theorem exists_dispatchable_le {s : State} {n : Nat} (ha : s.irq.active = 0) (hh : s.irq.halted = false)
    (hreq : requested s n = true) (hen : enabled s n = true) : ∃ m, m ≤ n ∧ dispatchable s m = true := by
  cases hlow : lowestPending s with
  | none => exact absurd ⟨hreq, hen⟩ ((lowestPending_eq_none s).1 hlow n)
  | some m =>
    obtain ⟨-, -, hmin⟩ := (lowestPending_eq_some s m).1 hlow
    have hle : m ≤ n := Nat.not_lt.1 fun hlt => hmin n hlt ⟨hreq, hen⟩
    exact ⟨m, hle, (dispatchable_iff s m).2 ⟨ha, hh, hlow⟩⟩

theorem irqStep_of_dispatchable {s : State} {n : Nat} (h : dispatchable s n = true) :
    irqStep s = takeException n s := by
  obtain ⟨ha, hh, hlow⟩ := (dispatchable_iff s n).1 h
  simp [irqStep, ha, hh, hlow]

/-- Settles O42: the dispatchable number is the one taken, by the word of its slot. -/
theorem dispatchTakesTheException : Obligations.DispatchTakesTheException := by
  intro n v s hdisp hword
  have hfetch : vectorFetch s.par s.seed s.ram n = some v := hword
  rw [irqStep_of_dispatchable hdisp, takeException, hfetch]
  rfl

/-! ### EXT (R197) -/

theorem extRequest_of_mem {n : Nat} {s : State} (h : n ∈ s.par.extLines) :
    extRequest n s = .next { s with irq := { s.irq with pend := setBit s.irq.pend n } } := by
  simp [extRequest, h]

/-- Settles O41: EXT_LINES decides whether EXT steps, and where it does one bit of pend is set. -/
theorem extRequestPendsOneLine : Obligations.ExtRequestPendsOneLine := by
  refine ⟨mem_allExtLines, fun n s => ⟨fun hmem hn => ?_, fun hmem t hstep => ?_⟩⟩
  · refine ⟨_, extRequest_of_mem hmem, rfl, fun k => ?_⟩
    have hbit : (decide (k < 47) && decide (n = k)) = decide (k = n) := by
      by_cases hk : k = n
      · simp [hk, hn]
      · simp [hk, Ne.symm hk]
    rw [getLsbD_setBit, hbit]
  · obtain ⟨hin, -⟩ := extRequest_cases hstep
    exact hmem hin

/-! ### A handler is not preempted (R198) -/

theorem stepHs1_irq (s : State) : (stepHs1 s).irq = { s.irq with hpc := .hs2 } := by
  unfold stepHs1
  split
  · obtain ⟨-, hread⟩ | ⟨-, hread⟩ := fifoRead_cases s.txq <;> simp [hread]
  · simp

theorem stepHs2_irq (s : State) : (stepHs2 s).irq = { s.irq with hpc := .hs3 } := by
  unfold stepHs2
  split
  · cases s.par.echo <;> simp
  · simp

theorem handlerStep_pend (s : State) : (handlerStep s).irq.pend = s.irq.pend := by
  unfold handlerStep
  cases s.irq.hpc with
  | hs1 => simp only [stepHs1_irq]
  | hs2 => simp only [stepHs2_irq]
  | hs3 => simp only [stepHs3_eq]
  | hs4 => simp only [stepHs4_eq]
  | hs0 | hs5 | dh0 | dh1 | ch0 => rfl

/-- HS5 and CH0 end the handler; no other micro-step writes ACTIVE. -/
theorem handlerStep_active (s : State) :
    (handlerStep s).irq.active = s.irq.active ∨ (handlerStep s).irq.active = 0 := by
  by_cases hret : s.irq.hpc = .hs5 ∨ s.irq.hpc = .ch0
  · exact .inr (by simp [handlerStep_of_return hret])
  · left
    unfold handlerStep
    cases hpc : s.irq.hpc with
    | hs1 => simp only [stepHs1_irq]
    | hs2 => simp only [stepHs2_irq]
    | hs3 => simp only [stepHs3_eq]
    | hs4 => simp only [stepHs4_eq]
    | hs0 | dh0 | dh1 => rfl
    | hs5 | ch0 => simp [hpc] at hret

/-- Settles O48: with a handler active FG is not enabled, nothing is dispatchable and IRQ's step is a micro-step. -/
theorem noNestingOfHandlers : Obligations.NoNestingOfHandlers := by
  intro s ha
  refine ⟨fgStep_ne_next (fgEnabled_of_active ha), not_dispatchable_of_active ha, fun t hstep => ?_⟩
  obtain ⟨-, ⟨-, rfl⟩ | ⟨hidle, -⟩⟩ := irqStep_cases hstep
  · exact ⟨handlerStep_active s, handlerStep_pend s⟩
  · exact absurd hidle ha

/-! ### A pending system exception stops the foreground (R205, R209) -/

theorem requested_of_pend {s : State} {n : Nat} (hn : hasPend n = true) (h : s.irq.pend.getLsbD n = true) :
    requested s n = true := by
  obtain ⟨-, -, -, huart⟩ := (hasPend_iff n).1 hn
  simp [requested, huart, hn, h]

theorem enabled_of_system {n : Nat} (hlow : 2 ≤ n) (hhigh : n ≤ 15) (s : State) : enabled s n = true := by
  simp [enabled, hlow, hhigh]

theorem systemPending_stops_foreground {s : State} {n : Nat} (ha : s.irq.active = 0) (hh : s.irq.halted = false)
    (hn : n ∈ systemExceptions) (h : s.irq.pend.getLsbD n = true) :
    (∀ t, fgStep s ≠ .next t) ∧ ∃ m, m ≤ n ∧ dispatchable s m = true := by
  have hsystem : ∀ n ∈ systemExceptions, hasPend n = true ∧ 2 ≤ n ∧ n ≤ 15 := by decide
  obtain ⟨hpend, hlow, hhigh⟩ := hsystem n hn
  exact ⟨fgStep_ne_next (fgEnabled_of_systemPending hn h),
    exists_dispatchable_le ha hh (requested_of_pend hpend h) (enabled_of_system hlow hhigh s)⟩

/-- Settles O49: each raise sets the pend bit of a system exception. -/
theorem raisedFaultStopsTheForeground : Obligations.RaisedFaultStopsTheForeground := by
  intro a s ha hh
  refine ⟨⟨rfl, systemPending_stops_foreground ha hh (by decide) ?_⟩,
    ⟨rfl, systemPending_stops_foreground ha hh (by decide) ?_⟩⟩
  · simp [getLsbD_setBit, excBusFault]
  · simp [getLsbD_setBit, excUsageFault]

/-! ### The default handler (R203) -/

theorem stepDh0_eq (s : State) :
    stepDh0 s =
      { s with
        irq :=
          { s.irq with
            diagActive := s.irq.active
            diagPending := (icsr s).extractLsb' 12 6
            diagIcsr := icsr s
            hpc := .dh1 } } := by
  rw [stepDh0, icsr_vectActive]
  rfl

/-- Settles O46: DH0's latches, the first of them the VECTACTIVE field of ICSR, and DH1's halt. -/
theorem defaultHandlerLatchesAndHalts : Obligations.DefaultHandlerLatchesAndHalts := by
  intro s ha hh
  rw [irqStep_active ha hh]
  refine ⟨fun hpc => ?_, fun hpc => ?_⟩
  · have hstep : handlerStep s = stepDh0 s := by simp only [handlerStep, hpc]
    rw [hstep, stepDh0_eq]
  · have hstep : handlerStep s = stepDh1 s := by simp only [handlerStep, hpc]
    rw [hstep]
    exact ⟨_, rfl, rfl, fgEnabled_of_halted rfl, irqEnabled_of_halted rfl⟩

end Sys2Proof.Machine

/-! ## Proofs: reset and hazards (70_reset_and_hazards.md)

One lemma per outcome of an initializer step. -/

namespace Sys2Proof.Machine

/-! ### The initializer's steps (R233, R234) -/

section Initializer
variable {s : State}

theorem fgStep_of_copy (he : fgEnabled s = true) (hm : s.mode = .copy) : fgStep s = .next (copyStep s) := by
  simp only [fgStep, he, hm, if_true]

theorem fgStep_of_zero (he : fgEnabled s = true) (hm : s.mode = .zero) : fgStep s = .next (zeroStep s) := by
  simp only [fgStep, he, hm, if_true]

theorem memWrite4_fg {s1 : State} {a v : Word} (h : memWrite4 s a v = some s1) : s1.fg = s.fg := by
  rw [memWrite4_frame h]

theorem copyStep_of_unreadable (hmore : s.fg.src.toNat < s.par.dataSrcEnd.toNat)
    (hread : memRead4 s s.fg.src = none) : copyStep s = raiseBusFault s.fg.src s := by
  rw [copyStep, if_pos hmore, hread]

theorem copyStep_of_unwritable {v : Word} (hmore : s.fg.src.toNat < s.par.dataSrcEnd.toNat)
    (hread : memRead4 s s.fg.src = some v) (hwrite : memWrite4 s s.fg.dst v = none) :
    copyStep s = raiseBusFault s.fg.dst s := by
  simp only [copyStep, if_pos hmore, hread, hwrite]

theorem copyStep_of_written {v : Word} {s1 : State} (hmore : s.fg.src.toNat < s.par.dataSrcEnd.toNat)
    (hread : memRead4 s s.fg.src = some v) (hwrite : memWrite4 s s.fg.dst v = some s1) :
    copyStep s = { s1 with fg := { s.fg with src := s.fg.src + 4, dst := s.fg.dst + 4 } } := by
  simp only [copyStep, if_pos hmore, hread, hwrite, memWrite4_fg hwrite]

theorem copyStep_of_end (hend : s.par.dataSrcEnd.toNat ≤ s.fg.src.toNat) :
    copyStep s = { s with mode := .zero, fg := { s.fg with dst := s.par.zeroStart } } := by
  rw [copyStep, if_neg (Nat.not_lt.2 hend)]

theorem zeroStep_of_unwritable (hmore : s.fg.dst.toNat < s.par.zeroEnd.toNat)
    (hwrite : memWrite4 s s.fg.dst 0x00000000#32 = none) : zeroStep s = raiseBusFault s.fg.dst s := by
  rw [zeroStep, if_pos hmore, hwrite]

theorem zeroStep_of_written {s1 : State} (hmore : s.fg.dst.toNat < s.par.zeroEnd.toNat)
    (hwrite : memWrite4 s s.fg.dst 0x00000000#32 = some s1) :
    zeroStep s = { s1 with fg := { s.fg with dst := s.fg.dst + 4 } } := by
  simp only [zeroStep, if_pos hmore, hwrite, memWrite4_fg hwrite]

theorem zeroStep_of_end (hend : s.par.zeroEnd.toNat ≤ s.fg.dst.toNat) :
    zeroStep s = { s with pc := s.par.appEntry, mode := .run } := by
  rw [zeroStep, if_neg (Nat.not_lt.2 hend)]

end Initializer

/-- Settles O53: where FG may step its step in COPY is `copyStep` and in ZERO `zeroStep`, each taken outcome by
outcome; the faults are BusFault's raise (R205) written out. -/
theorem initializerStepsAsRule : Obligations.InitializerStepsAsRule := by
  refine fun s he => ⟨fun hm => ?copy, fun hm => ?zero⟩
  case copy =>
    rw [fgStep_of_copy he hm]
    refine ⟨fun hmore => ⟨fun hread => ?_, fun v hread => ⟨fun hwrite => ?_, fun s1 hwrite => ?_⟩⟩, fun hend => ?_⟩
    · exact congrArg Host.Outcome.next (copyStep_of_unreadable hmore hread)
    · exact congrArg Host.Outcome.next (copyStep_of_unwritable hmore hread hwrite)
    · exact congrArg Host.Outcome.next (copyStep_of_written hmore hread hwrite)
    · exact congrArg Host.Outcome.next (copyStep_of_end hend)
  case zero =>
    rw [fgStep_of_zero he hm]
    refine ⟨fun hmore => ⟨fun hwrite => ?_, fun s1 hwrite => ?_⟩, fun hend => ?_⟩
    · exact congrArg Host.Outcome.next (zeroStep_of_unwritable hmore hwrite)
    · exact congrArg Host.Outcome.next (zeroStep_of_written hmore hwrite)
    · exact congrArg Host.Outcome.next (zeroStep_of_end hend)

end Sys2Proof.Machine

/-! ## Proofs: the encoding's round trip (30_encoding.md)

A first word is its three fields, and matching a row is one condition on each of them. A command's words match its
opcode's row and assemble to the command; a word that matches a row is the word of the command it assembles to. -/

namespace Sys2Proof

/-! ### The fields of a first word (R71) -/

/-- The operand field a of a first word (R71). -/
def operandField (w : Word) : Byte := w.extractLsb' 16 8

theorem formatS_fields (w : Word) : formatS (opcodeField w) (operandField w) (fieldImm w) = w := by
  have hlow : operandField w ++ fieldImm w = w.extractLsb' 0 24 :=
    BitVec.extractLsb'_append_extractLsb'_eq_extractLsb' rfl
  rw [formatS, BitVec.append_assoc, hlow]
  simpa [opcodeField] using BitVec.extractLsb'_append_extractLsb'_eq_extractLsb' (x := w) (start₁ := 0) (len₁ := 24)
    (start₂ := 24) (len₂ := 8) rfl

theorem formatS_eq_of_fields {op a : Byte} {imm : BitVec 16} {w : Word} (hop : opcodeField w = op)
    (ha : a = operandField w) (himm : imm = fieldImm w) : formatS op a imm = w := by
  rw [← hop, ha, himm, formatS_fields]

section FormatS
variable (op a : Byte) (imm : BitVec 16)

@[simp] theorem opcodeField_formatS : opcodeField (formatS op a imm) = op := Laws.EncodedLength.opcode_formatS op a imm

@[simp] theorem operandField_formatS : operandField (formatS op a imm) = a := by
  rw [operandField, formatS, BitVec.extractLsb'_append_eq_of_le (Nat.le_refl 16), BitVec.extractLsb'_append_eq_right]

@[simp] theorem fieldImm_formatS : fieldImm (formatS op a imm) = imm := BitVec.extractLsb'_append_eq_right

end FormatS

/-! ### The rows by their opcode (R75) -/

/-- The row of an opcode. -/
def Opcode.row (op : Opcode) : OpRow :=
  (opTable.find? (fun r => decide (r.op = op))).getD ⟨op, .s, 0, 0⟩

theorem Opcode.row_mem (op : Opcode) : op.row ∈ opTable := by
  cases op <;> decide

theorem Opcode.row_op (op : Opcode) : op.row.op = op := by
  cases op <;> decide

theorem row_op_of_mem {r : OpRow} (h : r ∈ opTable) : r.op.row = r := by
  revert r
  decide

/-- No row fixes an operand bit to 1. -/
theorem operandFields_of_mem {r : OpRow} (h : r ∈ opTable) : operandField r.bits = 0 ∧ fieldImm r.bits = 0 := by
  revert r
  decide

/-- A word matches a row when it carries the row's opcode and 0 in every operand bit the row fixes (R75, R76). -/
theorem matches_iff {r : OpRow} (hr : r ∈ opTable) (w : Word) :
    w &&& r.mask = r.bits ↔
      opcodeField w = opcodeField r.bits ∧ operandField w &&& operandField r.mask = 0 ∧
      fieldImm w &&& fieldImm r.mask = 0 := by
  obtain ⟨hbits, himm⟩ := operandFields_of_mem hr
  have hand : operandField (w &&& r.mask) = operandField w &&& operandField r.mask := BitVec.extractLsb'_and
  have himmAnd : fieldImm (w &&& r.mask) = fieldImm w &&& fieldImm r.mask := BitVec.extractLsb'_and
  constructor
  · intro h
    exact ⟨opcodeField_of_matches hr h, by rw [← hand, h, hbits], by rw [← himmAnd, h, himm]⟩
  · rintro ⟨hop, ha, hi⟩
    have hopAnd : opcodeField (w &&& r.mask) = opcodeField w := by
      rw [opcodeField, BitVec.extractLsb'_and, show r.mask.extractLsb' 24 8 = _ from opcodeField_mask hr,
        BitVec.and_allOnes, opcodeField]
    rw [← formatS_fields r.bits, hbits, himm]
    exact (formatS_eq_of_fields (hopAnd.trans hop) (hand.trans ha).symm (himmAnd.trans hi).symm).symm

/-! ### The operands of a first word (R74) -/

theorem fieldQ_eq (w : Word) : fieldQ w = if (operandField w).getLsbD 0 then .rxq else .txq := by
  simp [fieldQ, operandField]

theorem fieldN_eq (w : Word) : fieldN w = (operandField w).setWidth 6 :=
  (BitVec.setWidth_extractLsb'_of_le (by decide)).symm

theorem fieldByte_eq (w : Word) : fieldByte w = (fieldImm w).setWidth 8 :=
  (BitVec.setWidth_extractLsb'_of_le (by decide)).symm

theorem fieldMask_eq (w : Word) : fieldMask w = (fieldImm w).setWidth 4 :=
  (BitVec.setWidth_extractLsb'_of_le (by decide)).symm

/-- The two flags of CONFIGURE, flow control above parity. -/
theorem flags_eq (w : Word) :
    BitVec.ofBool (w.getLsbD 1) ++ BitVec.ofBool (w.getLsbD 0) = (fieldImm w).setWidth 2 := by
  apply BitVec.eq_of_getLsbD_eq
  intro j hj
  have hcases : j = 0 ∨ j = 1 := by omega
  simp only [fieldImm, BitVec.getLsbD_append, BitVec.getLsbD_ofBool, BitVec.getLsbD_setWidth,
    BitVec.getLsbD_extractLsb']
  obtain rfl | rfl := hcases <;> simp

/-- A field whose bits from k up are fixed to 0 is told by its k low bits. -/
theorem setWidth_setWidth_of_and_eq_zero {n : Nat} {x m : BitVec n} {k : Nat}
    (hm : ∀ j < n, k ≤ j → m.getLsbD j = true) (h : x &&& m = 0) : (x.setWidth k).setWidth n = x := by
  apply BitVec.eq_of_getLsbD_eq
  intro j hj
  by_cases hk : j < k
  · simp [hj, hk]
  · have hbit : (x &&& m).getLsbD j = false := by simp [h]
    rw [BitVec.getLsbD_and, hm j hj (Nat.le_of_not_lt hk), Bool.and_true] at hbit
    simp [hk, hbit]

theorem code_fieldQ {w : Word} (h : operandField w &&& 0xFE#8 = 0) : (fieldQ w).code = operandField w := by
  have hcode : ∀ a : Byte, a &&& 0xFE#8 = 0 → (if a.getLsbD 0 then QId.rxq else .txq).code = a := by decide
  rw [fieldQ_eq]
  exact hcode _ h

theorem setWidth_fieldN {w : Word} (h : operandField w &&& 0xC0#8 = 0) :
    (fieldN w).setWidth 8 = operandField w := by
  rw [fieldN_eq]
  exact setWidth_setWidth_of_and_eq_zero (by decide) h

theorem setWidth_fieldByte {w : Word} (h : fieldImm w &&& 0xFF00#16 = 0) :
    (fieldByte w).setWidth 16 = fieldImm w := by
  rw [fieldByte_eq]
  exact setWidth_setWidth_of_and_eq_zero (by decide) h

theorem setWidth_fieldMask {w : Word} (h : fieldImm w &&& 0xFFF0#16 = 0) :
    (fieldMask w).setWidth 16 = fieldImm w := by
  rw [fieldMask_eq]
  exact setWidth_setWidth_of_and_eq_zero (by decide) h

theorem setWidth_flags {w : Word} (h : fieldImm w &&& 0xFFFC#16 = 0) :
    (BitVec.ofBool (w.getLsbD 1) ++ BitVec.ofBool (w.getLsbD 0)).setWidth 16 = fieldImm w := by
  rw [flags_eq]
  exact setWidth_setWidth_of_and_eq_zero (by decide) h

/-! ### The words of a command -/

/-- The opcode of a command (R75). -/
def Instr.opcode : Instr → Opcode
  | .endCmd => .endCmd
  | .fcreate _ _ => .fcreate
  | .fwrite _ _ => .fwrite
  | .fread _ => .fread
  | .ffull _ => .ffull
  | .fempty _ => .fempty
  | .favail _ => .favail
  | .imask _ => .imask
  | .iunmask _ => .iunmask
  | .intset _ => .intset
  | .intclr _ => .intclr
  | .configure _ _ _ _ _ _ _ => .configure
  | .putc _ => .putc
  | .getc => .getc
  | .puts _ _ => .puts
  | .putz _ => .putz
  | .send _ _ => .send
  | .recv _ _ => .recv

/-- The words a command of this format has, its first and its second word given. -/
def Format.words (w w1 : Word) : Format → List Word
  | .s => [w]
  | .l => [w, w1]

def Instr.firstWord (i : Instr) : Word := (encode i).headD 0

/-- The second word; 0 where there is none, as `assemble` takes it. -/
def Instr.secondWord (i : Instr) : Word := (encode i).getD 1 0

theorem encode_eq_words (i : Instr) : encode i = i.opcode.row.format.words i.firstWord i.secondWord := by
  cases i <;> rfl

theorem secondWord_eq_zero {i : Instr} (h : i.opcode.row.format = .s) : i.secondWord = 0 := by
  cases i with
  | configure | puts | putz | send | recv => cases h
  | _ => rfl

/-- A word written with an opcode and with operands that fit their fields matches the opcode's row. -/
theorem formatS_matches (op : Opcode) {a : Byte} {imm : BitVec 16} (ha : a &&& operandField op.row.mask = 0)
    (himm : imm &&& fieldImm op.row.mask = 0) :
    formatS (opcodeField op.row.bits) a imm &&& op.row.mask = op.row.bits := by
  rw [matches_iff op.row_mem, opcodeField_formatS, operandField_formatS, fieldImm_formatS]
  exact ⟨rfl, ha, himm⟩

/-- The first word of a command matches the row of its opcode: every operand fits its field. -/
theorem firstWord_matches (i : Instr) : i.firstWord &&& i.opcode.row.mask = i.opcode.row.bits := by
  have hqueue (q : QId) : q.code &&& 0xFE#8 = 0 := by cases q <;> rfl
  have hnumber : ∀ n : BitVec 6, n.setWidth 8 &&& 0xC0#8 = 0 := by decide
  have hbyte : ∀ b : Byte, b.setWidth 16 &&& 0xFF00#16 = 0 := by decide
  have hmask : ∀ m : BitVec 4, m.setWidth 16 &&& 0xFFF0#16 = 0 := by decide
  have hflags : ∀ parity flow : Bool,
      (BitVec.ofBool flow ++ BitVec.ofBool parity).setWidth 16 &&& 0xFFFC#16 = 0 := by decide
  cases i with
  | endCmd => exact formatS_matches .endCmd rfl rfl
  | getc => exact formatS_matches .getc rfl rfl
  | putz addr => exact formatS_matches .putz rfl rfl
  | fcreate q cap => exact formatS_matches .fcreate (hqueue q) BitVec.and_zero
  | fwrite q byte => exact formatS_matches .fwrite (hqueue q) (hbyte byte)
  | fread q => exact formatS_matches .fread (hqueue q) rfl
  | ffull q => exact formatS_matches .ffull (hqueue q) rfl
  | fempty q => exact formatS_matches .fempty (hqueue q) rfl
  | favail q => exact formatS_matches .favail (hqueue q) rfl
  | imask n => exact formatS_matches .imask (hnumber n) rfl
  | iunmask n => exact formatS_matches .iunmask (hnumber n) rfl
  | intset mask => exact formatS_matches .intset rfl (hmask mask)
  | intclr mask => exact formatS_matches .intclr rfl (hmask mask)
  | configure rx tx rts cts sel parity flow =>
    exact formatS_matches .configure BitVec.and_zero (hflags parity flow)
  | putc byte => exact formatS_matches .putc rfl (hbyte byte)
  | puts addr len => exact formatS_matches .puts rfl BitVec.and_zero
  | send addr len => exact formatS_matches .send rfl BitVec.and_zero
  | recv addr max => exact formatS_matches .recv rfl BitVec.and_zero

section Operands
variable (op a : Byte) (imm : BitVec 16)

@[simp] theorem fieldQ_formatS (q : QId) : fieldQ (formatS op q.code imm) = q := by
  rw [fieldQ_eq, operandField_formatS]
  cases q <;> rfl

@[simp] theorem fieldN_formatS (n : BitVec 6) : fieldN (formatS op (n.setWidth 8) imm) = n := by
  rw [fieldN_eq, operandField_formatS, BitVec.setWidth_setWidth_of_le n (by decide), BitVec.setWidth_eq]

@[simp] theorem fieldSel_formatS : fieldSel (formatS op a imm) = a := operandField_formatS op a imm

@[simp] theorem fieldByte_formatS (b : Byte) : fieldByte (formatS op a (b.setWidth 16)) = b := by
  rw [fieldByte_eq, fieldImm_formatS, BitVec.setWidth_setWidth_of_le b (by decide), BitVec.setWidth_eq]

@[simp] theorem fieldMask_formatS (m : BitVec 4) : fieldMask (formatS op a (m.setWidth 16)) = m := by
  rw [fieldMask_eq, fieldImm_formatS, BitVec.setWidth_setWidth_of_le m (by decide), BitVec.setWidth_eq]

/-- The flags are the two low bits of imm. -/
theorem getLsbD_formatS {k : Nat} (hk : k < 16) : (formatS op a imm).getLsbD k = imm.getLsbD k := by
  rw [formatS, BitVec.getLsbD_append, if_pos hk]

theorem getLsbD_flags (parity flow : Bool) :
    ((BitVec.ofBool flow ++ BitVec.ofBool parity).setWidth 16).getLsbD 0 = parity ∧
    ((BitVec.ofBool flow ++ BitVec.ofBool parity).setWidth 16).getLsbD 1 = flow := by
  revert parity flow
  decide

end Operands

theorem fieldPin_eq (rx tx rts cts : Byte) :
    fieldPin (cts ++ rts ++ tx ++ rx) 0 = rx ∧ fieldPin (cts ++ rts ++ tx ++ rx) 1 = tx ∧
    fieldPin (cts ++ rts ++ tx ++ rx) 2 = rts ∧ fieldPin (cts ++ rts ++ tx ++ rx) 3 = cts := by
  have hbytes := wordBytes_wordOfBytes rx tx rts cts
  simp only [wordBytes, List.cons.injEq, and_true] at hbytes
  exact hbytes

/-- The words of a command assemble to it. -/
theorem assemble_words (i : Instr) : assemble i.opcode i.firstWord i.secondWord = i := by
  cases i with
  | configure rx tx rts cts sel parity flow =>
    obtain ⟨hrx, htx, hrts, hcts⟩ := fieldPin_eq rx tx rts cts
    obtain ⟨hparity, hflow⟩ := getLsbD_flags parity flow
    simp only [assemble, Instr.opcode, Instr.firstWord, Instr.secondWord, encode, List.headD_cons, List.getD_cons_succ,
      List.getD_cons_zero, hrx, htx, hrts, hcts, fieldSel_formatS, getLsbD_formatS _ _ _ (by decide : 0 < 16),
      getLsbD_formatS _ _ _ (by decide : 1 < 16), hparity, hflow]
  | endCmd | getc | putz addr => rfl
  | fcreate q v | fwrite q v | puts v w | send v w | recv v w =>
    simp [assemble, Instr.opcode, Instr.firstWord, Instr.secondWord, encode]
  | fread v | ffull v | fempty v | favail v | imask v | iunmask v | intset v | intclr v | putc v =>
    simp [assemble, Instr.opcode, Instr.firstWord, encode]

/-- A word that matches a row is the first word of the command it assembles to. -/
theorem encode_assemble {op : Opcode} {w : Word} (h : w &&& op.row.mask = op.row.bits) (w1 : Word) :
    encode (assemble op w w1) = op.row.format.words w w1 := by
  obtain ⟨hop, ha, himm⟩ := (matches_iff op.row_mem w).1 h
  have hzero {n : Nat} {x : BitVec n} (hx : x &&& BitVec.allOnes n = 0) : 0 = x := by
    rw [← hx, BitVec.and_allOnes]
  cases op with
  | endCmd => exact congrArg (Format.words · w1 .s) (formatS_eq_of_fields hop (hzero ha) (hzero himm))
  | fcreate => exact congrArg (Format.words · w1 .s) (formatS_eq_of_fields hop (code_fieldQ ha) rfl)
  | fwrite =>
    exact congrArg (Format.words · w1 .s) (formatS_eq_of_fields hop (code_fieldQ ha) (setWidth_fieldByte himm))
  | fread | ffull | fempty | favail =>
    exact congrArg (Format.words · w1 .s) (formatS_eq_of_fields hop (code_fieldQ ha) (hzero himm))
  | imask | iunmask =>
    exact congrArg (Format.words · w1 .s) (formatS_eq_of_fields hop (setWidth_fieldN ha) (hzero himm))
  | intset | intclr =>
    exact congrArg (Format.words · w1 .s) (formatS_eq_of_fields hop (hzero ha) (setWidth_fieldMask himm))
  | configure =>
    have hfirst := formatS_eq_of_fields hop rfl (setWidth_flags himm)
    exact congrArg₂ (Format.words · · .l) hfirst (wordOfBytes_byteOfWord w1)
  | putc => exact congrArg (Format.words · w1 .s) (formatS_eq_of_fields hop (hzero ha) (setWidth_fieldByte himm))
  | getc => exact congrArg (Format.words · w1 .s) (formatS_eq_of_fields hop (hzero ha) (hzero himm))
  | putz => exact congrArg (Format.words · w1 .l) (formatS_eq_of_fields hop (hzero ha) (hzero himm))
  | puts | send | recv => exact congrArg (Format.words · w1 .l) (formatS_eq_of_fields hop (hzero ha) rfl)

/-! ### Decoding -/

theorem decode_of_short_row {w : Word} {r : OpRow} (h : findRow w = some r) (hf : r.format = .s) (rest : List Byte) :
    decode (wordBytes w ++ rest) = .ok (assemble r.op w 0, rest) := by
  simp [wordBytes, decode, wordOfBytes_byteOfWord, h, hf]

theorem decode_of_long_row {w : Word} {r : OpRow} (h : findRow w = some r) (hf : r.format = .l) (w1 : Word)
    (rest : List Byte) : decode (wordBytes w ++ (wordBytes w1 ++ rest)) = .ok (assemble r.op w w1, rest) := by
  simp [wordBytes, decode, wordOfBytes_byteOfWord, h, hf]

theorem findRow_firstWord (i : Instr) : findRow i.firstWord = some i.opcode.row :=
  findRow_of_matches i.opcode.row_mem (firstWord_matches i)

theorem assemble_firstWord {i : Instr} (h : i.opcode.row.format = .s) :
    assemble i.opcode.row.op i.firstWord 0 = i := by
  rw [← secondWord_eq_zero h, Opcode.row_op, assemble_words]

/-- Settles O1: the first word selects the row of the command's opcode, and the words assemble to the command. -/
theorem decodeOfEncodeIsTheCommand : Obligations.DecodeOfEncodeIsTheCommand := by
  intro i rest
  have hrow := findRow_firstWord i
  rw [encodeBytes, encode_eq_words]
  cases hf : i.opcode.row.format with
  | s =>
    have hdecode := decode_of_short_row hrow hf rest
    rw [assemble_firstWord hf] at hdecode
    simpa [Format.words] using hdecode
  | l =>
    have hdecode := decode_of_long_row hrow hf i.secondWord rest
    rw [Opcode.row_op, assemble_words] at hdecode
    simpa [Format.words] using hdecode

/-- What a byte list that decodes looks like: the bytes of one word or of two, then the rest. -/
theorem decode_eq_ok {bytes rest : List Byte} {i : Instr} (h : decode bytes = .ok (i, rest)) :
    ∃ w w1 r, findRow w = some r ∧ i = assemble r.op w w1 ∧
      bytes = (r.format.words w w1).flatMap wordBytes ++ rest := by
  unfold decode at h
  split at h
  case h_2 => simp at h
  case h_1 b0 b1 b2 b3 tail =>
    split at h
    case h_1 => simp at h
    case h_2 r hrow =>
      split at h
      case h_1 hf =>
        obtain ⟨rfl, rfl⟩ := Prod.mk.inj (Except.ok.inj h)
        exact ⟨_, 0, r, hrow, rfl, by simp [hf, Format.words, wordBytes_wordOfBytes]⟩
      case h_2 hf =>
        split at h
        case h_1 c0 c1 c2 c3 tail =>
          obtain ⟨rfl, rfl⟩ := Prod.mk.inj (Except.ok.inj h)
          exact ⟨_, wordOfBytes c0 c1 c2 c3, r, hrow, rfl, by simp [hf, Format.words, wordBytes_wordOfBytes]⟩
        case h_2 => simp at h

/-- Settles O2: the word that selected the row is the first word of the command assembled from it. -/
theorem decodedBytesAreTheEncoding : Obligations.DecodedBytesAreTheEncoding := by
  intro bytes rest i h
  obtain ⟨w, w1, r, hrow, rfl, rfl⟩ := decode_eq_ok h
  obtain ⟨hr, hmatch⟩ := findRow_some hrow
  rw [← row_op_of_mem hr] at hmatch
  rw [encodeBytes, encode_assemble hmatch, row_op_of_mem hr]

/-- Settles O3: decoding runs on each of the listed byte lists. -/
theorem listedWordsDecodeAsListed : Obligations.ListedWordsDecodeAsListed :=
  ⟨rfl, rfl, rfl, rfl, rfl, rfl, rfl, rfl, rfl, rfl, rfl⟩

/-- Settles O4: the rows differ in their opcode, which every row fixes. -/
theorem atMostOneRowMatches : Obligations.AtMostOneRowMatches :=
  fun _ _ _ ha hb hwa hwb => matching_rows_eq ha hb hwa hwb

end Sys2Proof

namespace Sys2Proof.Machine

/-! ### Fetch (R73) -/

theorem getElem?_wordBytes (w : Word) (rest : List Byte) {k : Nat} (hk : k < 4) :
    (wordBytes w ++ rest)[k]? = some (byteOfWord w k) := by
  match k, hk with
  | 0, _ | 1, _ | 2, _ | 3, _ => rfl

/-- Multiples of 4 stay so when the sum wraps. -/
theorem toNat_add_mod_four {a b : Word} (ha : a.toNat % 4 = 0) (hb : b.toNat % 4 = 0) : (a + b).toNat % 4 = 0 := by
  rw [BitVec.toNat_add]
  omega

/-- The bytes of `bytes` stand in ROM from `a` on. -/
def StandsInRom (p : Params) (a : Word) (bytes : List Byte) : Prop :=
  ∀ k < bytes.length, p.inRom (a + BitVec.ofNat 32 k) = true ∧
    bytes[k]? = some (romByte p (a + BitVec.ofNat 32 k))

theorem StandsInRom.append_right {p : Params} {a : Word} {xs ys : List Byte} (h : StandsInRom p a (xs ++ ys)) :
    StandsInRom p (a + BitVec.ofNat 32 xs.length) ys := by
  intro k hk
  have haddr : a + BitVec.ofNat 32 xs.length + BitVec.ofNat 32 k = a + BitVec.ofNat 32 (xs.length + k) := by
    rw [BitVec.add_assoc, ← BitVec.ofNat_add]
  have hboth := h (xs.length + k) (by rw [List.length_append]; omega)
  rwa [List.getElem?_append_right (Nat.le_add_right _ _), Nat.add_sub_cancel_left, ← haddr] at hboth

/-- A word that stands in ROM is what a read finds. -/
theorem memRead4_of_standsInRom {s : State} {a w : Word} {rest : List Byte} (ha : a.toNat % 4 = 0)
    (h : StandsInRom s.par a (wordBytes w ++ rest)) : memRead4 s a = some w := by
  have hbyte (k : Nat) (hk : k < 4) : s.par.inRom (a + BitVec.ofNat 32 k) = true ∧
      memRead1 s (a + BitVec.ofNat 32 k) = some (byteOfWord w k) := by
    obtain ⟨hrom, hget⟩ := h k (by simp [wordBytes]; omega)
    refine ⟨hrom, (memRead1_of_inRom hrom).trans ?_⟩
    rw [← hget, getElem?_wordBytes w rest hk]
  have hmapped : s.par.wordMapped a = true := (wordMapped_iff s.par a).2 (.inl fun k hk => (hbyte k hk).1)
  rw [memRead4_of_bytes ha hmapped fun k hk => (hbyte k hk).2, wordOfBytes_byteOfWord]

theorem encodeBytes_eq (i : Instr) :
    encodeBytes i = wordBytes i.firstWord ++ (encode i).tail.flatMap wordBytes := by
  rw [encodeBytes, encode_eq_words]
  cases i.opcode.row.format <;> rfl

theorem length_encodeBytes (i : Instr) : (encodeBytes i).length = i.length := by
  simp [encodeBytes, Instr.length, wordBytes]
  omega

/-- Settles O5: both words of the command are read from ROM, and they select and assemble to the command. -/
theorem fetchFindsTheCommandInRom : Obligations.FetchFindsTheCommandInRom := by
  intro i s hpc h
  have hstands : StandsInRom s.par s.pc (wordBytes i.firstWord ++ (encode i).tail.flatMap wordBytes) := by
    rw [← encodeBytes_eq]
    exact fun k hk => h k (length_encodeBytes i ▸ hk)
  have hrom : s.par.inRom s.pc = true := by
    simpa using (hstands 0 (by simp [wordBytes])).1
  have hfirst : memRead4 s s.pc = some i.firstWord := memRead4_of_standsInRom hpc hstands
  have hrow := findRow_firstWord i
  cases hf : i.opcode.row.format with
  | s =>
    rw [fetch_of_short_row hpc hrom hfirst hrow hf, assemble_firstWord hf]
  | l =>
    have hsecond : StandsInRom s.par (s.pc + 4) (wordBytes i.secondWord ++ []) := by
      rw [encode_eq_words, hf] at hstands
      exact hstands.append_right
    have hpc4 : (s.pc + 4).toNat % 4 = 0 := toNat_add_mod_four hpc rfl
    have hrom4 : s.par.inRom (s.pc + 4) = true := by
      simpa using (hsecond 0 (by simp [wordBytes])).1
    rw [fetch_of_long_row hpc hrom hfirst hrow hf,
      fetchSecond_of_inRom hrom4 (memRead4_of_standsInRom hpc4 hsecond), Opcode.row_op, assemble_words]

/-- Fetching does not look at the schedule. -/
theorem fetch_setSched (s : State) (rest : List Move) : fetch { s with sched := rest } = fetch s := rfl

theorem fgStep_of_run {s : State} (he : fgEnabled s = true) (hm : s.mode = .run) : fgStep s = commandStep s := by
  simp only [fgStep, he, hm, if_true]

theorem step_of_sched {s : State} {m : Move} {rest : List Move} (h : s.sched = m :: rest) :
    step s = perform m { s with sched := rest } := by
  simp only [step, nextStep, h]

theorem step_of_no_sched {s : State} (h : s.sched = []) : step s = eagerStep s := by
  simp only [step, nextStep, h]

/-- FG may step only where no handler is active, so that IRQ has a step only by a dispatch. -/
theorem irqEnabled_of_fgEnabled {s : State} (he : fgEnabled s = true) : irqEnabled s = (lowestPending s).isSome := by
  simp only [fgEnabled, Bool.and_eq_true, decide_eq_true_eq, Bool.not_eq_true'] at he
  obtain ⟨⟨⟨hidle, hh⟩, -⟩, -⟩ := he
  simp [irqEnabled, hidle, hh]

/-- Settles O6: whichever way FG comes to step, its step in RUN is the fetched command. -/
theorem stepRunsTheFetchedCommand : Obligations.StepRunsTheFetchedCommand := by
  refine fun i s hrun hfetch => ⟨fun rest hsched he => ?_, fun hsched he hnone => ?_⟩
  · rw [step_of_sched hsched]
    exact (fgStep_of_run (s := { s with sched := rest }) he hrun).trans
      (commandStep_of_command ((fetch_setSched s rest).trans hfetch))
  · have hirq : irqEnabled s = false := by rw [irqEnabled_of_fgEnabled he, hnone, Option.isSome_none]
    rw [step_of_no_sched hsched, eagerStep, hirq, he]
    exact (fgStep_of_run he hrun).trans (commandStep_of_command hfetch)

end Sys2Proof.Machine

/-! ## Proofs: the queues (40_fifo.md)

A queue that meets the invariants is the list of the bytes it holds: a write appends to that list and a read takes its
head. -/

namespace Sys2Proof.Machine

/-! ### The cursors (R19) -/

section Cursors
variable {n : Nat} {q : Queue}

theorem cursors_of_wf (h : q.wf n) (hcap : q.cap ≠ 0) :
    q.wr < q.cap ∧ q.rd < q.cap ∧ (q.rd + q.cnt) % q.cap = q.wr := by
  obtain ⟨-, -, -, hcursors, -⟩ := h
  exact hcursors (Nat.pos_of_ne_zero hcap)

theorem cap_ne_zero_of_not_full (h : q.wf n) (hfree : q.cnt ≠ q.cap) : q.cap ≠ 0 := by
  obtain ⟨hcnt, -⟩ := h
  omega

theorem cap_ne_zero_of_not_empty (h : q.wf n) (hne : q.cnt ≠ 0) : q.cap ≠ 0 := by
  obtain ⟨hcnt, -⟩ := h
  omega

/-- The positions of the bytes held are not the one the next write goes to. -/
theorem held_ne_wr (h : q.wf n) (hfree : q.cnt ≠ q.cap) {k : Nat} (hk : k < q.cnt) : (q.rd + k) % q.cap ≠ q.wr := by
  have hcnt : q.cnt ≤ q.cap := h.1
  obtain ⟨-, -, hwr⟩ := cursors_of_wf h (cap_ne_zero_of_not_full h hfree)
  intro heq
  have hmod : k ≡ q.cnt [MOD q.cap] := Nat.ModEq.add_left_cancel' q.rd (heq.trans hwr.symm)
  have hkc : k = q.cnt := hmod.eq_of_lt_of_lt (by omega) (by omega)
  omega

end Cursors

/-! ### A write appends, a read takes the oldest byte (R92, R93) -/

section OneByte
variable {n : Nat} {q q1 : Queue} {b : Byte}

theorem fifoWrite_cap (q : Queue) (b : Byte) : (fifoWrite q b).2.cap = q.cap := by
  obtain ⟨-, h⟩ | ⟨-, h⟩ := fifoWrite_cases q b <;> simp [h]

theorem fifoRead_cap (h : fifoRead q = some (b, q1)) : q1.cap = q.cap := by
  obtain ⟨-, hr⟩ | ⟨-, hr⟩ := fifoRead_cases q
  · simp [hr] at h
  · rw [hr] at h
    obtain ⟨-, rfl⟩ := Prod.mk.inj (Option.some.inj h)
    rfl

theorem fifoWrite_keeps_wf (h : q.wf n) (b : Byte) : (fifoWrite q b).2.wf n := by
  obtain ⟨-, hw⟩ | ⟨hfree, hw⟩ := fifoWrite_cases q b
  · rw [hw]
    exact h
  · have hcap := cap_ne_zero_of_not_full h hfree
    obtain ⟨-, hrd, hwr⟩ := cursors_of_wf h hcap
    obtain ⟨hcnt, hmax, hlen, -, -⟩ := h
    rw [hw]
    refine ⟨Nat.lt_of_le_of_ne hcnt hfree, hmax, by simpa using hlen, fun _ => ⟨?_, hrd, ?_⟩, fun h0 => absurd h0 hcap⟩
    · exact Nat.mod_lt _ (Nat.pos_of_ne_zero hcap)
    · rw [← hwr, Nat.mod_add_mod, Nat.add_assoc]

theorem fifoRead_keeps_wf (h : q.wf n) (hread : fifoRead q = some (b, q1)) : q1.wf n := by
  obtain ⟨-, hr⟩ | ⟨hne, hr⟩ := fifoRead_cases q
  · simp [hr] at hread
  · rw [hr] at hread
    obtain ⟨-, rfl⟩ := Prod.mk.inj (Option.some.inj hread)
    have hcap := cap_ne_zero_of_not_empty h hne
    obtain ⟨hwrlt, -, hwr⟩ := cursors_of_wf h hcap
    obtain ⟨hcnt, hmax, hlen, -, -⟩ := h
    refine ⟨by simp only; omega, hmax, hlen, fun _ => ⟨hwrlt, ?_, ?_⟩, fun h0 => absurd h0 hcap⟩
    · exact Nat.mod_lt _ (Nat.pos_of_ne_zero hcap)
    · rw [← hwr, Nat.mod_add_mod]
      congr 1
      simp only
      omega

theorem contents_fifoWrite (h : q.wf n) (hfree : q.cnt ≠ q.cap) (b : Byte) :
    (fifoWrite q b).2.contents = q.contents ++ [b] := by
  obtain ⟨hwrlt, -, hwr⟩ := cursors_of_wf h (cap_ne_zero_of_not_full h hfree)
  have hlen : q.wr < q.buf.length := by
    obtain ⟨-, hmax, hlen, -⟩ := h
    omega
  rw [fifoWrite_of_not_full hfree]
  simp only [Queue.contents, List.range_succ, List.map_append, List.map_cons, List.map_nil, hwr]
  congr 1
  · refine List.map_congr_left fun k hk => ?_
    have hother := held_ne_wr h hfree (List.mem_range.1 hk)
    rw [List.getD_eq_getElem?_getD, List.getD_eq_getElem?_getD, List.getElem?_set_ne hother.symm]
  · rw [List.getD_eq_getElem?_getD, List.getElem?_set_self hlen, Option.getD_some]

theorem contents_of_fifoRead (h : q.wf n) (hread : fifoRead q = some (b, q1)) : q.contents = b :: q1.contents := by
  obtain ⟨-, hr⟩ | ⟨hne, hr⟩ := fifoRead_cases q
  · simp [hr] at hread
  · rw [hr] at hread
    obtain ⟨rfl, rfl⟩ := Prod.mk.inj (Option.some.inj hread)
    obtain ⟨-, hrd, -⟩ := cursors_of_wf h (cap_ne_zero_of_not_empty h hne)
    obtain ⟨c, hc⟩ := Nat.exists_eq_succ_of_ne_zero hne
    simp only [Queue.contents, hc, List.range_succ_eq_map, List.map_cons, List.map_map, Nat.succ_sub_one, Nat.add_zero,
      Nat.mod_eq_of_lt hrd]
    congr 1
    refine List.map_congr_left fun k _ => ?_
    simp only [Function.comp_apply, Nat.mod_add_mod, Nat.succ_eq_add_one]
    congr 2
    omega

theorem exists_fifoRead (h : q.cnt ≠ 0) : ∃ b q1, fifoRead q = some (b, q1) := by
  obtain ⟨h0, -⟩ | ⟨-, hr⟩ := fifoRead_cases q
  · exact absurd h0 h
  · exact ⟨_, _, hr⟩

end OneByte

/-- Settles O15: the four outcomes of a write and a read in terms of the bytes held. -/
theorem queueIsFirstInFirstOut : Obligations.QueueIsFirstInFirstOut := by
  refine fun n q h => ⟨fun b hroom => ?_, fun b hfull => fifoWrite_of_full hfull b, fun hpos => ?_, fifoRead_of_empty⟩
  · have hfree : q.cnt ≠ q.cap := hroom.ne
    exact ⟨by rw [fifoWrite_of_not_full hfree], contents_fifoWrite h hfree b, fifoWrite_keeps_wf h b⟩
  · obtain ⟨b, q1, hread⟩ := exists_fifoRead hpos.ne'
    exact ⟨b, q1, hread, contents_of_fifoRead h hread, fifoRead_keeps_wf h hread⟩

/-! ### Many bytes (R104) -/

theorem length_contents (q : Queue) : q.contents.length = q.cnt := by simp [Queue.contents]

theorem writeAll_of_room {n : Nat} (bs : List Byte) {q : Queue} (h : q.wf n) (hroom : q.cnt + bs.length ≤ q.cap) :
    (q.writeAll bs).wf n ∧ (q.writeAll bs).cap = q.cap ∧ (q.writeAll bs).contents = q.contents ++ bs := by
  induction bs generalizing q with
  | nil => exact ⟨h, rfl, (List.append_nil _).symm⟩
  | cons b bs ih =>
    simp only [List.length_cons] at hroom
    have hfree : q.cnt ≠ q.cap := by omega
    have hcnt : (fifoWrite q b).2.cnt = q.cnt + 1 := by rw [fifoWrite_of_not_full hfree]
    obtain ⟨hwf, hcap, hcontents⟩ := ih (fifoWrite_keeps_wf h b) (by rw [hcnt, fifoWrite_cap]; omega)
    refine ⟨hwf, hcap.trans (fifoWrite_cap q b), hcontents.trans ?_⟩
    rw [contents_fifoWrite h hfree, List.append_assoc, List.singleton_append]

theorem readAll_of_contents {n : Nat} {bs : List Byte} {q : Queue} (h : q.wf n) (hbs : q.contents = bs) :
    ∃ q1, q.readAll bs.length = some (bs, q1) ∧ q1.cnt = 0 ∧ q1.cap = q.cap ∧ q1.wf n := by
  induction bs generalizing q with
  | nil => exact ⟨q, rfl, by rw [← length_contents, hbs, List.length_nil], rfl, h⟩
  | cons b bs ih =>
    have hne : q.cnt ≠ 0 := by simp [← length_contents, hbs]
    obtain ⟨b', q1, hread⟩ := exists_fifoRead hne
    obtain ⟨rfl, hrest⟩ := List.cons.inj (hbs.symm.trans (contents_of_fifoRead h hread))
    obtain ⟨q2, hall, hempty, hcap, hwf⟩ := ih (fifoRead_keeps_wf h hread) hrest.symm
    exact ⟨q2, by simp [Queue.readAll, hread, hall], hempty, hcap.trans (fifoRead_cap hread), hwf⟩

/-- Settles O16: the writes make the bytes held the list, and the reads take it off again. -/
theorem queueRoundTrip : Obligations.QueueRoundTrip := by
  intro n q bs h hempty hroom
  obtain ⟨hwf, hcap, hcontents⟩ := writeAll_of_room bs h (by omega)
  have hnil : q.contents = [] := List.eq_nil_of_length_eq_zero ((length_contents q).trans hempty)
  obtain ⟨q1, hread, hcnt, hcap1, hwf1⟩ := readAll_of_contents hwf (hcontents.trans (by rw [hnil, List.nil_append]))
  exact ⟨q1, hread, hcnt, hcap1.trans hcap, hwf1⟩

end Sys2Proof.Machine

/-! ## Proofs: the frame of the FIFO commands (40_fifo.md)

A FIFO command writes Q[q] and RES and completes: a command that moves bytes may change the queue, a query RES only. -/

namespace Sys2Proof.Machine

/-- What a command does to a queue with storage of `n` bytes: the invariants stay, and it does not get smaller. -/
structure QueueStep (n : Nat) (q x : Queue) : Prop where
  wf : q.wf n → x.wf n
  cap : q.cap ≤ x.cap

theorem QueueStep.refl (n : Nat) (q : Queue) : QueueStep n q q := ⟨id, Nat.le_refl _⟩

theorem queueStep_fifoWrite (n : Nat) (q : Queue) (b : Byte) : QueueStep n q (fifoWrite q b).2 :=
  ⟨fun h => fifoWrite_keeps_wf h b, (fifoWrite_cap q b).ge⟩

theorem queueStep_fifoRead {q q1 : Queue} {b : Byte} (n : Nat) (h : fifoRead q = some (b, q1)) : QueueStep n q q1 :=
  ⟨fun hq => fifoRead_keeps_wf hq h, (fifoRead_cap h).ge⟩

/-- A queue is created over the storage it has (R91). -/
theorem queueStep_create {n cap : Nat} {q : Queue} (hnew : q.cap = 0) (hmax : cap ≤ n) :
    QueueStep n q { q with cap := cap, wr := 0, rd := 0, cnt := 0 } := by
  refine ⟨fun h => ?_, by simp [hnew]⟩
  obtain ⟨-, -, hlen, -, -⟩ := h
  exact ⟨Nat.zero_le _, hmax, hlen, fun hpos => ⟨hpos, hpos, Nat.zero_mod _⟩, fun _ => ⟨rfl, rfl⟩⟩

section Answers
variable (q : QId) (s : State)

theorem exec_fcreate_eq (cap : BitVec 16) :
    ∃ st x, exec (.fcreate q cap) s = .next (complete 4 st (s.setQueue q x)) ∧
      QueueStep s.par.fifoMax (s.queue q) x := by
  have hsame : s.setQueue q (s.queue q) = s := setQueue_queue_self s q
  by_cases hbad : cap.toNat = 0 ∨ s.par.fifoMax < cap.toNat
  · exact ⟨.badcfg, s.queue q, by rw [hsame]; exact execFcreate_of_bad_cap hbad, .refl _ _⟩
  · obtain ⟨hpos, hmax⟩ := not_or.1 hbad
    have hmax := Nat.not_lt.1 hmax
    by_cases hq : (s.queue q).cap = 0
    · exact ⟨.ok, _, execFcreate_of_not_created hpos hmax hq, queueStep_create hq hmax⟩
    · exact ⟨.busy, s.queue q, by rw [hsame]; exact execFcreate_of_created hpos hmax hq, .refl _ _⟩

theorem exec_fwrite_eq (b : Byte) :
    exec (.fwrite q b) s =
      .next (complete 4 (fifoWrite (s.queue q) b).1 (s.setQueue q (fifoWrite (s.queue q) b).2)) := rfl

theorem exec_fread_eq :
    ∃ st v x, exec (.fread q) s = .next (complete 4 st (setRes v (s.setQueue q x))) ∧
      QueueStep s.par.fifoMax (s.queue q) x := by
  cases hread : fifoRead (s.queue q) with
  | none =>
    refine ⟨.empty, s.res, s.queue q, ?_, .refl _ _⟩
    rw [setQueue_queue_self]
    simp [exec, execFread, hread]
    rfl
  | some r =>
    exact ⟨.ok, zextByte r.1, r.2, by simp [exec, execFread, hread], queueStep_fifoRead _ hread⟩

/-- The three queries (R99 to R101). -/
theorem exec_query_eq {i : Instr} (hi : i = .ffull q ∨ i = .fempty q ∨ i = .favail q) :
    ∃ v, exec i s = .next (complete 4 .ok (setRes v s)) := by
  obtain rfl | rfl | rfl := hi <;> exact ⟨_, rfl⟩

/-- A command that moves bytes writes Q[q] and, where it is FREAD, RES. -/
theorem exec_move_eq {cap : BitVec 16} {b : Byte} {i : Instr} (hi : i ∈ [Instr.fcreate q cap, .fwrite q b, .fread q]) :
    ∃ st v x, exec i s = .next (complete 4 st (setRes v (s.setQueue q x))) ∧
      QueueStep s.par.fifoMax (s.queue q) x ∧ (i ≠ .fread q → v = s.res) := by
  have hres (x : Queue) : setRes s.res (s.setQueue q x) = s.setQueue q x := by cases q <;> rfl
  simp only [List.mem_cons, List.not_mem_nil, or_false] at hi
  obtain rfl | rfl | rfl := hi
  · obtain ⟨st, x, hexec, hx⟩ := exec_fcreate_eq q s cap
    exact ⟨st, s.res, x, by rw [hres, hexec], hx, fun _ => rfl⟩
  · exact ⟨_, s.res, _, by rw [hres]; exact exec_fwrite_eq q s b, queueStep_fifoWrite _ _ b, fun _ => rfl⟩
  · obtain ⟨st, v, x, hexec, hx⟩ := exec_fread_eq q s
    exact ⟨st, v, x, hexec, hx, fun h => absurd rfl h⟩

end Answers

/-- Completing after RES and one queue are written changes nothing else. -/
theorem complete_setRes_setQueue_frame {s t : State} {len v : Word} {st : Status} {q : QId} {x : Queue}
    (ht : t = complete len st (setRes v (s.setQueue q x))) :
    t = { s with
      pc := t.pc, stat := t.stat, res := t.res, fg := { s.fg with run := false }, txq := t.txq, rxq := t.rxq } ∧
    (∀ r, r ≠ q → t.queue r = s.queue r) ∧ ∀ a, memRead1 t a = memRead1 s a := by
  subst ht
  refine ⟨?_, fun r hr => queue_setQueue_other s q r x hr, fun a => ?_⟩
  · cases q <;> rfl
  · exact congrFun (memRead1_congr (setQueue_par ..) (setQueue_seed ..) (setQueue_ram ..)) a

/-- Settles O17: a query is a write of RES, the others write Q[q] and, in FREAD's case, RES. -/
theorem fifoCommandsFrame : Obligations.FifoCommandsFrame := by
  intro q cap b s t
  have hquery {i : Instr} (hi : i = .ffull q ∨ i = .fempty q ∨ i = .favail q) (h : exec i s = .next t) :
      ∃ v, t = complete 4 .ok (setRes v (s.setQueue q (s.queue q))) := by
    obtain ⟨v, hexec⟩ := exec_query_eq q s hi
    rw [setQueue_queue_self]
    exact ⟨v, Host.Outcome.next.inj (h.symm.trans hexec)⟩
  refine ⟨fun i hi h => ?_, fun i hi h => ?_, fun i hi h => ?_⟩
  · have hkinds : i ∈ [Instr.fcreate q cap, .fwrite q b, .fread q] ∨
        (i = .ffull q ∨ i = .fempty q ∨ i = .favail q) := by
      simpa [or_assoc] using hi
    obtain hmove | hq := hkinds
    · obtain ⟨st, v, x, hexec, -⟩ := exec_move_eq q s hmove
      exact complete_setRes_setQueue_frame (Host.Outcome.next.inj (h.symm.trans hexec))
    · obtain ⟨v, ht⟩ := hquery hq h
      exact complete_setRes_setQueue_frame ht
  · obtain ⟨v, rfl⟩ := hquery (by simpa using hi) h
    exact queue_setQueue_self s q _
  · obtain ⟨st, v, x, hexec, -, hres⟩ := exec_move_eq q s (cap := cap) (b := b) (List.mem_append_left [.fread q] hi)
    obtain rfl := Host.Outcome.next.inj (h.symm.trans hexec)
    refine hres ?_
    rintro rfl
    simp at hi

end Sys2Proof.Machine

/-! ## Proofs: bounds and frame of the unbuffered path (42_uart_config_unbuffered.md)

What a step of each command can be, said once; the bounds and the frames are read off. -/

namespace Sys2Proof.Machine

/-! ### What a step can be -/

section Answers
variable {s t : State}

/-- CONFIGURE reports, or programs the registers of an Idle machine with legal values. Which, tstate and the parameters
decide. -/
theorem exec_configure_cases (rx tx rts cts sel : Byte) (parity flow : Bool) (s : State) :
    (∃ st, ∀ u : State, u.tstate = s.tstate → u.par = s.par →
      exec (.configure rx tx rts cts sel parity flow) u = .next (complete 8 st u)) ∨
    ∃ baud, s.tstate = .idle ∧ baudOf s.par sel = some baud ∧
      ∀ u : State, u.tstate = s.tstate → u.par = s.par →
        exec (.configure rx tx rts cts sel parity flow) u =
          .next (complete 8 .ok (configureUart rx tx rts cts baud parity flow u)) := by
  cases hstate : s.tstate with
  | transmitting => exact .inl ⟨.busy, fun u hu _ => exec_configure_of_transmitting hu⟩
  | idle =>
    cases hbaud : baudOf s.par sel with
    | none => exact .inl ⟨.badcfg, fun u hu hp => exec_configure_of_no_baud hu (hp ▸ hbaud)⟩
    | some baud =>
      by_cases hpins : (pinOk s.par rx && pinOk s.par tx && pinOk s.par rts && pinOk s.par cts) = true
      · exact .inr ⟨baud, rfl, rfl, fun u hu hp => exec_configure_of_valid hu (hp ▸ hbaud) (hp ▸ hpins)⟩
      · exact .inl ⟨.badcfg, fun u hu hp => exec_configure_of_bad_pin hu (hp ▸ hpins)⟩

/-- PUTC and GETC arm, complete with the byte moved or with TIMEOUT, or take a retry. -/
theorem waitStep_cases {k : Nat} {ready : State} (h : waitStep k ready s = .next t) :
    (s.fg.run = false ∧ t = armWait s) ∨ t = ready ∨ t = complete 4 .timeout s ∨
    (s.fg.w ≠ 0 ∧ t = consumeRetry s) := by
  unfold waitStep at h
  by_cases hrun : s.fg.run = false
  · rw [if_pos hrun] at h
    exact .inl ⟨hrun, (Host.Outcome.next.inj h).symm⟩
  · rw [if_neg hrun] at h
    obtain ⟨-, hp⟩ | ⟨-, -, hp⟩ | ⟨-, hw, hp⟩ := poll_cases k s <;> simp only [hp] at h
    · exact .inr (.inl (Host.Outcome.next.inj h).symm)
    · exact .inr (.inr (.inl (Host.Outcome.next.inj h).symm))
    · exact .inr (.inr (.inr ⟨hw, (Host.Outcome.next.inj h).symm⟩))

/-- What PUTC and GETC complete with where the poll is ready: a byte to TXD, or RXD's byte to RES. -/
def ByteMoved (b : Byte) (i : Instr) (s w : State) : Prop :=
  (i = .putc b ∧ w = txdWrite b (clearEvent bitTxdrdy s)) ∨
  (i = .getc ∧ w = setRes (zextByte s.uart.rxd) (rxdRead (clearEvent bitRxdrdy s)))

theorem exec_wait_cases {b : Byte} {i : Instr} (hi : i = .putc b ∨ i = .getc) (h : exec i s = .next t) :
    (s.fg.run = false ∧ t = armWait s) ∨ (∃ w, ByteMoved b i s w ∧ t = complete 4 .ok w) ∨
    t = complete 4 .timeout s ∨ (s.fg.w ≠ 0 ∧ t = consumeRetry s) := by
  obtain rfl | rfl := hi
  · rw [exec_putc] at h
    exact (waitStep_cases h).imp_right (Or.imp_left fun ht => ⟨_, .inl ⟨rfl, rfl⟩, ht⟩)
  · rw [exec_getc] at h
    exact (waitStep_cases h).imp_right (Or.imp_left fun ht => ⟨_, .inr ⟨rfl, rfl⟩, ht⟩)

/-- A polled byte of PUTS and PUTZ is sent, ends the command, or is tried again. -/
theorem sendUnbufferedByte_cases (b : Byte) (s : State) :
    sendUnbufferedByte b s =
      { txdWrite b (clearEvent bitTxdrdy s) with fg := { s.fg with i := s.fg.i + 1, w := s.par.tBlock } } ∨
    sendUnbufferedByte b s = complete 8 .timeout (setRes (zextNat s.fg.i) s) ∨
    (s.fg.w ≠ 0 ∧ sendUnbufferedByte b s = consumeRetry s) := by
  obtain ⟨-, hp⟩ | ⟨-, -, hp⟩ | ⟨-, hw, hp⟩ := poll_cases bitTxdrdy s <;> simp [sendUnbufferedByte, hp]
  exact .inr (.inr hw)

/-- PUTS and PUTZ arm, complete with a count, fault, or poll for a byte. -/
theorem exec_string_cases {addr : Word} {len : BitVec 16} {i : Instr} (hi : i = .puts addr len ∨ i = .putz addr)
    (h : exec i s = .next t) :
    (s.fg.run = false ∧ t = armBuffer s) ∨ (∃ v, t = complete 8 .ok (setRes v s)) ∨
    t = raiseBusFault (bufAddr addr s.fg.i) s ∨ ∃ b, t = sendUnbufferedByte b s := by
  by_cases hrun : s.fg.run = false
  · obtain rfl | rfl := hi
    · exact .inl ⟨hrun, Host.Outcome.next.inj (h.symm.trans (exec_puts_of_not_run hrun))⟩
    · exact .inl ⟨hrun, Host.Outcome.next.inj (h.symm.trans (exec_putz_of_not_run hrun))⟩
  · have hrun : s.fg.run = true := by simpa using hrun
    refine .inr ?_
    cases hread : memRead1 s (bufAddr addr s.fg.i) with
    | none =>
      obtain rfl | rfl := hi
      · by_cases hlen : s.fg.i = len.toNat
        · exact .inl ⟨_, Host.Outcome.next.inj (h.symm.trans (exec_puts_of_all_sent hrun hlen))⟩
        · exact .inr (.inl (Host.Outcome.next.inj (h.symm.trans (exec_puts_of_unreadable hrun hlen hread))))
      · exact .inr (.inl (Host.Outcome.next.inj (h.symm.trans (exec_putz_of_unreadable hrun hread))))
    | some b =>
      obtain rfl | rfl := hi
      · by_cases hlen : s.fg.i = len.toNat
        · exact .inl ⟨_, Host.Outcome.next.inj (h.symm.trans (exec_puts_of_all_sent hrun hlen))⟩
        · exact .inr (.inr ⟨b, Host.Outcome.next.inj (h.symm.trans (exec_puts_of_byte hrun hlen hread))⟩)
      · by_cases hzero : b = 0x00#8
        · exact .inl ⟨_, Host.Outcome.next.inj (h.symm.trans (exec_putz_of_zero_byte hrun (hzero ▸ hread)))⟩
        · exact .inr (.inr ⟨b, Host.Outcome.next.inj (h.symm.trans (exec_putz_of_byte hrun hread hzero))⟩)

end Answers

/-! ### Idempotence of CONFIGURE (R129) -/

/-- The register writes of CONFIGURE do not depend on what they overwrite, but for EVENTS, where they settle too. -/
theorem configureUart_again (rx tx rts cts : Byte) (baud : Word) (parity flow : Bool) {s t : State}
    (huart : t.uart = (configureUart rx tx rts cts baud parity flow s).uart) (hpar : t.par = s.par) :
    configureUart rx tx rts cts baud parity flow t =
      { t with logs := { t.logs with task := t.logs.task ++ [.startRx, .startTx] } } := by
  have hevents : ∀ e : BitVec 4,
      ((e ||| 0b0001#4) &&& 0b1101#4 ||| 0b0001#4) &&& 0b1101#4 = (e ||| 0b0001#4) &&& 0b1101#4 := by decide
  rw [configureUart_eq] at huart ⊢
  simp only [huart, hpar, hevents]

/-- Settles O23: CONFIGURE keeps tstate and the parameters, which decide its outcome, so both steps take the same
one. -/
theorem configureIsIdempotent : Obligations.ConfigureIsIdempotent := by
  intro rx tx rts cts sel parity flow s t u h1 h2
  obtain ⟨st, hreport⟩ | ⟨baud, -, -, hvalid⟩ := exec_configure_cases rx tx rts cts sel parity flow s
  · obtain rfl := Host.Outcome.next.inj (h1.symm.trans (hreport s rfl rfl))
    obtain rfl := Host.Outcome.next.inj (h2.symm.trans (hreport _ rfl rfl))
    rfl
  · obtain rfl := Host.Outcome.next.inj (h1.symm.trans (hvalid s rfl rfl))
    have hpar : (configureUart rx tx rts cts baud parity flow s).par = s.par := by rw [configureUart_eq]
    have hstate : (configureUart rx tx rts cts baud parity flow s).tstate = s.tstate := by rw [configureUart_eq]
    obtain rfl := Host.Outcome.next.inj (h2.symm.trans (hvalid _ hstate hpar))
    rw [configureUart_again rx tx rts cts baud parity flow (complete_uart ..) hpar]
    rfl

/-! ### The bounds (R124, R130) -/

/-- Settles O28: the outcomes of a step, each with what it leaves of the budget. -/
theorem unbufferedWaitsAreBounded : Obligations.UnbufferedWaitsAreBounded := by
  intro b addr len s t i hi hrun h
  have hretry (hw : s.fg.w ≠ 0) : s.fg.w - 1 < s.fg.w := by omega
  have hkinds : (i = .putc b ∨ i = .getc) ∨ (i = .puts addr len ∨ i = .putz addr) := by
    simpa [or_assoc] using hi
  obtain hwait | hstring := hkinds
  · obtain ⟨hnot, -⟩ | ⟨w, -, rfl⟩ | rfl | ⟨hw, rfl⟩ := exec_wait_cases hwait h
    · simp [hnot] at hrun
    · exact .inl rfl
    · exact .inl rfl
    · exact .inr (.inr (.inl ⟨hrun, rfl, hretry hw⟩))
  · obtain ⟨hnot, -⟩ | ⟨v, rfl⟩ | rfl | ⟨b', rfl⟩ := exec_string_cases hstring h
    · simp [hnot] at hrun
    · exact .inl rfl
    · exact .inr (.inl rfl)
    · obtain hsent | hexpired | ⟨hw, hwait⟩ := sendUnbufferedByte_cases b' s
      · rw [hsent]
        exact .inr (.inr (.inr ⟨hrun, rfl, rfl, by simpa using hstring⟩))
      · rw [hexpired]
        exact .inl rfl
      · rw [hwait]
        exact .inr (.inr (.inl ⟨hrun, rfl, hretry hw⟩))

/-! ### The frame -/

/-- What the commands of this family may write, each in its own measure. -/
structure UnbufferedFrame (s t : State) : Prop where
  rest : t = { s with
    pc := t.pc, stat := t.stat, res := t.res, fg := { s.fg with run := t.fg.run, i := t.fg.i, w := t.fg.w }
    uart := t.uart, logs := t.logs
    irq := { s.irq with pend := t.irq.pend, faultinfo := t.irq.faultinfo } }
  inten : t.uart.inten = s.uart.inten
  errorsrc : t.uart.errorsrc = s.uart.errorsrc
  rxd : t.uart.rxd = s.uart.rxd

theorem configureUart_frame (rx tx rts cts : Byte) (baud : Word) (parity flow : Bool) (len : Word) (st : Status)
    (s : State) : UnbufferedFrame s (complete len st (configureUart rx tx rts cts baud parity flow s)) := by
  rw [configureUart_eq]
  exact ⟨rfl, rfl, rfl, rfl⟩

theorem byteMoved_frame {b : Byte} {i : Instr} {s w : State} (h : ByteMoved b i s w) (len : Word) (st : Status) :
    UnbufferedFrame s (complete len st w) := by
  obtain ⟨-, rfl⟩ | ⟨-, rfl⟩ := h <;> exact ⟨rfl, rfl, rfl, rfl⟩

theorem sendUnbufferedByte_frame (b : Byte) (s : State) : UnbufferedFrame s (sendUnbufferedByte b s) := by
  obtain h | h | ⟨-, h⟩ := sendUnbufferedByte_cases b s <;> rw [h] <;> exact ⟨rfl, rfl, rfl, rfl⟩

theorem UnbufferedFrame.memRead1 {s t : State} (h : UnbufferedFrame s t) (a : Word) : memRead1 t a = memRead1 s a := by
  rw [h.rest]
  rfl

theorem exec_configure_frame {rx tx rts cts sel : Byte} {parity flow : Bool} {s t : State}
    (h : exec (.configure rx tx rts cts sel parity flow) s = .next t) :
    UnbufferedFrame s t ∧ t.irq = s.irq ∧ t.res = s.res := by
  obtain ⟨st, hreport⟩ | ⟨baud, -, -, hvalid⟩ := exec_configure_cases rx tx rts cts sel parity flow s
  · obtain rfl := Host.Outcome.next.inj (h.symm.trans (hreport s rfl rfl))
    exact ⟨⟨rfl, rfl, rfl, rfl⟩, rfl, rfl⟩
  · obtain rfl := Host.Outcome.next.inj (h.symm.trans (hvalid s rfl rfl))
    exact ⟨configureUart_frame .., by rw [configureUart_eq]; rfl, by rw [configureUart_eq]; rfl⟩

theorem exec_wait_frame {b : Byte} {i : Instr} {s t : State} (hi : i = .putc b ∨ i = .getc)
    (h : exec i s = .next t) : UnbufferedFrame s t ∧ t.irq = s.irq ∧ (i = .putc b → t.res = s.res) := by
  obtain ⟨-, rfl⟩ | ⟨w, hw, rfl⟩ | rfl | ⟨-, rfl⟩ := exec_wait_cases hi h
  · exact ⟨⟨rfl, rfl, rfl, rfl⟩, rfl, fun _ => rfl⟩
  · refine ⟨byteMoved_frame hw .., ?_⟩
    obtain ⟨-, rfl⟩ | ⟨rfl, rfl⟩ := hw
    · exact ⟨rfl, fun _ => rfl⟩
    · exact ⟨rfl, nofun⟩
  · exact ⟨⟨rfl, rfl, rfl, rfl⟩, rfl, fun _ => rfl⟩
  · exact ⟨⟨rfl, rfl, rfl, rfl⟩, rfl, fun _ => rfl⟩

theorem exec_string_frame {addr : Word} {len : BitVec 16} {i : Instr} {s t : State}
    (hi : i = .puts addr len ∨ i = .putz addr) (h : exec i s = .next t) : UnbufferedFrame s t := by
  obtain ⟨-, rfl⟩ | ⟨v, rfl⟩ | rfl | ⟨b, rfl⟩ := exec_string_cases hi h
  · exact ⟨rfl, rfl, rfl, rfl⟩
  · exact ⟨rfl, rfl, rfl, rfl⟩
  · exact ⟨rfl, rfl, rfl, rfl⟩
  · exact sendUnbufferedByte_frame b s

/-- Settles O29, command by command. -/
theorem unbufferedCommandsFrame : Obligations.UnbufferedCommandsFrame := by
  intro b rx tx rts cts sel parity flow addr len s t
  refine ⟨fun i hi h => ?_, fun i hi h => ?_, fun i hi h => ?_⟩
  · have hkinds : i = .configure rx tx rts cts sel parity flow ∨ (i = .putc b ∨ i = .getc) ∨
        (i = .puts addr len ∨ i = .putz addr) := by
      simpa [or_assoc] using hi
    have hframe : UnbufferedFrame s t := by
      obtain rfl | hwait | hstring := hkinds
      · exact (exec_configure_frame h).1
      · exact (exec_wait_frame hwait h).1
      · exact exec_string_frame hstring h
    exact ⟨hframe.rest, hframe.inten, hframe.errorsrc, hframe.rxd, hframe.memRead1⟩
  · have hkinds : i = .configure rx tx rts cts sel parity flow ∨ (i = .putc b ∨ i = .getc) := by simpa using hi
    obtain rfl | hwait := hkinds
    · obtain ⟨-, hirq, -⟩ := exec_configure_frame h
      exact hirq
    · obtain ⟨-, hirq, -⟩ := exec_wait_frame hwait h
      exact hirq
  · have hkinds : i = .configure rx tx rts cts sel parity flow ∨ i = .putc b := by simpa using hi
    obtain rfl | rfl := hkinds
    · obtain ⟨-, -, hres⟩ := exec_configure_frame h
      exact hres
    · obtain ⟨-, -, hres⟩ := exec_wait_frame (.inl rfl) h
      exact hres rfl

end Sys2Proof.Machine

/-! ## Proofs: SEND and RECV as a whole (43_uart_buffered.md)

What a step of each can be, said once; then the start of an Idle transmitter, the bound of SEND and the frames. -/

namespace Sys2Proof.Machine

/-! ### What a step can be -/

section Answers
variable {s t : State} {addr : Word} {len : BitVec 16}

/-- SEND's first step (R144): index 0, no carriage return owed, a full budget. -/
def armSend (s : State) : State := { s with fg := { s.fg with run := true, i := 0, cr := false, w := s.par.tSend } }

/-- SEND arms, completes, faults, or makes an admission attempt: for the owed carriage return, or for a byte of the
buffer that is still to come. -/
theorem exec_send_cases (h : exec (.send addr len) s = .next t) :
    (s.fg.run = false ∧ t = armSend s) ∨ t = complete 8 .ok (setRes (zextNat len.toNat) s) ∨
    t = raiseBusFault (bufAddr addr s.fg.i) s ∨
    ∃ b, t = admission b s ∧ (s.fg.cr = true ∨ s.fg.i ≠ len.toNat) := by
  by_cases hrun : s.fg.run = false
  · exact .inl ⟨hrun, Host.Outcome.next.inj (h.symm.trans (exec_send_of_not_run hrun))⟩
  · have hrun : s.fg.run = true := by simpa using hrun
    refine .inr ?_
    by_cases hcr : s.fg.cr = true
    · exact .inr (.inr ⟨_, Host.Outcome.next.inj (h.symm.trans (exec_send_of_carriageReturn_owed hrun hcr)), .inl hcr⟩)
    · have hcr : s.fg.cr = false := by simpa using hcr
      by_cases hi : s.fg.i = len.toNat
      · exact .inl (Host.Outcome.next.inj (h.symm.trans (exec_send_of_all_admitted hrun hcr hi)))
      · cases hread : memRead1 s (bufAddr addr s.fg.i) with
        | none =>
          exact .inr (.inl (Host.Outcome.next.inj (h.symm.trans (exec_send_of_unreadable hrun hcr hi hread))))
        | some b =>
          exact .inr (.inr ⟨b, Host.Outcome.next.inj (h.symm.trans (exec_send_of_byte hrun hcr hi hread)), .inr hi⟩)

/-- RECV arms, completes, faults, or moves the byte read from RXQ to RAM. -/
theorem exec_recv_cases (h : exec (.recv addr len) s = .next t) :
    (s.fg.run = false ∧ t = { s with fg := { s.fg with run := true, i := 0 } }) ∨
    t = complete 8 .ok (setRes (zextNat s.fg.i) s) ∨ t = raiseBusFault (bufAddr addr s.fg.i) s ∨
    ∃ b q, fifoRead s.rxq = some (b, q) ∧ s.par.inRam (bufAddr addr s.fg.i) = true ∧
      t = { s with
        rxq := q, fg := { s.fg with i := s.fg.i + 1 }, ram := s.ram.write none (bufAddr addr s.fg.i).toNat b } := by
  by_cases hrun : s.fg.run = false
  · exact .inl ⟨hrun, Host.Outcome.next.inj (h.symm.trans (exec_recv_of_not_run hrun))⟩
  · have hrun : s.fg.run = true := by simpa using hrun
    refine .inr ?_
    by_cases hdone : s.fg.i = len.toNat ∨ s.rxq.cnt = 0
    · exact .inl (Host.Outcome.next.inj (h.symm.trans (exec_recv_of_done hrun hdone)))
    · obtain ⟨hi, hne⟩ := not_or.1 hdone
      cases hram : s.par.inRam (bufAddr addr s.fg.i) with
      | false =>
        exact .inr (.inl (Host.Outcome.next.inj (h.symm.trans (exec_recv_of_not_inRam hrun hi hne hram))))
      | true =>
        obtain ⟨b, q, hread⟩ := exists_fifoRead hne
        refine .inr (.inr ⟨b, q, hread, rfl, ?_⟩)
        simpa [exec, execRecv, Queue.isEmpty, hrun, hi, hne, hram, critRx_eq, hread, memWrite1_of_inRam] using h.symm

end Answers

/-! ### An Idle transmitter starts (R146) -/

/-- Settles O32: the admitted byte joins the queue's bytes, and the kick takes the oldest of them. -/
theorem sendStartsAnIdleTransmitter : Obligations.SendStartsAnIdleTransmitter := by
  intro addr len s b n hq hrun hcr hi hidle hroom hread
  have hfree : s.txq.cnt ≠ s.txq.cap := hroom.ne
  obtain ⟨b0, q, hkick⟩ := exists_fifoRead_fifoWrite hfree b
  have hcontents : s.txq.contents ++ [b] = b0 :: q.contents := by
    rw [← contents_fifoWrite hq hfree b]
    exact contents_of_fifoRead (fifoWrite_keeps_wf hq b) hkick
  have hexec := exec_send_of_byte hrun hcr hi.ne hread
  rw [admission_of_no_carriageReturn_owed hfree hcr, critTx_of_idle b hidle hkick, kick_eq _ b0 q hkick] at hexec
  refine ⟨_, b0, hexec, rfl, hcontents, rfl, rfl, ?_, ?_⟩
  · rw [getLsbD_setBit]
    simp [bitTxdrdy]
  · rw [getLsbD_setBit]
    simp [bitTxrun]

/-! ### The bound of SEND (R143, R150) -/

/-- One admission less with a fresh budget is less to do, whatever is left of the budget in hand. -/
theorem budget_of_fewer_admissions {m n budget : Nat} (h : m < n) (w : Nat) :
    m * (budget + 1) + budget < n * (budget + 1) + w := by
  have hle : (m + 1) * (budget + 1) ≤ n * (budget + 1) := Nat.mul_le_mul_right _ h
  have hsucc : (m + 1) * (budget + 1) = m * (budget + 1) + (budget + 1) := Nat.succ_mul ..
  omega

/-- Settles O33: a retry lowers the budget of the admission in hand, an admission the number still owed. -/
theorem sendIsBounded : Obligations.SendIsBounded := by
  intro addr len s t hrun hi hw h
  obtain ⟨hnot, -⟩ | rfl | rfl | ⟨b, rfl, hleft⟩ := exec_send_cases h
  · simp [hnot] at hrun
  · exact .inl rfl
  · exact .inr (.inl rfl)
  · obtain ⟨-, -, hadm⟩ | ⟨-, hwait, hadm⟩ | ⟨-, hcr, hadm⟩ | ⟨-, hcr, hadm⟩ := admission_cases b s
    · rw [hadm]
      exact .inl rfl
    · rw [hadm]
      refine .inr (.inr ⟨hrun, hi, by simp only [consumeRetry_fg, consumeRetry_par]; omega, ?_⟩)
      have hless : s.fg.w - 1 < s.fg.w := by omega
      exact Nat.add_lt_add_left hless _
    · rw [hadm]
      refine .inr (.inr ⟨hrun, hi, (critTx_par b s).symm ▸ Nat.le_refl _, ?_⟩)
      simp only [sendMeasure, critTx_par, hcr]
      exact budget_of_fewer_admissions (by simp) s.fg.w
    · have hlt : s.fg.i < len.toNat := by
        obtain hcr' | hne := hleft
        · simp [hcr] at hcr'
        · omega
      rw [hadm]
      refine .inr (.inr ⟨hrun, hlt, (critTx_par b s).symm ▸ Nat.le_refl _, ?_⟩)
      simp only [sendMeasure, critTx_par, hcr]
      refine budget_of_fewer_admissions ?_ s.fg.w
      split <;> simp <;> omega

/-! ### The frames -/

/-- What SEND may write: its own record, the outbound side, and pend and FAULTINFO. -/
def SendFrame (s t : State) : Prop :=
  t = { s with
    pc := t.pc, stat := t.stat, res := t.res
    fg := { s.fg with run := t.fg.run, i := t.fg.i, w := t.fg.w, cr := t.fg.cr }
    txq := t.txq, tstate := t.tstate, logs := t.logs
    uart := { s.uart with inten := t.uart.inten, run := t.uart.run, txd := t.uart.txd }
    irq := { s.irq with pend := t.irq.pend, faultinfo := t.irq.faultinfo } }

theorem admission_frame (b : Byte) (s : State) : SendFrame s (admission b s) := by
  obtain ⟨-, -, h⟩ | ⟨-, -, h⟩ | ⟨-, -, h⟩ | ⟨-, -, h⟩ := admission_cases b s <;> rw [h]
  · rfl
  · rfl
  · rw [critTx_frame]
    rfl
  · rw [critTx_frame]
    rfl

theorem exec_send_frame {addr : Word} {len : BitVec 16} {s t : State} (h : exec (.send addr len) s = .next t) :
    SendFrame s t := by
  obtain ⟨-, rfl⟩ | rfl | rfl | ⟨b, rfl, -⟩ := exec_send_cases h
  · rfl
  · rfl
  · rfl
  · exact admission_frame b s

/-- Settles O35: SEND writes no memory, and RECV's drain one byte of RAM. -/
theorem bufferedCommandsFrame : Obligations.BufferedCommandsFrame := by
  refine fun addr len s t => ⟨fun h => ?_, fun h => ?_⟩
  · have hframe : SendFrame s t := exec_send_frame h
    refine ⟨hframe, fun a => ?_⟩
    rw [hframe]
    rfl
  · obtain ⟨-, rfl⟩ | rfl | rfl | ⟨b, q, -, -, rfl⟩ := exec_recv_cases h
    · exact ⟨rfl, fun _ _ => rfl⟩
    · exact ⟨rfl, fun _ _ => rfl⟩
    · exact ⟨rfl, fun _ _ => rfl⟩
    · refine ⟨rfl, fun a ha => ?_⟩
      refine memRead1_setRam_of_ramByte_eq (s := s) ?_
      rw [ramByte_write, if_neg ha]

end Sys2Proof.Machine

/-! ## Proofs: the agents IRQ, LINE and EXT (44_uart_handler.md, 60_exceptions.md)

What the three share of the state with the foreground they leave alone; one invocation of the UART handler as the
composition of its six micro-steps; what a dispatch enters in a well-formed set; and what still moves once halted. -/

namespace Sys2Proof.Machine

/-! ### The foreground's state -/

/-- The state FG works with that no other agent writes, with the schedule. -/
structure Foreground where
  par : Params
  seed : Nat
  sched : List Move
  pc : Word
  res : Word
  stat : BitVec 4
  sp : Word
  mode : Mode
  fg : Fg
  ram : Memory
  irqen : BitVec 47
  faultinfo : Word

def State.foreground (s : State) : Foreground :=
  { par := s.par, seed := s.seed, sched := s.sched, pc := s.pc, res := s.res, stat := s.stat, sp := s.sp
    mode := s.mode, fg := s.fg, ram := s.ram, irqen := s.irq.irqen, faultinfo := s.irq.faultinfo }

theorem stepHs0_foreground (s : State) : (stepHs0 s).foreground = s.foreground := rfl

theorem stepHs1_foreground (s : State) : (stepHs1 s).foreground = s.foreground := by
  unfold stepHs1
  split
  · obtain ⟨-, hread⟩ | ⟨-, hread⟩ := fifoRead_cases s.txq <;> simp [State.foreground, hread]
  · rfl

theorem stepHs2_foreground (s : State) : (stepHs2 s).foreground = s.foreground := by
  unfold stepHs2
  split
  · cases s.par.echo <;> simp [State.foreground]
  · rfl

theorem stepHs3_foreground (s : State) : (stepHs3 s).foreground = s.foreground := by
  rw [stepHs3_eq]
  rfl

theorem stepHs4_foreground (s : State) : (stepHs4 s).foreground = s.foreground := by
  rw [stepHs4_eq]
  rfl

theorem handlerStep_foreground (s : State) : (handlerStep s).foreground = s.foreground := by
  unfold handlerStep
  cases s.irq.hpc with
  | hs1 => exact stepHs1_foreground s
  | hs2 => exact stepHs2_foreground s
  | hs3 => exact stepHs3_foreground s
  | hs4 => exact stepHs4_foreground s
  | hs0 | hs5 | dh0 | dh1 | ch0 => rfl

theorem takeException_foreground {n : Nat} {s t : State} (h : takeException n s = .next t) :
    t.foreground = s.foreground := by
  obtain ⟨-, ht⟩ | ⟨v, -, ht⟩ := takeException_cases n s
  · cases ht.symm.trans h
  · cases ht.symm.trans h
    rfl

theorem irqStep_foreground {s t : State} (h : irqStep s = .next t) : t.foreground = s.foreground := by
  obtain ⟨-, ⟨-, rfl⟩ | ⟨-, n, -, hn⟩⟩ := irqStep_cases h
  · exact handlerStep_foreground s
  · exact takeException_foreground hn

/-- What LINE may write: four of the UART's registers and the ghost counter. -/
theorem lineEffect_frame (e : LineStep) (s : State) :
    lineEffect e s =
      { s with
        uart :=
          { s.uart with
            events := (lineEffect e s).uart.events, errorsrc := (lineEffect e s).uart.errorsrc
            rxd := (lineEffect e s).uart.rxd, rxdValid := (lineEffect e s).uart.rxdValid }
        logs := { s.logs with txOwed := (lineEffect e s).logs.txOwed } } := by
  cases e with
  | rxOverrun b replace => cases replace <;> rfl
  | txReady | rxArrive b | rxTimeout | lineError k => rfl

theorem perform_foreground {m : Move} {s t : State} (hm : m ≠ .fg) (h : perform m s = .next t) :
    t.foreground = s.foreground := by
  cases m with
  | fg => exact absurd rfl hm
  | irq => exact irqStep_foreground h
  | line e =>
    obtain ⟨-, rfl⟩ := lineStep_cases h
    rw [lineEffect_frame]
    rfl
  | ext n =>
    obtain ⟨-, rfl⟩ := extRequest_cases h
    rfl

/-- Settles O50: the foreground's state is the same record before and after. -/
theorem otherAgentsLeaveTheForeground : Obligations.OtherAgentsLeaveTheForeground := by
  intro m s t hm h
  have hsame := perform_foreground hm h
  exact ⟨congrArg Foreground.pc hsame, congrArg Foreground.res hsame, congrArg Foreground.stat hsame,
    congrArg Foreground.sp hsame, congrArg Foreground.mode hsame, congrArg Foreground.fg hsame,
    congrArg Foreground.ram hsame, congrArg Foreground.irqen hsame, congrArg Foreground.par hsame,
    congrArg Foreground.faultinfo hsame⟩

/-! ### One invocation of the UART handler (R164) -/

theorem iterate_succ {f : State → Answer} {s t : State} (h : f s = .next t) (k : Nat) :
    iterate f (k + 1) s = iterate f k t := by
  simp only [iterate, h]

/-- The six micro-steps one after another. -/
def afterHandler (s : State) : State := stepHs5 (stepHs4 (stepHs3 (stepHs2 (stepHs1 (stepHs0 s)))))

theorem stepHs0_irq (s : State) : (stepHs0 s).irq = { s.irq with snap := s.uart.events, hpc := .hs1 } := rfl

theorem stepHs3_irq (s : State) : (stepHs3 s).irq = { s.irq with hpc := .hs4 } := by rw [stepHs3_eq]

theorem stepHs4_irq (s : State) : (stepHs4 s).irq = { s.irq with hpc := .hs5 } := by rw [stepHs4_eq]

/-- Where only snap and hpc have changed since the handler was entered, IRQ's step is the micro-step hpc names. -/
theorem irqStep_of_irq {s u : State} {snap : BitVec 4} {h : Hpc} (ha : s.irq.active ≠ 0) (hh : s.irq.halted = false)
    (hirq : u.irq = { s.irq with snap := snap, hpc := h }) : irqStep u = .next (handlerStep u) :=
  irqStep_active (by rw [hirq]; exact ha) (by rw [hirq]; exact hh)

theorem iterate_irqStep_of_hs0 {s : State} (ha : s.irq.active ≠ 0) (hh : s.irq.halted = false)
    (hpc : s.irq.hpc = .hs0) : iterate irqStep 6 s = .next (afterHandler s) := by
  have i1 := stepHs0_irq s
  have i2 := (stepHs1_irq (stepHs0 s)).trans (by rw [i1])
  have i3 := (stepHs2_irq (stepHs1 (stepHs0 s))).trans (by rw [i2])
  have i4 := (stepHs3_irq (stepHs2 (stepHs1 (stepHs0 s)))).trans (by rw [i3])
  have i5 := (stepHs4_irq (stepHs3 (stepHs2 (stepHs1 (stepHs0 s))))).trans (by rw [i4])
  have h0 := irqStep_active ha hh
  rw [handlerStep, hpc] at h0
  have h1 := irqStep_of_irq ha hh i1
  rw [handlerStep, i1] at h1
  have h2 := irqStep_of_irq ha hh i2
  rw [handlerStep, i2] at h2
  have h3 := irqStep_of_irq ha hh i3
  rw [handlerStep, i3] at h3
  have h4 := irqStep_of_irq ha hh i4
  rw [handlerStep, i4] at h4
  have h5 := irqStep_of_irq ha hh i5
  rw [handlerStep, i5] at h5
  rw [iterate_succ h0, iterate_succ h1, iterate_succ h2, iterate_succ h3, iterate_succ h4, iterate_succ h5, iterate,
    afterHandler]

theorem afterHandler_foreground (s : State) : (afterHandler s).foreground = s.foreground := by
  calc (afterHandler s).foreground
    _ = (stepHs4 (stepHs3 (stepHs2 (stepHs1 (stepHs0 s))))).foreground := rfl
    _ = s.foreground := by
      rw [stepHs4_foreground, stepHs3_foreground, stepHs2_foreground, stepHs1_foreground, stepHs0_foreground]

theorem afterHandler_irq (s : State) :
    (afterHandler s).irq = { s.irq with snap := s.uart.events, hpc := .hs5, active := 0 } := by
  rw [afterHandler, stepHs5, returnFromHandler_irq, stepHs4_irq, stepHs3_irq, stepHs2_irq, stepHs1_irq, stepHs0_irq]

/-- What the handler leaves of the registers no event clears: ERRORSRC, and INTEN but for TXDRDY's bit. -/
def unclearedRegisters (s : State) : BitVec 4 × BitVec 3 := (s.uart.inten &&& 0b1110#4, s.uart.errorsrc)

theorem stepHs1_unclearedRegisters (s : State) : unclearedRegisters (stepHs1 s) = unclearedRegisters s := by
  have hmask : ∀ v : BitVec 4, writeBit v bitTxdrdy false &&& 0b1110#4 = v &&& 0b1110#4 := by decide
  unfold stepHs1
  split
  · obtain ⟨-, hread⟩ | ⟨-, hread⟩ := fifoRead_cases s.txq <;> simp [unclearedRegisters, hread, hmask]
  · simp [unclearedRegisters]

theorem stepHs2_unclearedRegisters (s : State) : unclearedRegisters (stepHs2 s) = unclearedRegisters s := by
  unfold stepHs2
  split
  · cases s.par.echo <;> simp [unclearedRegisters]
  · rfl

theorem afterHandler_unclearedRegisters (s : State) :
    unclearedRegisters (afterHandler s) = unclearedRegisters s := by
  have h34 : unclearedRegisters (afterHandler s) = unclearedRegisters (stepHs2 (stepHs1 (stepHs0 s))) := by
    rw [afterHandler, stepHs4_eq, stepHs3_eq]
    rfl
  rw [h34, stepHs2_unclearedRegisters, stepHs1_unclearedRegisters]
  rfl

/-- Settles O38: the six steps are the six micro-steps, none of which writes the foreground's state. -/
theorem handlerReturnsInSixSteps : Obligations.HandlerReturnsInSixSteps := by
  intro s ha hh hpc
  have hfg := afterHandler_foreground s
  have hirq := afterHandler_irq s
  obtain ⟨hinten, herrorsrc⟩ := Prod.mk.inj (afterHandler_unclearedRegisters s)
  refine ⟨_, iterate_irqStep_of_hs0 ha hh hpc, by rw [hirq], by rw [hirq]; exact hh, congrArg Foreground.pc hfg,
    congrArg Foreground.res hfg, congrArg Foreground.stat hfg, congrArg Foreground.sp hfg, congrArg Foreground.fg hfg,
    congrArg Foreground.mode hfg, congrArg Foreground.ram hfg, by rw [hirq], congrArg Foreground.irqen hfg, hinten,
    herrorsrc, by rw [hirq]⟩

/-! ### Receive backpressure (R167, R173) -/

/-- The receiving side: RXQ, RXD with its hidden bit, and RXDRDY with its enable. -/
def receiveSide (s : State) : Queue × Byte × Bool × Bool × Bool :=
  (s.rxq, s.uart.rxd, s.uart.rxdValid, s.uart.events.getLsbD 1, s.uart.inten.getLsbD 1)

theorem stepHs1_receiveSide (s : State) : receiveSide (stepHs1 s) = receiveSide s := by
  have hclear : ∀ v : BitVec 4, (clearBit v bitTxdrdy).getLsbD 1 = v.getLsbD 1 := by decide
  unfold stepHs1
  split
  · obtain ⟨-, hread⟩ | ⟨-, hread⟩ := fifoRead_cases s.txq <;>
      simp only [receiveSide, hread, setHpc_rxq, setHpc_uart, clearEvent_rxq, clearEvent_uart, txdWrite_rxq,
        txdWrite_uart, setTxInterrupt_rxq, setTxInterrupt_uart, issueTask_rxq, issueTask_uart, writeBit, hclear,
        Bool.false_eq_true, if_false]
  · rfl

theorem stepHs2_receiveSide_of_full {s : State} (h : s.rxq.cnt = s.rxq.cap) :
    receiveSide (stepHs2 s) = receiveSide s := by
  rw [stepHs2_of_not_taken (.inr h)]
  rfl

theorem stepHs3_receiveSide (s : State) : receiveSide (stepHs3 s) = receiveSide s := by
  have hclear : ∀ v : BitVec 4, (v &&& 0b1011#4).getLsbD 1 = v.getLsbD 1 := by decide
  rw [stepHs3_eq]
  split <;> simp only [receiveSide, hclear]

theorem stepHs4_receiveSide (s : State) : receiveSide (stepHs4 s) = receiveSide s := by
  have hclear : ∀ v : BitVec 4, (v &&& 0b0111#4).getLsbD 1 = v.getLsbD 1 := by decide
  rw [stepHs4_eq]
  split <;> simp only [receiveSide, hclear]

theorem afterHandler_receiveSide_of_full {s : State} (h : s.rxq.cnt = s.rxq.cap) :
    receiveSide (afterHandler s) = receiveSide s := by
  have h1 : receiveSide (stepHs1 (stepHs0 s)) = receiveSide s := stepHs1_receiveSide _
  have hrxq : (stepHs1 (stepHs0 s)).rxq = s.rxq := congrArg Prod.fst h1
  have hfull : (stepHs1 (stepHs0 s)).rxq.cnt = (stepHs1 (stepHs0 s)).rxq.cap := by rw [hrxq, h]
  calc receiveSide (afterHandler s)
    _ = receiveSide (stepHs4 (stepHs3 (stepHs2 (stepHs1 (stepHs0 s))))) := rfl
    _ = receiveSide (stepHs1 (stepHs0 s)) := by
      rw [stepHs4_receiveSide, stepHs3_receiveSide, stepHs2_receiveSide_of_full hfull]
    _ = receiveSide s := h1

/-- An event that is set and enabled requests the UART line (R195). -/
theorem requested_uart_of_bit {s : State} {k : Nat} (he : s.uart.events.getLsbD k = true)
    (hi : s.uart.inten.getLsbD k = true) : requested s excUart0 = true := by
  have hbit : (s.uart.events &&& s.uart.inten).getLsbD k = true := by rw [BitVec.getLsbD_and, he, hi, Bool.and_self]
  have hne : s.uart.events &&& s.uart.inten ≠ 0 := by
    intro h
    simp [h] at hbit
  rw [requested, if_pos rfl, decide_eq_true hne]

/-- Settles O39: with RXQ full no micro-step touches the receiving side, so that its request stands. -/
theorem fullInboundQueueKeepsTheByte : Obligations.FullInboundQueueKeepsTheByte := by
  intro s ha hh hpc hfull
  have hside := afterHandler_receiveSide_of_full hfull
  simp only [receiveSide, Prod.mk.injEq] at hside
  obtain ⟨hrxq, hrxd, hvalid, hevent, hinten⟩ := hside
  exact ⟨_, iterate_irqStep_of_hs0 ha hh hpc, hrxq, hrxd, hvalid, hevent,
    fun he hi => requested_uart_of_bit (hevent.trans he) (hinten.trans hi)⟩

/-! ### Dispatch in a well-formed set (R191, R192, R200) -/

/-- Only slots with a pend bit and the UART's are requested. -/
theorem hasPend_or_uart_of_requested {s : State} {n : Nat} (h : requested s n = true) :
    hasPend n = true ∨ n = excUart0 := by
  by_cases hn : n = excUart0
  · exact .inr hn
  · simp only [requested, hn, if_false, Bool.and_eq_true] at h
    exact .inl h.1

theorem two_le_of_requested {s : State} {n : Nat} (h : requested s n = true) : 2 ≤ n := by
  obtain hpend | rfl := hasPend_or_uart_of_requested h
  · exact ((hasPend_iff n).1 hpend).1
  · decide

/-- The first micro-step of the engine a binding stands for; a reserved slot is never entered. -/
def entryOf : Binding → Hpc
  | .uart0 => .hs0
  | .defaultHandler => .dh0
  | .custom _ => .ch0
  | .reserved => .ch0

section WellFormed
variable {p : Params} {n : Nat}

/-- The three addresses are distinct and a CUSTOM address is none of them, so that a slot's word tells its engine. -/
theorem engineEntry_bindingWord (h : p.wf = true) (hlow : 2 ≤ n) (hhigh : n < slotCount) :
    engineEntry p (p.bindingWord (p.binding n)) = entryOf (p.binding n) := by
  obtain ⟨haddrs, -⟩ := bindChecks_of_wf h
  simp only [Params.addrsOk, Bool.and_eq_true, decide_eq_true_eq] at haddrs
  obtain ⟨⟨⟨⟨⟨-, -⟩, hdiffer⟩, -⟩, hdefault⟩, huart⟩ := haddrs
  have hok := slotBindingOk_of_wf h hlow hhigh
  cases hb : p.binding n with
  | uart0 => simp [engineEntry, Params.bindingWord, entryOf]
  | defaultHandler => simp [engineEntry, Params.bindingWord, entryOf, hdiffer]
  | reserved => exact (if_neg huart.symm).trans (if_neg hdefault.symm)
  | custom a =>
    simp only [Params.slotBindingOk, hb, Bool.and_eq_true, decide_eq_true_eq] at hok
    obtain ⟨⟨⟨⟨-, -⟩, -⟩, hnotDefault⟩, hnotUart⟩ := hok
    simp [engineEntry, Params.bindingWord, entryOf, hnotDefault, hnotUart]

theorem isReservedSlot_of_binding (hok : p.slotBindingOk n = true) (hb : p.binding n = .reserved) :
    isReservedSlot n = true := by
  simpa [Params.slotBindingOk, hb] using hok

theorem eq_uart_of_binding (hok : p.slotBindingOk n = true) (hb : p.binding n = .uart0) : n = excUart0 := by
  simpa [Params.slotBindingOk, hb] using hok

theorem not_reserved_of_requested {s : State} (h : requested s n = true) : isReservedSlot n = false := by
  obtain hpend | rfl := hasPend_or_uart_of_requested h
  · obtain ⟨-, -, hres, -⟩ := (hasPend_iff n).1 hpend
    exact hres
  · decide

end WellFormed

/-- In a well-formed set taking a requested exception never fails, and enters the engine its slot is bound to. -/
theorem takeException_of_wf {s : State} {n : Nat} (h : s.par.wf = true) (hreq : requested s n = true) :
    takeException n s =
      .next
        { s with
          irq :=
            { s.irq with
              active := BitVec.ofNat 6 n
              pend := if n = excUart0 then s.irq.pend else clearBit s.irq.pend n
              hpc := entryOf (s.par.binding n) } } := by
  have hlow := two_le_of_requested hreq
  have hhigh := requested_lt hreq
  rw [takeException, vectorFetch_of_binding h hlow hhigh rfl]
  simp only [engineEntry_bindingWord h hlow hhigh]

theorem toNat_active_of_requested {s : State} {n : Nat} (h : requested s n = true) :
    (BitVec.ofNat 6 n).toNat = n := by
  have hlt : n < 47 := requested_lt h
  rw [BitVec.toNat_ofNat]
  omega

/-- Settles O44: the entry of the slot's binding, which the parameter checks tie to the slot. -/
theorem dispatchEntersTheBoundEngine : Obligations.DispatchEntersTheBoundEngine := by
  intro n s h hdisp
  obtain ⟨-, -, hlowest⟩ := (dispatchable_iff s n).1 hdisp
  obtain ⟨hreq, -, -⟩ := (lowestPending_eq_some s n).1 hlowest
  have hok := slotBindingOk_of_wf h (two_le_of_requested hreq) (requested_lt hreq)
  refine ⟨_, (irqStep_of_dispatchable hdisp).trans (takeException_of_wf h hreq), toNat_active_of_requested hreq, ?_⟩
  cases hb : s.par.binding n with
  | uart0 => exact ⟨eq_uart_of_binding hok hb, rfl⟩
  | defaultHandler => rfl
  | custom a => rfl
  | reserved =>
    have hres := isReservedSlot_of_binding hok hb
    simp [not_reserved_of_requested hreq] at hres

/-! ### Halted (R203) -/

/-- A step of any agent in a halted block is one of LINE or EXT. -/
theorem perform_halted_frame {m : Move} {s t : State} (hh : s.irq.halted = true) (h : perform m s = .next t) :
    t = { s with
      uart :=
        { s.uart with
          events := t.uart.events, errorsrc := t.uart.errorsrc, rxd := t.uart.rxd, rxdValid := t.uart.rxdValid }
      irq := { s.irq with pend := t.irq.pend }
      logs := { s.logs with txOwed := t.logs.txOwed } } := by
  cases m with
  | fg => exact absurd h (fgStep_ne_next (fgEnabled_of_halted hh) t)
  | irq =>
    obtain ⟨hrunning, -⟩ := irqStep_cases h
    simp [hrunning] at hh
  | line e =>
    obtain ⟨-, rfl⟩ := lineStep_cases h
    have hframe := lineEffect_frame e s
    rw [hframe]
  | ext n =>
    obtain ⟨-, rfl⟩ := extRequest_cases h
    rfl

/-- Settles O47: idling, or a step of LINE or EXT. -/
theorem haltIsForEver : Obligations.HaltIsForEver := by
  intro s t hh h
  obtain ⟨-, rfl⟩ | ⟨-, m, hm⟩ | ⟨m, rest, -, hm⟩ := step_cases h
  · rfl
  · have hframe := perform_halted_frame hh hm
    rw [hframe]
  · have hframe := perform_halted_frame (s := { s with sched := rest }) hh hm
    rw [hframe]

end Sys2Proof.Machine

/-! ## Proofs: what every step keeps

The clauses of the invariant that each update of the state keeps for itself, whoever makes it, are gathered in one
relation `Keeps`: an update of one part of the state is in it under a condition on that part, it composes, and so every
step of every agent is in it. -/

namespace Sys2Proof.Machine

/-! ### The clauses, and the relation -/

/-- rxd_valid is RXDRDY (R182). -/
def RxdLegal (s : State) : Prop := s.uart.rxdValid = s.event bitRxdrdy

/-- Only existing pend bits are set (R33). -/
def PendLegal (v : BitVec 47) : Prop := ∀ n < slotCount, v.getLsbD n = true → hasPend n = true

/-- Only existing enable bits are set (R34). -/
def IrqenLegal (v : BitVec 47) : Prop := ∀ n < slotCount, v.getLsbD n = true → hasIrqen n = true

/-- The budget left is at most the larger budget. -/
def BudgetLegal (p : Params) (w : Nat) : Prop := w ≤ max p.tBlock p.tSend

/-- Transmitting means started and created (R142, R166). -/
def TransmitLegal (s : State) : Prop :=
  s.tstate = .transmitting → s.uart.run.getLsbD bitTxrun = true ∧ 1 ≤ s.txq.cap

/-- EN and RXRUN go together (R30, R31). -/
def EnableLegal (u : Uart) : Prop := u.enable.getLsbD bitEn = u.run.getLsbD bitRxrun

/-- Once enabled, the selections and the rate are legal (R27, R28). -/
def ConfigLegal (p : Params) (u : Uart) : Prop :=
  u.enable.getLsbD bitEn = true →
    pselLegal p u.pselrxd ∧ pselLegal p u.pseltxd ∧ pselLegal p u.pselrts ∧ pselLegal p u.pselcts ∧
    u.baudrate ∈ p.baudTable.map Prod.snd

/-- TXD holds the last byte of tx_log (R162). -/
def TxdLegal (s : State) : Prop := s.logs.tx = [] ∨ s.logs.tx.getLast? = some s.uart.txd

/-- From `s` to `t` nothing fixed has changed and every clause above that held still holds. -/
structure Keeps (s t : State) : Prop where
  par : t.par = s.par
  seed : t.seed = s.seed
  sched : t.sched = s.sched
  sp : t.sp = s.sp
  ram : s.ramWf → t.ramWf
  txq : s.txq.wf s.par.fifoMax → t.txq.wf t.par.fifoMax
  rxq : s.rxq.wf s.par.fifoMax → t.rxq.wf t.par.fifoMax
  rxd : RxdLegal s → RxdLegal t
  pend : s.par.wf = true → PendLegal s.irq.pend → PendLegal t.irq.pend
  irqen : IrqenLegal s.irq.irqen → IrqenLegal t.irq.irqen
  stat : s.stat.toNat ≤ 5 → t.stat.toNat ≤ 5
  budget : BudgetLegal s.par s.fg.w → BudgetLegal t.par t.fg.w
  transmit : s.txq.wf s.par.fifoMax → TransmitLegal s → TransmitLegal t
  enable : EnableLegal s.uart → EnableLegal t.uart
  config : ConfigLegal s.par s.uart → ConfigLegal t.par t.uart
  txd : TxdLegal s → TxdLegal t

theorem Keeps.refl (s : State) : Keeps s s :=
  { par := rfl, seed := rfl, sched := rfl, sp := rfl, ram := id, txq := id, rxq := id, rxd := id, pend := fun _ => id
    irqen := id, stat := id, budget := id, transmit := fun _ => id, enable := id, config := id, txd := id }

theorem Keeps.trans {s t u : State} (h1 : Keeps s t) (h2 : Keeps t u) : Keeps s u :=
  { par := h2.par.trans h1.par
    seed := h2.seed.trans h1.seed
    sched := h2.sched.trans h1.sched
    sp := h2.sp.trans h1.sp
    ram := h2.ram ∘ h1.ram
    txq := h2.txq ∘ h1.txq
    rxq := h2.rxq ∘ h1.rxq
    rxd := h2.rxd ∘ h1.rxd
    pend := fun hwf h => h2.pend (h1.par.symm ▸ hwf) (h1.pend hwf h)
    irqen := h2.irqen ∘ h1.irqen
    stat := h2.stat ∘ h1.stat
    budget := h2.budget ∘ h1.budget
    transmit := fun hq h => h2.transmit (h1.txq hq) (h1.transmit hq h)
    enable := h2.enable ∘ h1.enable
    config := h2.config ∘ h1.config
    txd := h2.txd ∘ h1.txd }

/-! ### The updates of one part of the state -/

theorem toNat_code_le (st : Status) : st.code.toNat ≤ 5 := by
  cases st <;> decide

theorem pendLegal_setBit {v : BitVec 47} {k : Nat} (hk : hasPend k = true) (h : PendLegal v) :
    PendLegal (setBit v k) := by
  intro n hn hbit
  rw [getLsbD_setBit] at hbit
  by_cases hkn : k = n
  · exact hkn ▸ hk
  · exact h n hn (by simpa [hkn] using hbit)

theorem pendLegal_clearBit {v : BitVec 47} (k : Nat) (h : PendLegal v) : PendLegal (clearBit v k) := by
  intro n hn hbit
  rw [getLsbD_clearBit, Bool.and_eq_true] at hbit
  exact h n hn hbit.1

theorem irqenLegal_writeBit {v : BitVec 47} {k : Nat} {b : Bool} (hk : hasIrqen k = true) (h : IrqenLegal v) :
    IrqenLegal (writeBit v k b) := by
  intro n hn hbit
  by_cases hkn : k = n
  · exact hkn ▸ hk
  · rw [getLsbD_writeBit, if_neg (fun hand => hkn hand.1)] at hbit
    exact h n hn hbit

section Updates
variable (s : State)

theorem keeps_complete (len : Word) (st : Status) : Keeps s (complete len st s) :=
  { Keeps.refl s with stat := fun _ => toNat_code_le st }

theorem keeps_setRes (v : Word) : Keeps s (setRes v s) := { Keeps.refl s with }

theorem keeps_setFg {f : Fg} (h : BudgetLegal s.par s.fg.w → BudgetLegal s.par f.w) : Keeps s { s with fg := f } :=
  { Keeps.refl s with budget := h }

theorem keeps_setIrq {x : Irq} (hpend : s.par.wf = true → PendLegal s.irq.pend → PendLegal x.pend)
    (hirqen : IrqenLegal s.irq.irqen → IrqenLegal x.irqen) : Keeps s { s with irq := x } :=
  { Keeps.refl s with pend := hpend, irqen := hirqen }

theorem keeps_setHpc (h : Hpc) : Keeps s (setHpc h s) := keeps_setIrq s (fun _ => id) id

theorem keeps_setQueue {q : QId} {x : Queue} (h : QueueStep s.par.fifoMax (s.queue q) x) :
    Keeps s (s.setQueue q x) := by
  cases q with
  | txq =>
    refine { Keeps.refl s with txq := h.wf, transmit := fun _ ht hstate => ?_ }
    obtain ⟨hrun, hcap⟩ := ht hstate
    exact ⟨hrun, hcap.trans h.cap⟩
  | rxq => exact { Keeps.refl s with rxq := h.wf }

theorem keeps_writeRam {a : Word} (h : s.par.inRam a = true) (b : Byte) :
    Keeps s { s with ram := s.ram.write none a.toNat b } := by
  refine { Keeps.refl s with ram := fun ⟨hwf, hin⟩ => ⟨write_keeps_wf none s.ram _ b hwf, fun c hc => ?_⟩ }
  obtain rfl | hc := mem_put s.ram a.toNat b c hc
  · simpa [Params.inRam] using h
  · exact hin c hc

/-- Registers that no clause but RXDRDY's speaks of. -/
theorem keeps_setUart {events inten : BitVec 4} {errorsrc : BitVec 3} {rxd : Byte} {valid : Bool}
    (h : RxdLegal s → valid = events.getLsbD bitRxdrdy) :
    Keeps s { s with
      uart := { s.uart with events := events, inten := inten, errorsrc := errorsrc, rxd := rxd, rxdValid := valid } } :=
  { Keeps.refl s with rxd := h }

theorem keeps_setLogs {task : List Task} {owed : Nat} :
    Keeps s { s with logs := { s.logs with task := task, txOwed := owed } } :=
  { Keeps.refl s with }

theorem keeps_txdWrite (b : Byte) : Keeps s (txdWrite b s) :=
  { Keeps.refl s with txd := fun _ => .inr List.getLast?_concat }

/-- An event other than RXDRDY. -/
theorem keeps_clearEvent {k : Nat} (hk : k ≠ bitRxdrdy) : Keeps s (clearEvent k s) :=
  keeps_setUart s fun h => by rw [h, getLsbD_clearBit, State.event]; simp [hk]

theorem keeps_setEvent {k : Nat} (hk : k ≠ bitRxdrdy) : Keeps s (setEvent k s) :=
  keeps_setUart s fun h => by rw [h, getLsbD_setBit, State.event]; simp [hk]

/-- RXDRDY is cleared together with rxd_valid. -/
theorem keeps_rxdRead_clearEvent : Keeps s (rxdRead (clearEvent bitRxdrdy s)) :=
  keeps_setUart s fun _ => by simp [getLsbD_clearBit]

theorem keeps_raiseBusFault (a : Word) : Keeps s (raiseBusFault a s) :=
  keeps_setIrq s (fun _ => pendLegal_setBit (by decide)) id

theorem keeps_raiseUsageFault (w : Word) : Keeps s (raiseUsageFault w s) :=
  keeps_setIrq s (fun _ => pendLegal_setBit (by decide)) id

theorem keeps_setIrqen {n : Nat} (hn : hasIrqen n = true) (b : Bool) : Keeps s (setIrqen n b s) :=
  keeps_setIrq s (fun _ => id) (irqenLegal_writeBit hn)

theorem keeps_consumeRetry : Keeps s (consumeRetry s) :=
  keeps_setFg s fun h => (Nat.sub_le s.fg.w 1).trans h

end Updates

/-! ### CONFIGURE, the kick and the critical section -/

theorem pselLegal_psel (p : Params) (pin : Byte) : pselLegal p (psel p pin) := by
  unfold psel
  split
  · rename_i h
    exact .inl (by rwa [zextByte, BitVec.toNat_setWidth_of_le (by decide)])
  · exact .inr rfl

theorem mem_of_baudOf {p : Params} {sel : Byte} {baud : Word} (h : baudOf p sel = some baud) :
    baud ∈ p.baudTable.map Prod.snd := by
  obtain ⟨e, he, rfl⟩ := Option.map_eq_some_iff.1 h
  exact List.mem_map_of_mem (List.mem_of_find?_eq_some he)

theorem keeps_configureUart {rx tx rts cts sel : Byte} {baud : Word} {parity flow : Bool} {s : State}
    (hbaud : baudOf s.par sel = some baud) : Keeps s (configureUart rx tx rts cts baud parity flow s) := by
  have hevents : ∀ e : BitVec 4, false = ((e ||| 0b0001#4) &&& 0b1101#4).getLsbD 1 := by decide
  have henable : (1#1).getLsbD bitEn = (0b11#2).getLsbD bitRxrun := by decide
  have htxrun : (0b11#2).getLsbD bitTxrun = true := by decide
  rw [configureUart_eq]
  refine { Keeps.refl s with
    rxd := fun _ => hevents s.uart.events, transmit := fun _ h hstate => ?_, enable := fun _ => henable
    config := fun _ _ => ?_ }
  · obtain ⟨-, hcap⟩ := h hstate
    exact ⟨htxrun, hcap⟩
  · exact ⟨pselLegal_psel .., pselLegal_psel .., pselLegal_psel .., pselLegal_psel .., mem_of_baudOf hbaud⟩

/-- The start of the transmitter with a byte taken from a created TXQ. -/
theorem keeps_kick {s : State} {b0 : Byte} {q : Queue} (hread : fifoRead s.txq = some (b0, q)) : Keeps s (kick s) := by
  have hq := queueStep_fifoRead s.par.fifoMax hread
  have hne : s.txq.cnt ≠ 0 := fun h => by simp [fifoRead_of_empty h] at hread
  rw [kick_eq s b0 q hread]
  refine { Keeps.refl s with
    txq := hq.wf, transmit := fun hwf _ _ => ⟨?_, ?_⟩, enable := fun h => ?_
    txd := fun _ => .inr List.getLast?_concat }
  · simp [getLsbD_setBit, bitTxrun]
  · exact Nat.le_trans (Nat.pos_of_ne_zero (cap_ne_zero_of_not_empty hwf hne)) hq.cap
  · have hbit : (setBit s.uart.run bitTxrun).getLsbD bitRxrun = s.uart.run.getLsbD bitRxrun := by
      rw [getLsbD_setBit]
      simp [bitTxrun, bitRxrun]
    exact h.trans hbit.symm

theorem keeps_critTx {s : State} (hfree : s.txq.cnt ≠ s.txq.cap) (b : Byte) : Keeps s (critTx b s) := by
  have hwrite : Keeps s (s.setQueue .txq (fifoWrite s.txq b).2) := keeps_setQueue s (queueStep_fifoWrite _ _ b)
  cases hstate : s.tstate with
  | transmitting =>
    rw [critTx_of_transmitting b hstate]
    exact hwrite
  | idle =>
    obtain ⟨b0, q, hread⟩ := exists_fifoRead_fifoWrite hfree b
    rw [critTx_of_idle b hstate hread]
    exact hwrite.trans (keeps_kick (s := s.setQueue .txq (fifoWrite s.txq b).2) hread)

/-! ### The step of a command -/

/-- The sequencing state: where FG is, how far the initializer has come, and which handler runs. -/
structure Control where
  pc : Word
  mode : Mode
  src : Word
  dst : Word
  active : BitVec 6
  hpc : Hpc
  halted : Bool

def State.control (s : State) : Control :=
  { pc := s.pc, mode := s.mode, src := s.fg.src, dst := s.fg.dst, active := s.irq.active, hpc := s.irq.hpc
    halted := s.irq.halted }

/-- What command `i` does to the state before it completes: no sequencing, and a command of one step arms nothing. -/
structure Works (i : Instr) (s w : State) : Prop extends Keeps s w where
  control : w.control = s.control
  run : w.fg.run = true → s.fg.run = true ∨ multiStep i = true

/-- A step of command `i` works on the state and may then complete. -/
def Performs (i : Instr) (s t : State) : Prop :=
  ∃ w, Works i s w ∧ (t = w ∨ ∃ len st, len.toNat % 4 = 0 ∧ t = complete len st w)

section Performs
variable {i : Instr} {s w : State}

theorem performs_unfinished (hk : Keeps s w) (hc : w.control = s.control)
    (hrun : w.fg.run = true → s.fg.run = true ∨ multiStep i = true) : Performs i s w :=
  ⟨w, ⟨hk, hc, hrun⟩, .inl rfl⟩

theorem performs_complete {len : Word} (st : Status) (hk : Keeps s w) (hc : w.control = s.control)
    (hrun : w.fg.run = s.fg.run) (hlen : len.toNat % 4 = 0) : Performs i s (complete len st w) :=
  ⟨w, ⟨hk, hc, fun h => .inl (hrun ▸ h)⟩, .inr ⟨len, st, hlen, rfl⟩⟩

theorem performs_raiseBusFault (a : Word) : Performs i s (raiseBusFault a s) :=
  performs_unfinished (keeps_raiseBusFault s a) rfl .inl

theorem performs_consumeRetry : Performs i s (consumeRetry s) :=
  performs_unfinished (keeps_consumeRetry s) rfl .inl

theorem Performs.keeps {t : State} (h : Performs i s t) : Keeps s t := by
  obtain ⟨w, hw, rfl | ⟨len, st, -, rfl⟩⟩ := h
  · exact hw.toKeeps
  · exact hw.toKeeps.trans (keeps_complete w len st)

end Performs

theorem setQueue_control (s : State) (q : QId) (x : Queue) : (s.setQueue q x).control = s.control := by
  cases q <;> rfl

section Commands
variable {s t : State}

theorem performs_move {q : QId} {cap : BitVec 16} {b : Byte} {i : Instr}
    (hi : i ∈ [Instr.fcreate q cap, .fwrite q b, .fread q]) (h : exec i s = .next t) : Performs i s t := by
  obtain ⟨st, v, x, hexec, hx, -⟩ := exec_move_eq q s hi
  obtain rfl := Host.Outcome.next.inj (h.symm.trans hexec)
  refine performs_complete st ((keeps_setQueue s hx).trans (keeps_setRes _ v)) ?_ ?_ rfl
  · exact setQueue_control s q x
  · rw [setRes_fg, setQueue_fg]

theorem performs_query {q : QId} {i : Instr} (hi : i = .ffull q ∨ i = .fempty q ∨ i = .favail q)
    (h : exec i s = .next t) : Performs i s t := by
  obtain ⟨v, hexec⟩ := exec_query_eq q s hi
  obtain rfl := Host.Outcome.next.inj (h.symm.trans hexec)
  exact performs_complete .ok (keeps_setRes s v) rfl rfl rfl

theorem performs_mask {n : BitVec 6} {i : Instr} (hi : i = .imask n ∨ i = .iunmask n) (h : exec i s = .next t) :
    Performs i s t := by
  by_cases hn : hasIrqen n.toNat = true
  · have hexec : ∃ b, exec i s = .next (complete 4 .ok (setIrqen n.toNat b s)) := by
      obtain rfl | rfl := hi
      · exact ⟨_, exec_imask_of_hasIrqen hn s⟩
      · exact ⟨_, exec_iunmask_of_hasIrqen hn s⟩
    obtain ⟨b, hexec⟩ := hexec
    obtain rfl := Host.Outcome.next.inj (h.symm.trans hexec)
    exact performs_complete .ok (keeps_setIrqen s hn b) rfl rfl rfl
  · have hexec : exec i s = .next (complete 4 .badcfg s) := by
      obtain rfl | rfl := hi
      · exact exec_imask_of_not_hasIrqen hn s
      · exact exec_iunmask_of_not_hasIrqen hn s
    obtain rfl := Host.Outcome.next.inj (h.symm.trans hexec)
    exact performs_complete .badcfg (Keeps.refl s) rfl rfl rfl

theorem performs_event {mask : BitVec 4} {i : Instr} (hi : i = .intset mask ∨ i = .intclr mask)
    (h : exec i s = .next t) : Performs i s t := by
  obtain ⟨v, hexec⟩ := exec_event_eq hi s
  obtain rfl := Host.Outcome.next.inj (h.symm.trans hexec)
  exact performs_complete .ok (keeps_setUart s id) rfl rfl rfl

theorem performs_configure {rx tx rts cts sel : Byte} {parity flow : Bool} {i : Instr}
    (h : exec (.configure rx tx rts cts sel parity flow) s = .next t) : Performs i s t := by
  obtain ⟨st, hreport⟩ | ⟨baud, -, hbaud, hvalid⟩ := exec_configure_cases rx tx rts cts sel parity flow s
  · obtain rfl := Host.Outcome.next.inj (h.symm.trans (hreport s rfl rfl))
    exact performs_complete st (Keeps.refl s) rfl rfl rfl
  · obtain rfl := Host.Outcome.next.inj (h.symm.trans (hvalid s rfl rfl))
    refine performs_complete .ok (keeps_configureUart hbaud) ?_ ?_ rfl
    · rw [configureUart_eq]
      rfl
    · rw [configureUart_eq]

/-- Both budgets are at most the larger of the two. -/
theorem budgetLegal_tBlock (p : Params) : BudgetLegal p p.tBlock := Nat.le_max_left ..

theorem budgetLegal_tSend (p : Params) : BudgetLegal p p.tSend := Nat.le_max_right ..

theorem keeps_byteMoved {b : Byte} {i : Instr} {w : State} (h : ByteMoved b i s w) : Keeps s w := by
  obtain ⟨-, rfl⟩ | ⟨-, rfl⟩ := h
  · exact (keeps_clearEvent s (by decide)).trans (keeps_txdWrite _ b)
  · exact (keeps_rxdRead_clearEvent s).trans (keeps_setRes _ _)

theorem performs_wait {b : Byte} {i : Instr} (hi : i = .putc b ∨ i = .getc) (h : exec i s = .next t) :
    Performs i s t := by
  have hmulti : multiStep i = true := by obtain rfl | rfl := hi <;> rfl
  obtain ⟨-, rfl⟩ | ⟨w, hw, rfl⟩ | rfl | ⟨-, rfl⟩ := exec_wait_cases hi h
  · exact performs_unfinished (keeps_setFg s fun _ => budgetLegal_tBlock _) rfl fun _ => .inr hmulti
  · have hkeeps := keeps_byteMoved hw
    obtain ⟨-, rfl⟩ | ⟨-, rfl⟩ := hw
    · exact performs_complete .ok hkeeps rfl rfl rfl
    · exact performs_complete .ok hkeeps rfl rfl rfl
  · exact performs_complete .timeout (Keeps.refl s) rfl rfl rfl
  · exact performs_consumeRetry

theorem performs_sendUnbufferedByte (b : Byte) {i : Instr} : Performs i s (sendUnbufferedByte b s) := by
  obtain h | h | ⟨-, h⟩ := sendUnbufferedByte_cases b s <;> rw [h]
  · have hsent : Keeps s (txdWrite b (clearEvent bitTxdrdy s)) :=
      (keeps_clearEvent s (by decide)).trans (keeps_txdWrite _ b)
    exact performs_unfinished (hsent.trans (keeps_setFg _ fun _ => budgetLegal_tBlock _)) rfl .inl
  · exact performs_complete .timeout (keeps_setRes s _) rfl rfl rfl
  · exact performs_consumeRetry

theorem performs_string {addr : Word} {len : BitVec 16} {i : Instr} (hi : i = .puts addr len ∨ i = .putz addr)
    (h : exec i s = .next t) : Performs i s t := by
  have hmulti : multiStep i = true := by obtain rfl | rfl := hi <;> rfl
  obtain ⟨-, rfl⟩ | ⟨v, rfl⟩ | rfl | ⟨b, rfl⟩ := exec_string_cases hi h
  · exact performs_unfinished (keeps_setFg s fun _ => budgetLegal_tBlock _) rfl fun _ => .inr hmulti
  · exact performs_complete .ok (keeps_setRes s v) rfl rfl rfl
  · exact performs_raiseBusFault _
  · exact performs_sendUnbufferedByte b

/-- A byte admitted (R144), with what the command then records. -/
theorem performs_admitted {i : Instr} {f : Fg} (hfree : s.txq.isFull = false) (b : Byte)
    (hf : f = { s.fg with i := f.i, cr := f.cr, w := s.par.tSend }) :
    Performs i s { critTx b s with fg := f } := by
  have hbudget : BudgetLegal (critTx b s).par f.w := by
    rw [critTx_par, hf]
    exact budgetLegal_tSend s.par
  refine performs_unfinished ((keeps_critTx ((isFull_eq_false_iff _).1 hfree) b).trans (keeps_setFg _ fun _ => hbudget))
    ?_ fun hrun => .inl ?_
  · rw [critTx_frame, hf]
    rfl
  · rw [hf] at hrun
    exact hrun

theorem performs_admission (b : Byte) {i : Instr} : Performs i s (admission b s) := by
  obtain ⟨-, -, h⟩ | ⟨-, -, h⟩ | ⟨hfree, -, h⟩ | ⟨hfree, -, h⟩ := admission_cases b s <;> rw [h]
  · exact performs_complete .timeout ((keeps_setRes s _).trans (keeps_setFg _ id)) rfl rfl rfl
  · exact performs_consumeRetry
  · exact performs_admitted hfree b rfl
  · exact performs_admitted hfree b rfl

theorem performs_send {addr : Word} {len : BitVec 16} (h : exec (.send addr len) s = .next t) :
    Performs (.send addr len) s t := by
  obtain ⟨-, rfl⟩ | rfl | rfl | ⟨b, rfl, -⟩ := exec_send_cases h
  · exact performs_unfinished (keeps_setFg s fun _ => budgetLegal_tSend _) rfl fun _ => .inr rfl
  · exact performs_complete .ok (keeps_setRes s _) rfl rfl rfl
  · exact performs_raiseBusFault _
  · exact performs_admission b

theorem performs_recv {addr : Word} {len : BitVec 16} (h : exec (.recv addr len) s = .next t) :
    Performs (.recv addr len) s t := by
  obtain ⟨-, rfl⟩ | rfl | rfl | ⟨b, q, hread, hram, rfl⟩ := exec_recv_cases h
  · exact performs_unfinished (keeps_setFg s id) rfl fun _ => .inr rfl
  · exact performs_complete .ok (keeps_setRes s _) rfl rfl rfl
  · exact performs_raiseBusFault _
  · have hdrain : Keeps s (s.setQueue .rxq q) := keeps_setQueue s (queueStep_fifoRead _ hread)
    have hstore := hdrain.trans (keeps_writeRam (s.setQueue .rxq q) hram b)
    exact performs_unfinished (hstore.trans (keeps_setFg _ id)) rfl .inl

end Commands

/-- Every command but END works and completes; END is the one that stops FG. -/
theorem exec_performs {i : Instr} {s t : State} (hi : i ≠ .endCmd) (h : exec i s = .next t) : Performs i s t := by
  cases i with
  | endCmd => exact absurd rfl hi
  | fcreate q cap => exact performs_move (q := q) (cap := cap) (b := 0) (by simp) h
  | fwrite q b => exact performs_move (q := q) (cap := 0) (b := b) (by simp) h
  | fread q => exact performs_move (q := q) (cap := 0) (b := 0) (by simp) h
  | ffull q => exact performs_query (.inl rfl) h
  | fempty q => exact performs_query (.inr (.inl rfl)) h
  | favail q => exact performs_query (.inr (.inr rfl)) h
  | imask n => exact performs_mask (.inl rfl) h
  | iunmask n => exact performs_mask (.inr rfl) h
  | intset mask => exact performs_event (.inl rfl) h
  | intclr mask => exact performs_event (.inr rfl) h
  | configure rx tx rts cts sel parity flow => exact performs_configure h
  | putc b => exact performs_wait (.inl rfl) h
  | getc => exact performs_wait (b := 0) (.inr rfl) h
  | puts addr len => exact performs_string (.inl rfl) h
  | putz addr => exact performs_string (len := 0) (.inr rfl) h
  | send addr len => exact performs_send h
  | recv addr len => exact performs_recv h

/-! ### The steps of the agents -/

theorem keeps_endCmd (s : State) : Keeps s { s with stat := 0#4, mode := .stopped } :=
  { Keeps.refl s with stat := fun _ => Nat.zero_le _ }

theorem exec_keeps {i : Instr} {s t : State} (h : exec i s = .next t) : Keeps s t := by
  by_cases hi : i = .endCmd
  · subst hi
    obtain rfl := Host.Outcome.next.inj (h.symm.trans (exec_endCmd s))
    exact keeps_endCmd s
  · exact (exec_performs hi h).keeps

theorem commandStep_keeps {s t : State} (h : commandStep s = .next t) : Keeps s t := by
  obtain ⟨i, -, hstep⟩ | ⟨a, -, hstep⟩ | ⟨w, -, hstep⟩ := commandStep_cases s
  · exact exec_keeps (hstep.symm.trans h)
  · obtain rfl := Host.Outcome.next.inj (h.symm.trans hstep)
    exact keeps_raiseBusFault s a
  · obtain rfl := Host.Outcome.next.inj (h.symm.trans hstep)
    exact keeps_raiseUsageFault s w

/-! #### The initializer -/

/-- A word write that succeeds is aligned, in RAM, and four byte writes. -/
theorem memWrite4_cases {s t : State} {a v : Word} (h : memWrite4 s a v = some t) :
    (∀ k < 4, s.par.inRam (a + BitVec.ofNat 32 k) = true) ∧ t = { s with ram := writeLowBytes s.ram a v 4 } := by
  by_cases hok : a.toNat % 4 = 0 ∧ ∀ k < 4, s.par.inRam (a + BitVec.ofNat 32 k) = true
  · obtain ⟨ha, hram⟩ := hok
    exact ⟨hram, Option.some.inj (h.symm.trans (memWrite4_of_inRam ha hram v))⟩
  · simp [memWrite4_eq_none hok] at h

theorem keeps_writeLowBytes {s : State} {a : Word} (v : Word) {n : Nat}
    (h : ∀ k < n, s.par.inRam (a + BitVec.ofNat 32 k) = true) :
    Keeps s { s with ram := writeLowBytes s.ram a v n } := by
  induction n with
  | zero => exact Keeps.refl s
  | succ n ih =>
    have hlow := ih fun k hk => h k (Nat.lt_succ_of_lt hk)
    have hlast : s.par.inRam (a + BitVec.ofNat 32 n) = true := h n (Nat.lt_succ_self n)
    exact hlow.trans (keeps_writeRam { s with ram := writeLowBytes s.ram a v n } hlast (byteOfWord v n))

theorem keeps_memWrite4 {s t : State} {a v : Word} (h : memWrite4 s a v = some t) : Keeps s t := by
  obtain ⟨hram, rfl⟩ := memWrite4_cases h
  exact keeps_writeLowBytes v hram

/-- COPY faults, copies a word, or goes on to ZERO (R233). -/
theorem copyStep_cases (s : State) :
    (∃ a, copyStep s = raiseBusFault a s) ∨
    (s.fg.src.toNat < s.par.dataSrcEnd.toNat ∧ ∃ v s1, memWrite4 s s.fg.dst v = some s1 ∧
      copyStep s = { s1 with fg := { s.fg with src := s.fg.src + 4, dst := s.fg.dst + 4 } }) ∨
    copyStep s = { s with mode := .zero, fg := { s.fg with dst := s.par.zeroStart } } := by
  by_cases hmore : s.fg.src.toNat < s.par.dataSrcEnd.toNat
  · cases hread : memRead4 s s.fg.src with
    | none => exact .inl ⟨_, copyStep_of_unreadable hmore hread⟩
    | some v =>
      cases hwrite : memWrite4 s s.fg.dst v with
      | none => exact .inl ⟨_, copyStep_of_unwritable hmore hread hwrite⟩
      | some s1 => exact .inr (.inl ⟨hmore, v, s1, hwrite, copyStep_of_written hmore hread hwrite⟩)
  · exact .inr (.inr (copyStep_of_end (Nat.not_lt.1 hmore)))

/-- ZERO faults, clears a word, or goes on to the application (R234, R235). -/
theorem zeroStep_cases (s : State) :
    (∃ a, zeroStep s = raiseBusFault a s) ∨
    (s.fg.dst.toNat < s.par.zeroEnd.toNat ∧ ∃ s1, memWrite4 s s.fg.dst 0x00000000#32 = some s1 ∧
      zeroStep s = { s1 with fg := { s.fg with dst := s.fg.dst + 4 } }) ∨
    zeroStep s = { s with pc := s.par.appEntry, mode := .run } := by
  by_cases hmore : s.fg.dst.toNat < s.par.zeroEnd.toNat
  · cases hwrite : memWrite4 s s.fg.dst 0x00000000#32 with
    | none => exact .inl ⟨_, zeroStep_of_unwritable hmore hwrite⟩
    | some s1 => exact .inr (.inl ⟨hmore, s1, rfl, zeroStep_of_written hmore hwrite⟩)
  · exact .inr (.inr (zeroStep_of_end (Nat.not_lt.1 hmore)))

theorem keeps_setMode (s : State) (m : Mode) (a : Word) : Keeps s { s with pc := a, mode := m } := { Keeps.refl s with }

/-- A word written, then the cursors moved. -/
theorem keeps_store {s s1 : State} {a v : Word} {f : Fg} (h : memWrite4 s a v = some s1) (hw : f.w = s.fg.w) :
    Keeps s { s1 with fg := f } := by
  have hw1 : f.w = s1.fg.w := by rw [memWrite4_fg h, hw]
  exact (keeps_memWrite4 h).trans (keeps_setFg s1 fun hb => hw1.symm ▸ hb)

theorem copyStep_keeps (s : State) : Keeps s (copyStep s) := by
  obtain ⟨a, h⟩ | ⟨-, v, s1, hwrite, h⟩ | h := copyStep_cases s <;> rw [h]
  · exact keeps_raiseBusFault s a
  · exact keeps_store hwrite rfl
  · exact (keeps_setMode s .zero s.pc).trans (keeps_setFg _ id)

theorem zeroStep_keeps (s : State) : Keeps s (zeroStep s) := by
  obtain ⟨a, h⟩ | ⟨-, s1, hwrite, h⟩ | h := zeroStep_cases s <;> rw [h]
  · exact keeps_raiseBusFault s a
  · exact keeps_store hwrite rfl
  · exact keeps_setMode s .run _

theorem fgStep_keeps {s t : State} (h : fgStep s = .next t) : Keeps s t := by
  obtain hno | ⟨-, ⟨-, ht⟩ | ⟨-, ht⟩ | ⟨-, ht⟩⟩ := fgStep_cases h
  · cases hno
  · obtain rfl := Host.Outcome.next.inj ht
    exact copyStep_keeps s
  · obtain rfl := Host.Outcome.next.inj ht
    exact zeroStep_keeps s
  · exact commandStep_keeps ht.symm

/-! #### The handlers -/

/-- The transport goes Idle: TXRUN is cleared with it. -/
theorem keeps_goIdle (s : State) : Keeps s { issueTask bitTxrun false .stopTx s with tstate := .idle } := by
  have hbit : (writeBit s.uart.run bitTxrun false).getLsbD bitRxrun = s.uart.run.getLsbD bitRxrun := by
    rw [getLsbD_writeBit]
    simp [bitTxrun, bitRxrun]
  exact { Keeps.refl s with transmit := fun _ _ hstate => (nomatch hstate), enable := fun h => h.trans hbit.symm }

theorem stepHs1_keeps (s : State) : Keeps s (stepHs1 s) := by
  have hfinish (u : State) : Keeps u (setHpc .hs2 (clearEvent bitTxdrdy u)) :=
    (keeps_clearEvent u (by decide)).trans (keeps_setHpc _ _)
  unfold stepHs1
  split
  · cases hread : fifoRead s.txq with
    | none =>
      exact ((keeps_goIdle s).trans (keeps_setUart _ id)).trans (hfinish _)
    | some r =>
      have hq : Keeps s (s.setQueue .txq r.2) := keeps_setQueue s (queueStep_fifoRead _ hread)
      exact (hq.trans (keeps_txdWrite _ r.1)).trans (hfinish _)
  · exact keeps_setHpc s _

theorem stepHs2_keeps (s : State) : Keeps s (stepHs2 s) := by
  have hstore (u : State) (b : Byte) : Keeps u (setHpc .hs3 (u.setQueue .rxq (fifoWrite u.rxq b).2)) :=
    (keeps_setQueue u (queueStep_fifoWrite _ _ b)).trans (keeps_setHpc _ _)
  unfold stepHs2
  split
  · refine (keeps_rxdRead_clearEvent s).trans ?_
    cases hecho : s.par.echo with
    | false => exact hstore _ _
    | true => exact (keeps_txdWrite _ _).trans (hstore _ _)
  · exact keeps_setHpc s _

theorem handlerStep_keeps (s : State) : Keeps s (handlerStep s) := by
  have hclear (k : Nat) (hk : k ≠ bitRxdrdy) (b : Bool) (h : Hpc) :
      Keeps s (setHpc h (if b then clearEvent k s else s)) := by
    cases b with
    | false => exact keeps_setHpc s h
    | true => exact (keeps_clearEvent s hk).trans (keeps_setHpc _ h)
  unfold handlerStep
  cases s.irq.hpc with
  | hs1 => exact stepHs1_keeps s
  | hs2 => exact stepHs2_keeps s
  | hs3 => exact hclear bitRxto (by decide) _ _
  | hs4 => exact hclear bitError (by decide) _ _
  | hs0 | hs5 | dh0 | dh1 | ch0 => exact keeps_setIrq s (fun _ => id) id

theorem takeException_keeps {n : Nat} {s t : State} (h : takeException n s = .next t) : Keeps s t := by
  obtain ⟨-, ht⟩ | ⟨v, -, ht⟩ := takeException_cases n s
  · cases ht.symm.trans h
  · obtain rfl := Host.Outcome.next.inj (h.symm.trans ht)
    refine keeps_setIrq s (fun _ hpend => ?_) id
    show PendLegal (if n = excUart0 then s.irq.pend else clearBit s.irq.pend n)
    split
    · exact hpend
    · exact pendLegal_clearBit n hpend

theorem irqStep_keeps {s t : State} (h : irqStep s = .next t) : Keeps s t := by
  obtain ⟨-, ⟨-, rfl⟩ | ⟨-, n, -, hn⟩⟩ := irqStep_cases h
  · exact handlerStep_keeps s
  · exact takeException_keeps hn

/-! #### LINE and EXT -/

theorem lineEffect_keeps (e : LineStep) (s : State) : Keeps s (lineEffect e s) := by
  have herror (k : Nat) : Keeps s (setErrorSource k (setEvent bitError s)) :=
    (keeps_setEvent s (by decide)).trans (keeps_setUart _ id)
  cases e with
  | txReady => exact (keeps_setEvent s (by decide)).trans (keeps_setLogs _)
  | rxArrive b => exact keeps_setUart s fun _ => by simp [getLsbD_setBit, bitRxdrdy]
  | rxOverrun b replace =>
    cases replace with
    | false => exact herror bitOverrun
    | true => exact (herror bitOverrun).trans (keeps_setUart _ id)
  | rxTimeout => exact keeps_setEvent s (by decide)
  | lineError k => exact herror k.bit

theorem hasPend_of_mem_extLines {p : Params} (h : p.wf = true) {n : Nat} (hn : n ∈ p.extLines) : hasPend n = true := by
  simp only [Params.wf, Bool.and_eq_true] at h
  have hlines : p.extLinesOk = true := by simp only [h]
  exact List.all_eq_true.1 hlines n hn

theorem perform_keeps {m : Move} {s t : State} (h : perform m s = .next t) : Keeps s t := by
  cases m with
  | fg => exact fgStep_keeps h
  | irq => exact irqStep_keeps h
  | line e =>
    obtain ⟨-, rfl⟩ := lineStep_cases h
    exact lineEffect_keeps e s
  | ext n =>
    obtain ⟨hn, rfl⟩ := extRequest_cases h
    exact keeps_setIrq s (fun hwf => pendLegal_setBit (hasPend_of_mem_extLines hwf hn)) id

/-- A step of the machine keeps every clause, once its entry is off the schedule. -/
theorem step_keeps {s t : State} (h : step s = .next t) : ∃ rest, Keeps { s with sched := rest } t := by
  obtain ⟨-, rfl⟩ | ⟨-, m, hm⟩ | ⟨m, rest, -, hm⟩ := step_cases h
  · exact ⟨t.sched, Keeps.refl t⟩
  · exact ⟨s.sched, perform_keeps hm⟩
  · exact ⟨rest, perform_keeps hm⟩

/-! ### The clauses one by one -/

/-- Settles O57: `Keeps` carries the equality. -/
theorem rxdValidIsTheReceiveFlag : Obligations.RxdValidIsTheReceiveFlag := by
  refine ⟨fun p u => ⟨rfl, BitVec.getLsbD_zero⟩, fun s t h hstep => ?_⟩
  obtain ⟨rest, hkeeps⟩ := step_keeps hstep
  exact hkeeps.rxd h

/-- Settles O58: `Keeps` carries each queue's invariants on their own. -/
theorem queueInvariantsAreKept : Obligations.QueueInvariantsAreKept := by
  intro s t htx hrx hstep
  obtain ⟨rest, hkeeps⟩ := step_keeps hstep
  exact ⟨hkeeps.txq htx, hkeeps.rxq hrx⟩

/-- Settles O59: `Keeps` holds them fixed. -/
theorem spRomAndParametersAreFixed : Obligations.SpRomAndParametersAreFixed := by
  intro s t hstep
  obtain ⟨rest, hkeeps⟩ := step_keeps hstep
  exact ⟨hkeeps.sp, hkeeps.par, hkeeps.seed⟩

/-! ### A machine without a schedule (R247, R249) -/

theorem fgStep_answers {s : State} (h : fgEnabled s = true) : ∃ t, fgStep s = .next t := by
  cases hm : s.mode with
  | copy => exact ⟨_, fgStep_of_copy h hm⟩
  | zero => exact ⟨_, fgStep_of_zero h hm⟩
  | stopped => simp [fgEnabled_of_stopped hm] at h
  | run =>
    rw [fgStep_of_run h hm]
    obtain ⟨i, -, hstep⟩ | ⟨a, -, hstep⟩ | ⟨w, -, hstep⟩ := commandStep_cases s
    · obtain ⟨t, ht, -⟩ := everyCommandStepAnswersNext i s
      exact ⟨t, hstep.trans ht⟩
    · exact ⟨_, hstep⟩
    · exact ⟨_, hstep⟩

/-- In a well-formed set no dispatch fails, so that IRQ answers wherever it is enabled. -/
theorem irqStep_answers {s : State} (hwf : s.par.wf = true) (h : irqEnabled s = true) : ∃ t, irqStep s = .next t := by
  simp only [irqEnabled, Bool.and_eq_true, Bool.not_eq_true', Bool.or_eq_true, decide_eq_true_eq] at h
  obtain ⟨hh, hor⟩ := h
  by_cases ha : s.irq.active ≠ 0
  · exact ⟨_, irqStep_active ha hh⟩
  · obtain ⟨n, hn⟩ := Option.isSome_iff_exists.1 (hor.resolve_left ha)
    obtain ⟨hreq, -, -⟩ := (lowestPending_eq_some s n).1 hn
    have hdisp : dispatchable s n = true := (dispatchable_iff s n).2 ⟨not_not.1 ha, hh, hn⟩
    exact ⟨_, (irqStep_of_dispatchable hdisp).trans (takeException_of_wf hwf hreq)⟩

/-- Settles O60: the machine takes IRQ's step, else FG's, else idles; each answers and keeps the schedule empty. -/
theorem unscheduledMachineAlwaysSteps : Obligations.UnscheduledMachineAlwaysSteps := by
  intro s hs hsched
  rw [step_of_no_sched hsched, eagerStep]
  by_cases hirq : irqEnabled s = true
  · obtain ⟨t, ht⟩ := irqStep_answers hs.parWf hirq
    rw [if_pos hirq]
    exact ⟨t, ht, (irqStep_keeps ht).sched.trans hsched⟩
  · rw [if_neg hirq]
    by_cases hfg : fgEnabled s = true
    · obtain ⟨t, ht⟩ := fgStep_answers hfg
      rw [if_pos hfg]
      exact ⟨t, ht, (fgStep_keeps ht).sched.trans hsched⟩
    · rw [if_neg hfg]
      exact ⟨s, rfl, hsched⟩

end Sys2Proof.Machine

/-! ## Proofs: the invariant of the machine

What `Keeps` does not carry is the sequencing: which handler runs, and where FG is. The first is IRQ's, the second FG's,
and every other step leaves it alone. -/

namespace Sys2Proof.Machine

/-! ### The two parts of the sequencing -/

/-- The clauses of Inv about the dispatcher. -/
structure IrqLegal (s : State) : Prop where
  active : s.irq.active = 0 ∨ hasPend s.irq.active.toNat = true ∨ s.irq.active.toNat = excUart0
  engine : s.irq.active ≠ 0 → engineMatches s.par s.irq.active.toNat s.irq.hpc = true
  halted : s.irq.halted = true → s.irq.active ≠ 0 ∧ s.irq.hpc = .dh1

/-- The clauses of Inv about where FG is. -/
structure FgLegal (s : State) : Prop where
  boot : s.mode = .copy ∨ s.mode = .zero → s.pc = s.par.addrReset
  aligned : s.mode = .run ∨ s.mode = .stopped → aligned4 s.pc = true
  run : s.fg.run = true → s.mode = .run ∧ fetchesMultiStep s = true
  copy : s.mode = .copy →
    aligned4 s.fg.src = true ∧ s.par.dataSrcStart.toNat ≤ s.fg.src.toNat ∧ s.fg.src.toNat ≤ s.par.dataSrcEnd.toNat ∧
    s.fg.dst.toNat = s.par.dataDstStart.toNat + (s.fg.src.toNat - s.par.dataSrcStart.toNat)
  zero : s.mode = .zero →
    aligned4 s.fg.dst = true ∧ s.par.zeroStart.toNat ≤ s.fg.dst.toNat ∧ s.fg.dst.toNat ≤ s.par.zeroEnd.toNat

theorem Inv.irqLegal {s : State} (h : Inv s) : IrqLegal s := ⟨h.activeLegal, h.engine, h.haltedLegal⟩

theorem Inv.fgLegal {s : State} (h : Inv s) : FgLegal s :=
  ⟨h.pcBoot, h.pcAligned, h.runMode, h.copyCursors, h.zeroCursor⟩

theorem Inv.of_keeps {s t : State} (hs : Inv s) (hk : Keeps s t) (hirq : IrqLegal t) (hfg : FgLegal t) : Inv t :=
  { parWf := hk.par.symm ▸ hs.parWf
    ramWf := hk.ram hs.ramWf
    txqWf := hk.txq hs.txqWf
    rxqWf := hk.rxq hs.rxqWf
    rxdValid := hk.rxd hs.rxdValid
    pendLegal := hk.pend hs.parWf hs.pendLegal
    irqenLegal := hk.irqen hs.irqenLegal
    activeLegal := hirq.active
    engine := hirq.engine
    haltedLegal := hirq.halted
    statLegal := hk.stat hs.statLegal
    spStack := by rw [hk.sp, hk.par, hs.spStack]
    pcBoot := hfg.boot
    pcAligned := hfg.aligned
    runMode := hfg.run
    budget := hk.budget hs.budget
    copyCursors := hfg.copy
    zeroCursor := hfg.zero
    transmitting := hk.transmit hs.txqWf hs.transmitting
    enableRun := hk.enable hs.enableRun
    configured := hk.config hs.configured
    txdLast := hk.txd hs.txdLast }

/-! ### Fetching depends on ROM only -/

theorem regionChecks_of_wf {p : Params} (h : p.wf = true) : p.regionsOk = true := by
  simp only [Params.wf, Bool.and_eq_true] at h
  simp only [h]

/-- ROM and RAM are disjoint in a well-formed set (R5). -/
theorem inRam_eq_false_of_inRom {p : Params} (h : p.wf = true) {a : Word} (ha : p.inRom a = true) :
    p.inRam a = false := by
  have hregions := regionChecks_of_wf h
  simp only [Params.regionsOk, Bool.and_eq_true, Bool.or_eq_true, decide_eq_true_eq] at hregions
  obtain ⟨-, hdisjoint⟩ := hregions
  simp only [Params.inRom, Params.inRam, Bool.and_eq_true, Bool.and_eq_false_iff, decide_eq_true_eq,
    decide_eq_false_iff_not] at ha ⊢
  omega

/-- A word read at a ROM address is one of ROM or a BusFault, whatever RAM holds. -/
theorem memRead4_congr_of_inRom {s t : State} (hwf : s.par.wf = true) (hpar : t.par = s.par) {a : Word}
    (ha : s.par.inRom a = true) : memRead4 t a = memRead4 s a := by
  simp only [memRead4, hpar]
  by_cases hall : ∀ k < 4, s.par.inRom (a + BitVec.ofNat 32 k) = true
  · exact busRead4_rom hall ..
  · have hnotRam : ¬ ∀ k < 4, s.par.inRam (a + BitVec.ofNat 32 k) = true := by
      intro hram
      have h0 : s.par.inRam a = true := by simpa using hram 0 (by decide)
      simp [inRam_eq_false_of_inRom hwf ha] at h0
    have hunmapped : s.par.wordMapped a = false :=
      Bool.eq_false_iff.2 fun h => ((wordMapped_iff s.par a).1 h).elim hall hnotRam
    simp [busRead4, hunmapped]

theorem fetchSecond_congr {s t : State} (hwf : s.par.wf = true) (hpar : t.par = s.par) (hpc : t.pc = s.pc) (r : OpRow)
    (w : Word) : fetchSecond t r w = fetchSecond s r w := by
  simp only [fetchSecond, hpar, hpc]
  split
  · rfl
  · rename_i hrom
    rw [memRead4_congr_of_inRom hwf hpar (by simpa using hrom)]

theorem fetch_congr {s t : State} (hwf : s.par.wf = true) (hpar : t.par = s.par) (hpc : t.pc = s.pc) :
    fetch t = fetch s := by
  simp only [fetch, hpar, hpc, fetchSecond_congr hwf hpar hpc]
  split
  · rfl
  · rename_i hok
    rw [memRead4_congr_of_inRom hwf hpar (by simpa using (not_or.1 hok).2)]

/-! ### Steps that leave a part of the sequencing alone -/

/-- No handler has been entered, left or moved. -/
theorem IrqLegal.of_same {s t : State} (h : IrqLegal s) (hpar : t.par = s.par) (hactive : t.irq.active = s.irq.active)
    (hhpc : t.irq.hpc = s.irq.hpc) (hhalted : t.irq.halted = s.irq.halted) : IrqLegal t := by
  refine ⟨?_, ?_, ?_⟩
  · rw [hactive]
    exact h.active
  · rw [hactive, hhpc, hpar]
    exact h.engine
  · rw [hactive, hhpc, hhalted]
    exact h.halted

theorem IrqLegal.of_control {s t : State} (h : IrqLegal s) (hpar : t.par = s.par) (hc : t.control = s.control) :
    IrqLegal t :=
  h.of_same hpar (congrArg Control.active hc) (congrArg Control.hpc hc) (congrArg Control.halted hc)

/-- FG has not moved; a command in progress is one that pc holds. -/
theorem FgLegal.of_same {s t : State} (h : FgLegal s) (hwf : s.par.wf = true) (hpar : t.par = s.par)
    (hpc : t.pc = s.pc) (hmode : t.mode = s.mode) (hsrc : t.fg.src = s.fg.src) (hdst : t.fg.dst = s.fg.dst)
    (hrun : t.fg.run = true → s.mode = .run ∧ fetchesMultiStep s = true) : FgLegal t := by
  have hmulti : fetchesMultiStep t = fetchesMultiStep s := by
    rw [fetchesMultiStep, fetch_congr hwf hpar hpc, fetchesMultiStep]
  refine ⟨?_, ?_, ?_, ?_, ?_⟩
  · rw [hmode, hpc, hpar]
    exact h.boot
  · rw [hmode, hpc]
    exact h.aligned
  · rw [hmode, hmulti]
    exact hrun
  · rw [hmode, hsrc, hdst, hpar]
    exact h.copy
  · rw [hmode, hdst, hpar]
    exact h.zero

theorem FgLegal.of_foreground {s t : State} (h : FgLegal s) (hwf : s.par.wf = true)
    (hsame : t.foreground = s.foreground) : FgLegal t := by
  have hfg : t.fg = s.fg := congrArg Foreground.fg hsame
  exact h.of_same hwf (congrArg Foreground.par hsame) (congrArg Foreground.pc hsame) (congrArg Foreground.mode hsame)
    (congrArg Fg.src hfg) (congrArg Fg.dst hfg) (fun hrun => h.run (hfg ▸ hrun))

/-! ### A command step -/

section Command
variable {s t : State}

theorem fetchesMultiStep_of_command {i : Instr} (h : fetch s = .command i) : fetchesMultiStep s = multiStep i := by
  rw [fetchesMultiStep, h]

/-- What a command does before it completes keeps the invariant: where it is armed, pc holds it. -/
theorem Inv.of_works {i : Instr} {w : State} (hs : Inv s) (hm : s.mode = .run) (hfetch : fetch s = .command i)
    (hw : Works i s w) : Inv w := by
  have hrun : w.fg.run = true → s.mode = .run ∧ fetchesMultiStep s = true := fun h =>
    (hw.run h).elim hs.runMode fun hmulti => ⟨hm, (fetchesMultiStep_of_command hfetch).trans hmulti⟩
  exact hs.of_keeps hw.toKeeps (hs.irqLegal.of_control hw.par hw.control)
    (hs.fgLegal.of_same hs.parWf hw.par (congrArg Control.pc hw.control) (congrArg Control.mode hw.control)
      (congrArg Control.src hw.control) (congrArg Control.dst hw.control) hrun)

/-- In mode RUN only the clauses about pc and the command in progress speak of FG. -/
theorem fgLegal_of_run {s : State} (hm : s.mode = .run ∨ s.mode = .stopped) (hpc : aligned4 s.pc = true)
    (hrun : s.fg.run = false) : FgLegal s := by
  have hne : s.mode ≠ .copy ∧ s.mode ≠ .zero := by
    obtain hm | hm := hm <;> simp [hm]
  exact ⟨fun h => (h.elim hne.1 hne.2).elim, fun _ => hpc, fun h => by simp [hrun] at h, fun h => (hne.1 h).elim,
    fun h => (hne.2 h).elim⟩

theorem aligned4_add {a len : Word} (ha : aligned4 a = true) (hlen : len.toNat % 4 = 0) : aligned4 (a + len) = true :=
  (aligned4_iff _).2 (toNat_add_mod_four ((aligned4_iff a).1 ha) hlen)

theorem Inv.complete {s : State} (hs : Inv s) (hm : s.mode = .run) {len : Word} (st : Status)
    (hlen : len.toNat % 4 = 0) : Inv (Machine.complete len st s) := by
  have hpc : aligned4 (s.pc + len) = true := aligned4_add (hs.pcAligned (.inl hm)) hlen
  exact hs.of_keeps (keeps_complete s len st) (hs.irqLegal.of_same rfl rfl rfl rfl) (fgLegal_of_run (.inl hm) hpc rfl)

/-- END is met only with no command in progress, since it is a command of one step. -/
theorem Inv.endCmd {s : State} (hs : Inv s) (hm : s.mode = .run) (hfetch : fetch s = .command .endCmd) :
    Inv { s with stat := 0#4, mode := .stopped } := by
  have hrun : s.fg.run = false := by
    by_contra h
    obtain ⟨-, hmulti⟩ := hs.runMode (by simpa using h)
    simp [fetchesMultiStep_of_command hfetch, multiStep] at hmulti
  exact hs.of_keeps (keeps_endCmd s) (hs.irqLegal.of_same rfl rfl rfl rfl)
    (fgLegal_of_run (.inr rfl) (hs.pcAligned (.inl hm)) hrun)

/-- A step that leaves the sequencing alone altogether. -/
theorem Inv.of_still (hs : Inv s) (hk : Keeps s t) (hc : t.control = s.control) (hrun : t.fg.run = s.fg.run) :
    Inv t :=
  hs.of_keeps hk (hs.irqLegal.of_control hk.par hc)
    (hs.fgLegal.of_same hs.parWf hk.par (congrArg Control.pc hc) (congrArg Control.mode hc)
      (congrArg Control.src hc) (congrArg Control.dst hc) fun h => hs.runMode (hrun ▸ h))

theorem Inv.commandStep (hs : Inv s) (hm : s.mode = .run) (h : commandStep s = .next t) : Inv t := by
  obtain ⟨i, hfetch, hstep⟩ | ⟨a, -, hstep⟩ | ⟨w, -, hstep⟩ := commandStep_cases s
  · have hexec := hstep.symm.trans h
    by_cases hi : i = .endCmd
    · subst hi
      obtain rfl := Host.Outcome.next.inj (hexec.symm.trans (exec_endCmd s))
      exact hs.endCmd hm hfetch
    · obtain ⟨w, hw, rfl | ⟨len, st, hlen, rfl⟩⟩ := exec_performs hi hexec
      · exact hs.of_works hm hfetch hw
      · have hmode : w.mode = .run := (congrArg Control.mode hw.control).trans hm
        exact (hs.of_works hm hfetch hw).complete hmode st hlen
  · obtain rfl := Host.Outcome.next.inj (h.symm.trans hstep)
    exact hs.of_still (keeps_raiseBusFault s a) rfl rfl
  · obtain rfl := Host.Outcome.next.inj (h.symm.trans hstep)
    exact hs.of_still (keeps_raiseUsageFault s w) rfl rfl

end Command

/-! ### An initializer step (R233 to R235) -/

theorem dataChecks_of_wf {p : Params} (h : p.wf = true) :
    p.dataSrcOk = true ∧ p.dataDstOk = true ∧ p.zeroOk = true ∧ p.appEntryOk = true := by
  simp only [Params.wf, Bool.and_eq_true] at h
  simp only [h, and_self]

/-- The regions the initializer works on: whole words, of one size where copied, none reaching past the last address. -/
structure ImageRegions (p : Params) : Prop where
  srcStart : p.dataSrcStart.toNat % 4 = 0
  srcEnd : p.dataSrcEnd.toNat % 4 = 0
  src : p.dataSrcStart.toNat ≤ p.dataSrcEnd.toNat
  srcRom : p.romBase.toNat ≤ p.dataSrcStart.toNat ∧ p.dataSrcEnd.toNat ≤ p.romEnd.toNat
  dstStart : p.dataDstStart.toNat % 4 = 0
  dst : p.dataDstEnd.toNat = p.dataDstStart.toNat + (p.dataSrcEnd.toNat - p.dataSrcStart.toNat)
  dstRam : p.ramBase.toNat ≤ p.dataDstStart.toNat ∧ p.dataDstEnd.toNat ≤ p.ramEnd.toNat
  zeroStart : p.zeroStart.toNat % 4 = 0
  zeroEnd : p.zeroEnd.toNat % 4 = 0
  zero : p.zeroStart.toNat ≤ p.zeroEnd.toNat
  zeroRam : p.ramBase.toNat ≤ p.zeroStart.toNat ∧ p.zeroEnd.toNat ≤ p.ramEnd.toNat

theorem imageRegions_of_wf {p : Params} (h : p.wf = true) : ImageRegions p := by
  obtain ⟨hsrc, hdst, hzero, -⟩ := dataChecks_of_wf h
  simp only [Params.dataSrcOk, regionInside, Bool.and_eq_true, decide_eq_true_eq, aligned4_iff] at hsrc
  simp only [Params.dataDstOk, regionInside, Bool.and_eq_true, decide_eq_true_eq, aligned4_iff] at hdst
  simp only [Params.zeroOk, regionInside, Bool.and_eq_true, decide_eq_true_eq, aligned4_iff] at hzero
  obtain ⟨⟨hs4, he4⟩, ⟨hsBase, hse⟩, heTop⟩ := hsrc
  obtain ⟨⟨⟨hd4, -⟩, ⟨hdBase, hde⟩, hdTop⟩, hsize⟩ := hdst
  obtain ⟨⟨hz4, hze4⟩, ⟨hzBase, hzz⟩, hzTop⟩ := hzero
  exact ⟨hs4, he4, hse, ⟨hsBase, heTop⟩, hd4, by omega, ⟨hdBase, hdTop⟩, hz4, hze4, hzz, ⟨hzBase, hzTop⟩⟩

/-- The next word's address, where it does not reach past the last address. -/
theorem toNat_add_four {a : Word} (h : a.toNat + 4 < 2 ^ 32) : (a + 4).toNat = a.toNat + 4 := by
  have h4 : (4 : Word).toNat = 4 := rfl
  rw [BitVec.toNat_add, h4, Nat.mod_eq_of_lt h]

section Image
variable {s t : State}

/-- No command is in progress before mode RUN. -/
theorem not_run_of_image (hs : Inv s) (hm : s.mode = .copy ∨ s.mode = .zero) (h : s.fg.run = true) : False := by
  obtain ⟨hrun, -⟩ := hs.runMode h
  obtain hm | hm := hm <;> cases hm.symm.trans hrun

/-- Sequencing within COPY and ZERO: the pc of reset and the cursors. -/
theorem fgLegal_of_image {p : Params} (hpar : t.par = p) (hpc : t.pc = p.addrReset) (hrun : ¬ t.fg.run = true)
    (hm : (t.mode = .copy ∧ t.fg.src.toNat % 4 = 0 ∧ p.dataSrcStart.toNat ≤ t.fg.src.toNat ∧
        t.fg.src.toNat ≤ p.dataSrcEnd.toNat ∧
        t.fg.dst.toNat = p.dataDstStart.toNat + (t.fg.src.toNat - p.dataSrcStart.toNat)) ∨
      (t.mode = .zero ∧ t.fg.dst.toNat % 4 = 0 ∧ p.zeroStart.toNat ≤ t.fg.dst.toNat ∧
        t.fg.dst.toNat ≤ p.zeroEnd.toNat)) : FgLegal t := by
  subst hpar
  obtain ⟨hm, ha, hrest⟩ | ⟨hm, ha, hrest⟩ := hm
  · exact ⟨fun _ => hpc, by simp [hm], fun h => absurd h hrun, fun _ => ⟨(aligned4_iff _).2 ha, hrest⟩, by simp [hm]⟩
  · exact ⟨fun _ => hpc, by simp [hm], fun h => absurd h hrun, by simp [hm], fun _ => ⟨(aligned4_iff _).2 ha, hrest⟩⟩

theorem Inv.copyStep (hs : Inv s) (hm : s.mode = .copy) : Inv (copyStep s) := by
  have hk := copyStep_keeps s
  have hregions := imageRegions_of_wf hs.parWf
  have hrun := not_run_of_image hs (.inl hm)
  obtain ⟨ha, hlow, hhigh, hdst⟩ := hs.copyCursors hm
  have ha := (aligned4_iff _).1 ha
  obtain ⟨a, h⟩ | ⟨hmore, v, s1, hwrite, h⟩ | h := copyStep_cases s
  · rw [h] at hk ⊢
    exact hs.of_still hk rfl rfl
  · obtain ⟨-, rfl⟩ := memWrite4_cases hwrite
    rw [h] at hk ⊢
    obtain ⟨hs4, he4, -, -, -, hsize, ⟨-, hdTop⟩, -⟩ := hregions
    have htop := s.par.ramEnd.isLt
    have hend := s.par.dataSrcEnd.isLt
    have hsrc4 : (s.fg.src + 4).toNat = s.fg.src.toNat + 4 := toNat_add_four (by omega)
    have hdst4 : (s.fg.dst + 4).toNat = s.fg.dst.toNat + 4 := toNat_add_four (by omega)
    refine hs.of_keeps hk (hs.irqLegal.of_same rfl rfl rfl rfl)
      (fgLegal_of_image rfl (hs.pcBoot (.inl hm)) hrun (.inl ⟨hm, ?_⟩))
    simp only [hsrc4, hdst4]
    omega
  · rw [h] at hk ⊢
    exact hs.of_keeps hk (hs.irqLegal.of_same rfl rfl rfl rfl)
      (fgLegal_of_image rfl (hs.pcBoot (.inl hm)) hrun
        (.inr ⟨rfl, hregions.zeroStart, Nat.le_refl _, hregions.zero⟩))

theorem appEntry_aligned {p : Params} (h : p.wf = true) : aligned4 p.appEntry = true := by
  obtain ⟨-, -, -, happ⟩ := dataChecks_of_wf h
  simp only [Params.appEntryOk, Bool.and_eq_true] at happ
  exact happ.1

theorem Inv.zeroStep (hs : Inv s) (hm : s.mode = .zero) : Inv (zeroStep s) := by
  have hk := zeroStep_keeps s
  have hregions := imageRegions_of_wf hs.parWf
  have hrun := not_run_of_image hs (.inr hm)
  obtain ⟨ha, hlow, hhigh⟩ := hs.zeroCursor hm
  have ha := (aligned4_iff _).1 ha
  obtain ⟨a, h⟩ | ⟨hmore, s1, hwrite, h⟩ | h := zeroStep_cases s
  · rw [h] at hk ⊢
    exact hs.of_still hk rfl rfl
  · obtain ⟨-, rfl⟩ := memWrite4_cases hwrite
    rw [h] at hk ⊢
    have hend4 := hregions.zeroEnd
    have hend := s.par.zeroEnd.isLt
    have hdst4 : (s.fg.dst + 4).toNat = s.fg.dst.toNat + 4 := toNat_add_four (by omega)
    refine hs.of_keeps hk (hs.irqLegal.of_same rfl rfl rfl rfl)
      (fgLegal_of_image rfl (hs.pcBoot (.inr hm)) hrun (.inr ⟨hm, ?_⟩))
    simp only [hdst4]
    omega
  · rw [h] at hk ⊢
    exact hs.of_keeps hk (hs.irqLegal.of_same rfl rfl rfl rfl)
      (fgLegal_of_run (.inl rfl) (appEntry_aligned hs.parWf) (Bool.eq_false_iff.2 hrun))

theorem Inv.fgStep (hs : Inv s) (h : fgStep s = .next t) : Inv t := by
  obtain hno | ⟨-, ⟨hm, ht⟩ | ⟨hm, ht⟩ | ⟨hm, ht⟩⟩ := fgStep_cases h
  · cases hno
  · obtain rfl := Host.Outcome.next.inj ht
    exact hs.copyStep hm
  · obtain rfl := Host.Outcome.next.inj ht
    exact hs.zeroStep hm
  · exact hs.commandStep hm ht.symm

end Image

/-! ### A step of IRQ (R200 to R204) -/

/-- Micro-steps of one engine. -/
def sameEngine (h h' : Hpc) : Prop := h'.isUart = h.isUart ∧ h'.isDefault = h.isDefault

theorem engineMatches_of_sameEngine {p : Params} {n : Nat} {h h' : Hpc} (hsame : sameEngine h h') :
    engineMatches p n h' = engineMatches p n h := by
  have hstub (h : Hpc) : decide (h = .ch0) = (!h.isUart && !h.isDefault) := by cases h <;> rfl
  obtain ⟨huart, hdefault⟩ := hsame
  unfold engineMatches
  cases p.binding n with
  | uart0 => exact huart
  | defaultHandler => exact hdefault
  | custom a => simp only [hstub, huart, hdefault]
  | reserved => rfl

/-- A micro-step returns, halts, or goes on to a micro-step of the same engine. -/
theorem handlerStep_cases (s : State) :
    handlerStep s = returnFromHandler s ∨ (s.irq.hpc = .dh1 ∧ handlerStep s = stepDh1 s) ∨
    ((handlerStep s).irq.active = s.irq.active ∧ (handlerStep s).irq.halted = s.irq.halted ∧
      sameEngine s.irq.hpc (handlerStep s).irq.hpc) := by
  unfold handlerStep
  cases s.irq.hpc with
  | hs5 | ch0 => exact .inl rfl
  | dh1 => exact .inr (.inl ⟨rfl, rfl⟩)
  | hs0 | dh0 => exact .inr (.inr ⟨rfl, rfl, rfl, rfl⟩)
  | hs1 => simp [stepHs1_irq, sameEngine, Hpc.isUart, Hpc.isDefault]
  | hs2 => simp [stepHs2_irq, sameEngine, Hpc.isUart, Hpc.isDefault]
  | hs3 => simp [stepHs3_irq, sameEngine, Hpc.isUart, Hpc.isDefault]
  | hs4 => simp [stepHs4_irq, sameEngine, Hpc.isUart, Hpc.isDefault]

section Dispatcher
variable {s t : State}

theorem irqLegal_handlerStep (h : IrqLegal s) (ha : s.irq.active ≠ 0) (hh : s.irq.halted = false) :
    IrqLegal (handlerStep s) := by
  have hpar : (handlerStep s).par = s.par := (handlerStep_keeps s).par
  obtain hret | ⟨hpc, hhalt⟩ | ⟨hactive, hhalted, hsame⟩ := handlerStep_cases s
  · rw [hret]
    exact ⟨.inl rfl, fun hne => absurd rfl hne, fun hhalted => by simp [hh] at hhalted⟩
  · rw [hhalt]
    exact ⟨h.active, h.engine, fun _ => ⟨ha, hpc⟩⟩
  · refine ⟨?_, ?_, ?_⟩
    · rw [hactive]
      exact h.active
    · rw [hactive, hpar, engineMatches_of_sameEngine hsame]
      exact h.engine
    · rw [hhalted, hh]
      exact nofun

theorem engineMatches_entryOf {p : Params} {n : Nat} (hok : p.slotBindingOk n = true)
    (hres : isReservedSlot n = false) : engineMatches p n (entryOf (p.binding n)) = true := by
  unfold engineMatches
  cases hb : p.binding n with
  | uart0 | defaultHandler => rfl
  | custom a => exact decide_eq_true rfl
  | reserved => simp [isReservedSlot_of_binding hok hb] at hres

theorem irqLegal_takeException {n : Nat} (hwf : s.par.wf = true) (hh : s.irq.halted = false)
    (hreq : requested s n = true) (h : takeException n s = .next t) : IrqLegal t := by
  have hok := slotBindingOk_of_wf hwf (two_le_of_requested hreq) (requested_lt hreq)
  obtain rfl := Host.Outcome.next.inj (h.symm.trans (takeException_of_wf hwf hreq))
  have hactive := toNat_active_of_requested hreq
  refine ⟨.inr ?_, fun _ => ?_, fun hhalted => by simp [hh] at hhalted⟩
  · rw [hactive]
    exact hasPend_or_uart_of_requested hreq
  · rw [hactive]
    exact engineMatches_entryOf hok (not_reserved_of_requested hreq)

theorem irqLegal_irqStep (hs : Inv s) (h : irqStep s = .next t) : IrqLegal t := by
  obtain ⟨hh, ⟨ha, rfl⟩ | ⟨-, n, hlowest, hn⟩⟩ := irqStep_cases h
  · exact irqLegal_handlerStep hs.irqLegal ha hh
  · obtain ⟨hreq, -, -⟩ := (lowestPending_eq_some s n).1 hlowest
    exact irqLegal_takeException hs.parWf hh hreq hn

end Dispatcher

/-! ### Every step, and reset -/

theorem Inv.perform {m : Move} {s t : State} (hs : Inv s) (h : perform m s = .next t) : Inv t := by
  by_cases hm : m = .fg
  · subst hm
    exact hs.fgStep h
  · have hirq : IrqLegal t := by
      cases m with
      | fg => exact absurd rfl hm
      | irq => exact irqLegal_irqStep hs h
      | line e =>
        obtain ⟨-, rfl⟩ := lineStep_cases h
        rw [lineEffect_frame]
        exact hs.irqLegal.of_same rfl rfl rfl rfl
      | ext n =>
        obtain ⟨-, rfl⟩ := extRequest_cases h
        exact hs.irqLegal.of_same rfl rfl rfl rfl
    exact hs.of_keeps (perform_keeps h) hirq (hs.fgLegal.of_foreground hs.parWf (perform_foreground hm h))

/-- The invariant does not speak of the schedule. -/
theorem Inv.setSched {s : State} (hs : Inv s) (rest : List Move) : Inv { s with sched := rest } :=
  { hs with }

/-- Settles O55: what `Keeps` carries, and the sequencing by the agent that steps. -/
theorem everyStepKeepsTheInvariant : Obligations.EveryStepKeepsTheInvariant := by
  intro s t hs h
  obtain ⟨-, rfl⟩ | ⟨-, m, hm⟩ | ⟨m, rest, -, hm⟩ := step_cases h
  · exact hs
  · exact hs.perform hm
  · exact (hs.setSched rest).perform hm

theorem atReset_wf (fifoMax : Nat) (bytes : List Byte) : (Queue.atReset fifoMax bytes).wf fifoMax :=
  ⟨Nat.le_refl _, Nat.zero_le _, by simp [Queue.atReset], nofun, fun _ => ⟨rfl, rfl⟩⟩

/-- Settles O56: at reset nothing is requested, enabled, created or in progress, and the copy has not begun. -/
theorem resetMeetsTheInvariant : Obligations.ResetMeetsTheInvariant := by
  intro p u h
  have hregions := imageRegions_of_wf h
  exact
    { parWf := h
      ramWf := ⟨empty_wf none, nofun⟩
      txqWf := atReset_wf p.fifoMax u.txBuf
      rxqWf := atReset_wf p.fifoMax u.rxBuf
      rxdValid := BitVec.getLsbD_zero.symm
      pendLegal := fun n _ hbit => by simp [State.resetWith] at hbit
      irqenLegal := fun n _ hbit => by simp [State.resetWith] at hbit
      activeLegal := .inl rfl
      engine := fun hne => absurd rfl hne
      haltedLegal := nofun
      statLegal := Nat.zero_le _
      spStack := resetWith_sp h u
      pcBoot := fun _ => resetWith_pc h u
      pcAligned := nofun
      runMode := nofun
      budget := Nat.zero_le _
      copyCursors := fun _ => ⟨(aligned4_iff _).2 hregions.srcStart, Nat.le_refl _, hregions.src, by
        simp [State.resetWith]⟩
      zeroCursor := nofun
      transmitting := nofun
      enableRun := BitVec.getLsbD_zero.trans BitVec.getLsbD_zero.symm
      configured := fun hen => by simp [State.resetWith] at hen
      txdLast := .inl rfl }

end Sys2Proof.Machine

/-! ## Proofs: the memory image (70_reset_and_hazards.md R236)

Both loops of the initializer write consecutive words; what RAM holds after n of them is told once, for any words. -/

namespace Sys2Proof.Machine

/-! ### Consecutive words -/

theorem toNat_add_ofNat {a : Word} {k : Nat} (h : a.toNat + k < 2 ^ 32) :
    (a + BitVec.ofNat 32 k).toNat = a.toNat + k := by
  rw [BitVec.toNat_add, BitVec.toNat_ofNat]
  omega

theorem add_ofNat_add (a : Word) (m n : Nat) :
    a + BitVec.ofNat 32 m + BitVec.ofNat 32 n = a + BitVec.ofNat 32 (m + n) := by
  rw [BitVec.add_assoc, ← BitVec.ofNat_add]

theorem next_word (a : Word) (n : Nat) :
    a + BitVec.ofNat 32 (4 * n) + 4 = a + BitVec.ofNat 32 (4 * (n + 1)) :=
  add_ofNat_add a (4 * n) 4

theorem toNat_ofNat_mul_four_mod (n : Nat) : (BitVec.ofNat 32 (4 * n)).toNat % 4 = 0 := by
  rw [BitVec.toNat_ofNat]
  omega

/-- RAM after the words `v 0`, `v 1`, .. `v (n - 1)` have been written from `a` up. -/
def writeWords (ram : Memory) (a : Word) (v : Nat → Word) : Nat → Memory
  | 0 => ram
  | n + 1 => writeLowBytes (writeWords ram a v n) (a + BitVec.ofNat 32 (4 * n)) (v n) 4

section WriteWords
variable (seed : Nat) (ram : Memory) {a : Word} (v : Nat → Word) {n : Nat}

theorem ramByte_writeWords_other {b : Word} (h : a.toNat + 4 * n ≤ 2 ^ 32)
    (hb : ¬ (a.toNat ≤ b.toNat ∧ b.toNat < a.toNat + 4 * n)) :
    ramByte seed (writeWords ram a v n) b = ramByte seed ram b := by
  induction n with
  | zero => rfl
  | succ n ih =>
    have hlast : ∀ k < 4, b ≠ a + BitVec.ofNat 32 (4 * n) + BitVec.ofNat 32 k := by
      rintro k hk rfl
      rw [add_ofNat_add, toNat_add_ofNat (by omega)] at hb
      omega
    rw [writeWords, ramByte_writeLowBytes_other _ _ _ _ hlast]
    exact ih (by omega) (by omega)

theorem ramByte_writeWords {k : Nat} (h : a.toNat + 4 * n ≤ 2 ^ 32) (hk : k < 4 * n) :
    ramByte seed (writeWords ram a v n) (a + BitVec.ofNat 32 k) = byteOfWord (v (k / 4)) (k % 4) := by
  induction n with
  | zero => omega
  | succ n ih =>
    rw [writeWords]
    by_cases hlow : k < 4 * n
    · have hother : ∀ j < 4, a + BitVec.ofNat 32 k ≠ a + BitVec.ofNat 32 (4 * n) + BitVec.ofNat 32 j := by
        intro j hj heq
        have hnat := congrArg BitVec.toNat heq
        rw [add_ofNat_add, toNat_add_ofNat (by omega), toNat_add_ofNat (by omega)] at hnat
        omega
      rw [ramByte_writeLowBytes_other _ _ _ _ hother]
      exact ih (by omega) hlow
    · obtain ⟨j, rfl⟩ : ∃ j, k = 4 * n + j := ⟨k - 4 * n, by omega⟩
      have hj : j < 4 := by omega
      have hdiv : (4 * n + j) / 4 = n := by omega
      have hmod : (4 * n + j) % 4 = j := by omega
      rw [hdiv, hmod, ← add_ofNat_add]
      exact ramByte_writeLowBytes_same _ _ _ _ (Nat.le_refl 4) hj

end WriteWords

/-- The word of ROM at an address, lowest address in the low byte (R54). -/
def romWord (p : Params) (a : Word) : Word :=
  wordOfBytes (romByte p (a + BitVec.ofNat 32 0)) (romByte p (a + BitVec.ofNat 32 1))
    (romByte p (a + BitVec.ofNat 32 2)) (romByte p (a + BitVec.ofNat 32 3))

theorem byteOfWord_romWord (p : Params) (a : Word) {k : Nat} (hk : k < 4) :
    byteOfWord (romWord p a) k = romByte p (a + BitVec.ofNat 32 k) :=
  byteOfWord_wordOfBytes (fun k => romByte p (a + BitVec.ofNat 32 k)) hk

theorem memRead4_of_rom {s : State} {a : Word} (ha : a.toNat % 4 = 0)
    (h : ∀ k < 4, s.par.inRom (a + BitVec.ofNat 32 k) = true) : memRead4 s a = some (romWord s.par a) :=
  memRead4_of_bytes (b := fun k => romByte s.par (a + BitVec.ofNat 32 k)) ha ((wordMapped_iff s.par a).2 (.inl h))
    fun k hk => memRead1_of_inRom (h k hk)

/-! ### The two loops -/

theorem iterate_add {f : State → Answer} {s t : State} {m : Nat} (h : iterate f m s = .next t) (n : Nat) :
    iterate f (m + n) s = iterate f n t := by
  induction m generalizing s with
  | zero =>
    obtain rfl := Host.Outcome.next.inj h
    rw [Nat.zero_add]
  | succ m ih =>
    rw [Nat.add_right_comm]
    simp only [iterate] at h ⊢
    split at h
    · exact ih h
    · cases h
    · cases h

theorem iterate_succ_of_next {f : State → Answer} {s t u : State} {m : Nat} (h : iterate f m s = .next t)
    (hf : f t = .next u) : iterate f (m + 1) s = .next u := by
  rw [iterate_add h, iterate_succ hf, iterate]

/-- `s` after `n` words have been copied. -/
def copied (s : State) (n : Nat) : State :=
  { s with
    ram := writeWords s.ram s.fg.dst (fun k => romWord s.par (s.fg.src + BitVec.ofNat 32 (4 * k))) n
    fg := { s.fg with src := s.fg.src + BitVec.ofNat 32 (4 * n), dst := s.fg.dst + BitVec.ofNat 32 (4 * n) } }

/-- `s` after `n` words have been cleared. -/
def cleared (s : State) (n : Nat) : State :=
  { s with
    ram := writeWords s.ram s.fg.dst (fun _ => 0) n
    fg := { s.fg with dst := s.fg.dst + BitVec.ofNat 32 (4 * n) } }

section Loops
variable {s : State} (he : fgEnabled s = true)
include he

theorem fgStep_copied (hm : s.mode = .copy) {n : Nat} (hsrc : s.fg.src.toNat % 4 = 0) (hdst : s.fg.dst.toNat % 4 = 0)
    (hmore : s.fg.src.toNat + 4 * n < s.par.dataSrcEnd.toNat)
    (hrom : ∀ k < 4, s.par.inRom (s.fg.src + BitVec.ofNat 32 (4 * n + k)) = true)
    (hram : ∀ k < 4, s.par.inRam (s.fg.dst + BitVec.ofNat 32 (4 * n + k)) = true) :
    fgStep (copied s n) = .next (copied s (n + 1)) := by
  have hend := s.par.dataSrcEnd.isLt
  have hoffset := toNat_ofNat_mul_four_mod n
  have hcursor : (copied s n).fg.src.toNat < (copied s n).par.dataSrcEnd.toNat :=
    (toNat_add_ofNat (by omega)).trans_lt hmore
  have hread : memRead4 (copied s n) (copied s n).fg.src =
      some (romWord s.par (s.fg.src + BitVec.ofNat 32 (4 * n))) :=
    memRead4_of_rom (s := copied s n) (toNat_add_mod_four hsrc hoffset) fun k hk => by
      rw [← hrom k hk, ← add_ofNat_add]
      rfl
  have hwrite := memWrite4_of_inRam (s := copied s n) (toNat_add_mod_four hdst hoffset) (fun k hk => by
      rw [← hram k hk, ← add_ofNat_add]
      rfl) (romWord s.par (s.fg.src + BitVec.ofNat 32 (4 * n)))
  rw [fgStep_of_copy (s := copied s n) he hm, copyStep_of_written hcursor hread hwrite]
  simp only [copied, next_word, writeWords]

theorem fgStep_cleared (hm : s.mode = .zero) {n : Nat} (hdst : s.fg.dst.toNat % 4 = 0)
    (hmore : s.fg.dst.toNat + 4 * n < s.par.zeroEnd.toNat)
    (hram : ∀ k < 4, s.par.inRam (s.fg.dst + BitVec.ofNat 32 (4 * n + k)) = true) :
    fgStep (cleared s n) = .next (cleared s (n + 1)) := by
  have hend := s.par.zeroEnd.isLt
  have hoffset := toNat_ofNat_mul_four_mod n
  have hcursor : (cleared s n).fg.dst.toNat < (cleared s n).par.zeroEnd.toNat :=
    (toNat_add_ofNat (by omega)).trans_lt hmore
  have hwrite := memWrite4_of_inRam (s := cleared s n) (toNat_add_mod_four hdst hoffset) (fun k hk => by
      rw [← hram k hk, ← add_ofNat_add]
      rfl) 0
  rw [fgStep_of_zero (s := cleared s n) he hm, zeroStep_of_written hcursor hwrite]
  simp only [cleared, next_word, writeWords]

end Loops

/-- Offsets that stay inside a region of ROM or RAM. -/
theorem inRom_of_offset {p : Params} {a : Word} {k : Nat} (hlow : p.romBase.toNat ≤ a.toNat)
    (hhigh : a.toNat + k < p.romEnd.toNat) : p.inRom (a + BitVec.ofNat 32 k) = true := by
  have htop := p.romEnd.isLt
  simp only [Params.inRom, toNat_add_ofNat (a := a) (k := k) (by omega), Bool.and_eq_true, decide_eq_true_eq]
  omega

theorem inRam_of_offset {p : Params} {a : Word} {k : Nat} (hlow : p.ramBase.toNat ≤ a.toNat)
    (hhigh : a.toNat + k < p.ramEnd.toNat) : p.inRam (a + BitVec.ofNat 32 k) = true := by
  have htop := p.ramEnd.isLt
  simp only [Params.inRam, toNat_add_ofNat (a := a) (k := k) (by omega), Bool.and_eq_true, decide_eq_true_eq]
  omega

/-- The number of words COPY and ZERO write. -/
def copyWords (p : Params) : Nat := (p.dataSrcEnd.toNat - p.dataSrcStart.toNat) / 4

def zeroWords (p : Params) : Nat := (p.zeroEnd.toNat - p.zeroStart.toNat) / 4

section Phases
variable {s : State} (hregions : ImageRegions s.par) (he : fgEnabled s = true)
include hregions he

/-- COPY from its first word to mode ZERO. -/
theorem iterate_copy (hm : s.mode = .copy) (hsrc : s.fg.src = s.par.dataSrcStart)
    (hdst : s.fg.dst = s.par.dataDstStart) :
    iterate fgStep (copyWords s.par + 1) s =
      .next { copied s (copyWords s.par) with
        mode := .zero, fg := { (copied s (copyWords s.par)).fg with dst := s.par.zeroStart } } := by
  obtain ⟨hs4, he4, hse, ⟨hsBase, hsTop⟩, hd4, hsize, ⟨hdBase, hdTop⟩, -⟩ := hregions
  have hloop : ∀ n ≤ copyWords s.par, iterate fgStep n s = .next (copied s n) := by
    intro n hn
    induction n with
    | zero =>
      rw [iterate, copied]
      simp [writeWords]
    | succ n ih =>
      simp only [copyWords] at hn ih
      refine iterate_succ_of_next (ih (by omega)) (fgStep_copied he hm ?_ ?_ ?_ (fun k hk => ?_) fun k hk => ?_)
      · rw [hsrc, hs4]
      · rw [hdst, hd4]
      · rw [hsrc]
        omega
      · rw [hsrc]
        exact inRom_of_offset hsBase (by omega)
      · rw [hdst]
        exact inRam_of_offset hdBase (by omega)
  have hlast : (copied s (copyWords s.par)).par.dataSrcEnd.toNat ≤ (copied s (copyWords s.par)).fg.src.toNat := by
    have hend := s.par.dataSrcEnd.isLt
    simp only [copied, hsrc, copyWords]
    rw [toNat_add_ofNat (by omega)]
    omega
  refine iterate_succ_of_next (hloop _ (Nat.le_refl _)) ?_
  rw [fgStep_of_copy (s := copied s (copyWords s.par)) he hm, copyStep_of_end hlast]
  rfl

/-- ZERO from its first word to mode RUN. -/
theorem iterate_zero (hm : s.mode = .zero) (hdst : s.fg.dst = s.par.zeroStart) :
    iterate fgStep (zeroWords s.par + 1) s =
      .next { cleared s (zeroWords s.par) with pc := s.par.appEntry, mode := .run } := by
  obtain ⟨-, -, -, -, -, -, -, hz4, hze4, hzz, ⟨hzBase, hzTop⟩⟩ := hregions
  have hloop : ∀ n ≤ zeroWords s.par, iterate fgStep n s = .next (cleared s n) := by
    intro n hn
    induction n with
    | zero =>
      rw [iterate, cleared]
      simp [writeWords]
    | succ n ih =>
      simp only [zeroWords] at hn ih
      refine iterate_succ_of_next (ih (by omega)) (fgStep_cleared he hm ?_ ?_ fun k hk => ?_)
      · rw [hdst, hz4]
      · rw [hdst]
        omega
      · rw [hdst]
        exact inRam_of_offset hzBase (by omega)
  have hlast : (cleared s (zeroWords s.par)).par.zeroEnd.toNat ≤ (cleared s (zeroWords s.par)).fg.dst.toNat := by
    have hend := s.par.zeroEnd.isLt
    simp only [cleared, hdst, zeroWords]
    rw [toNat_add_ofNat (by omega)]
    omega
  refine iterate_succ_of_next (hloop _ (Nat.le_refl _)) ?_
  rw [fgStep_of_zero (s := cleared s (zeroWords s.par)) he hm, zeroStep_of_end hlast]
  rfl

end Phases

/-! ### The image -/

/-- RAM after the initializer: the copied words, then the cleared ones, over RAM with nothing written. -/
def imageRam (p : Params) : Memory :=
  writeWords
    (writeWords [] p.dataDstStart (fun k => romWord p (p.dataSrcStart + BitVec.ofNat 32 (4 * k))) (copyWords p))
    p.zeroStart (fun _ => 0) (zeroWords p)

/-- FG's record after the initializer: the cursors at the ends. -/
def imageFg (p : Params) : Fg :=
  { run := false, i := 0, w := 0, cr := false
    src := p.dataSrcStart + BitVec.ofNat 32 (4 * copyWords p)
    dst := p.zeroStart + BitVec.ofNat 32 (4 * zeroWords p) }

theorem fgEnabled_resetWith (p : Params) (u : PowerOn) : fgEnabled (State.resetWith p u) = true := by
  simp [fgEnabled, noSystemPending, State.resetWith]

theorem iterate_initializer {p : Params} (h : p.wf = true) (u : PowerOn) :
    iterate fgStep (copyWords p + 1 + zeroWords p + 1) (State.resetWith p u) =
      .next { State.resetWith p u with mode := .run, pc := p.appEntry, fg := imageFg p, ram := imageRam p } := by
  have hcopy := iterate_copy (s := State.resetWith p u) (imageRegions_of_wf h) (fgEnabled_resetWith p u) rfl rfl rfl
  rw [Nat.add_assoc]
  refine (iterate_add hcopy _).trans ?_
  exact iterate_zero (s := { copied (State.resetWith p u) (copyWords p) with
    mode := .zero, fg := { (copied (State.resetWith p u) (copyWords p)).fg with dst := p.zeroStart } })
    (imageRegions_of_wf h) (fgEnabled_resetWith p u) rfl rfl

section Image
variable {p : Params} (hregions : ImageRegions p) (seed : Nat)
include hregions

theorem ramByte_image_zero {a : Word} (hlow : p.zeroStart.toNat ≤ a.toNat) (hhigh : a.toNat < p.zeroEnd.toNat) :
    ramByte seed (imageRam p) a = 0x00#8 := by
  obtain ⟨-, -, -, -, -, -, -, hz4, hze4, hzz, -⟩ := hregions
  have hend := p.zeroEnd.isLt
  have ha : a = p.zeroStart + BitVec.ofNat 32 (a.toNat - p.zeroStart.toNat) := by
    apply BitVec.eq_of_toNat_eq
    rw [toNat_add_ofNat (by omega)]
    omega
  rw [ha, imageRam, ramByte_writeWords _ _ _ (by simp only [zeroWords]; omega) (by simp only [zeroWords]; omega)]
  exact BitVec.extractLsb'_zero

theorem ramByte_image_copied {k : Nat} (hk : p.dataSrcStart.toNat + k < p.dataSrcEnd.toNat)
    (hzero : ¬ (p.zeroStart.toNat ≤ p.dataDstStart.toNat + k ∧ p.dataDstStart.toNat + k < p.zeroEnd.toNat)) :
    ramByte seed (imageRam p) (p.dataDstStart + BitVec.ofNat 32 k) =
      romByte p (p.dataSrcStart + BitVec.ofNat 32 k) := by
  obtain ⟨hs4, he4, hse, -, hd4, hsize, -, hz4, hze4, hzz, -⟩ := hregions
  have hdEnd := p.dataDstEnd.isLt
  have hzEnd := p.zeroEnd.isLt
  have hword : 4 * (k / 4) + k % 4 = k := by omega
  rw [imageRam, ramByte_writeWords_other _ _ _ (by simp only [zeroWords]; omega)
      (by rw [toNat_add_ofNat (by omega)]; simp only [zeroWords]; omega),
    ramByte_writeWords _ _ _ (by simp only [copyWords]; omega) (by simp only [copyWords]; omega),
    byteOfWord_romWord _ _ (Nat.mod_lt k (by decide)), add_ofNat_add, hword]

theorem ramByte_image_other {a : Word} (hzero : ¬ (p.zeroStart.toNat ≤ a.toNat ∧ a.toNat < p.zeroEnd.toNat))
    (hdata : ¬ (p.dataDstStart.toNat ≤ a.toNat ∧ a.toNat < p.dataDstEnd.toNat)) :
    ramByte seed (imageRam p) a = ramByte seed [] a := by
  obtain ⟨hs4, he4, hse, -, hd4, hsize, -, hz4, hze4, hzz, -⟩ := hregions
  have hdEnd := p.dataDstEnd.isLt
  have hzEnd := p.zeroEnd.isLt
  rw [imageRam, ramByte_writeWords_other _ _ _ (by simp only [zeroWords]; omega) (by simp only [zeroWords]; omega),
    ramByte_writeWords_other _ _ _ (by simp only [copyWords]; omega) (by simp only [copyWords]; omega)]

end Image

theorem inRom_eq_false_of_inRam {p : Params} (h : p.wf = true) {a : Word} (ha : p.inRam a = true) :
    p.inRom a = false := by
  by_contra hrom
  simp [inRam_eq_false_of_inRom h (by simpa using hrom)] at ha

/-- Settles O54: the two loops lead to the image, whose bytes the words written tell. -/
theorem initializerEstablishesTheImage : Obligations.InitializerEstablishesTheImage := by
  intro p u h
  have hregions := imageRegions_of_wf h
  have hread {t : State} {a : Word} (hpar : t.par = p) (ha : p.inRam a = true) :
      memRead1 t a = some (ramByte t.seed t.ram a) := by
    subst hpar
    exact memRead1_of_inRam (inRom_eq_false_of_inRam h ha) ha
  refine ⟨_, iterate_initializer h u, rfl, rfl, rfl, rfl, rfl, fun k hk hzero => ?_, fun a hlow hhigh => ?_,
    fun a ha hzero hdata => ?_⟩
  · have hram : p.inRam (p.dataDstStart + BitVec.ofNat 32 k) = true := by
      obtain ⟨-, -, -, -, -, hsize, ⟨hdBase, hdTop⟩, -⟩ := hregions
      exact inRam_of_offset hdBase (by omega)
    exact (hread rfl hram).trans (congrArg some (ramByte_image_copied hregions _ hk hzero))
  · have hram : p.inRam a = true := by
      obtain ⟨hzBase, hzTop⟩ := hregions.zeroRam
      simp only [Params.inRam, Bool.and_eq_true, decide_eq_true_eq]
      omega
    exact (hread rfl hram).trans (congrArg some (ramByte_image_zero hregions _ hlow hhigh))
  · rw [hread rfl ha, hread rfl ha]
    exact congrArg some (ramByte_image_other hregions _ hzero hdata)

end Sys2Proof.Machine
